-- ==== Sys2Proof/Word.lean ====
section
/-! DEFINITION. The plain word types of the link core (spec 00 R8, 30 R100, R101). -/

namespace Sys2Proof

/-- A byte, 8 bits (00 R8). -/
abbrev Byte := BitVec 8

/-- A command word `W`, 24 bits (30 R100). -/
abbrev CmdWord := BitVec 24

/-- The value field of a response word, `R[15:0]` (30 R101). -/
abbrev Value := BitVec 16

end Sys2Proof
end

