-- ==== Sys2Proof/Syntax.lean ====
section
/-! DEFINITION. The 49 operations of spec 30 R104 to R109 (the rows of spec/opcode_table.json) and the three ports
they arrive on. Each operand has the exact width of its form (30 R103), so that a term of `Instr` holds what an
operation names of its command word and nothing else. -/

namespace Sys2Proof

/-- The ports that accept command words (30 R102). -/
inductive Port where
  | host
  | timer
  | stream
  deriving DecidableEq, Repr

/-- One command word on the port it arrives on: a step of one of the three agents (00 R6). -/
structure Command where
  port : Port
  word : CmdWord
  deriving DecidableEq, Repr

/-- The operations, one constructor per row of the opcode table. -/
inductive Instr where
  /-- BSF.RST (40 R144) -/
  | bsfRst
  /-- BSF.SYNC (40 R145) -/
  | bsfSync
  /-- BSF.FLAG (40 R146) -/
  | bsfFlag
  /-- BSF.BYTE b (40 R147) -/
  | bsfByte (b : BitVec 8)
  /-- BSF.ADDR s, last (40 R148): slot `A`, `last = B[0]` -/
  | bsfAddr (s : BitVec 8) (last : Bool)
  /-- BSF.FCS (40 R149) -/
  | bsfFcs
  /-- BSF.BUILD (40 R150) -/
  | bsfBuild
  /-- BSF.WADDR (40 R151): slot `A div 8`, byte `A mod 8`, data `B` -/
  | bsfWaddr (s : BitVec 5) (i : BitVec 3) (b : BitVec 8)
  /-- BSF.WMSG i, b (40 R152) -/
  | bsfWmsg (i : BitVec 8) (b : BitVec 8)
  /-- BSF.SETLEN n (40 R153): `n = 256*A[0] + B` -/
  | bsfSetlen (n : BitVec 9)
  /-- BSF.SETPATH n (40 R154) -/
  | bsfSetpath (n : BitVec 8)
  /-- BSF.RBIT i (40 R155): `i = 256*A + B` -/
  | bsfRbit (i : BitVec 16)
  /-- BSF.RLEN (40 R156) -/
  | bsfRlen
  /-- BSF.RCRC (40 R157) -/
  | bsfRcrc
  /-- BSF.RADDR (40 R158): slot `A div 8`, byte `A mod 8` -/
  | bsfRaddr (s : BitVec 5) (i : BitVec 3)
  /-- BSF.RMSG i (40 R159) -/
  | bsfRmsg (i : BitVec 8)
  /-- MICE.WIN a, b (41 R181) -/
  | miceWin (a : BitVec 8) (b : BitVec 8)
  /-- MICE.ENC (41 R182) -/
  | miceEnc
  /-- MICE.PUT (41 R196) -/
  | micePut
  /-- MICE.ROUT a (41 R197) -/
  | miceRout (a : BitVec 8)
  /-- MICE.RIN a (41 R198) -/
  | miceRin (a : BitVec 8)
  /-- AFSK.TX (42 R221) -/
  | afskTx
  /-- AFSK.END (42 R226) -/
  | afskEnd
  /-- AFSK.STAT (42 R227) -/
  | afskStat
  /-- AFSK.TIME (42 R228) -/
  | afskTime
  /-- AFSK.ROUT sel (42 R229) -/
  | afskRout (sel : BitVec 8)
  /-- AFSK.TICK (42 R224), TIMER port -/
  | afskTick
  /-- FRT.POLL (43 R263) -/
  | frtPoll
  /-- FRT.RFRM a (43 R272) -/
  | frtRfrm (a : BitVec 8)
  /-- FRT.WDST i, b (43 R274) -/
  | frtWdst (i : BitVec 8) (b : BitVec 8)
  /-- FRT.WOPT b (43 R275) -/
  | frtWopt (b : BitVec 8)
  /-- FRT.WPAY i, b (43 R276) -/
  | frtWpay (i : BitVec 8) (b : BitVec 8)
  /-- FRT.SEND S (43 R277): `S = 256*A[0] + B` -/
  | frtSend (n : BitVec 9)
  /-- FRT.RSTG (43 R279) -/
  | frtRstg
  /-- FRT.RST (43 R280) -/
  | frtRst
  /-- FRT.RPAY i (43 R273) -/
  | frtRpay (i : BitVec 8)
  /-- FRT.RXB b (43 R262), STREAM port -/
  | frtRxb (b : BitVec 8)
  /-- CPF.PUSH b (44 R311) -/
  | cpfPush (b : BitVec 8)
  /-- CPF.RSIZE (44 R318) -/
  | cpfRsize
  /-- CPF.RBUF i (44 R319) -/
  | cpfRbuf (i : BitVec 8)
  /-- CPF.WPAY i, b (44 R320) -/
  | cpfWpay (i : BitVec 8) (b : BitVec 8)
  /-- CPF.ENC S (44 R321) -/
  | cpfEnc (n : BitVec 8)
  /-- CPF.RST (44 R322) -/
  | cpfRst
  /-- CPF.RSTG (44 R323) -/
  | cpfRstg
  /-- SYS.NOP (45 R340) -/
  | sysNop
  /-- SYS.RESET (45 R341) -/
  | sysReset
  /-- SYS.RERR (45 R342) -/
  | sysRerr
  /-- SYS.CLRERR m (45 R343): `m = B[5:0]`, bits 7:6 ignored -/
  | sysClrerr (m : BitVec 6)
  /-- SYS.ID (45 R344) -/
  | sysId
  deriving DecidableEq, Repr

end Sys2Proof
end

