-- ==== Sys2Proof/Decode.lean ====
section
/-! DEFINITION. The command encoding of spec 30 R100 to R112: the decoder, total on 24-bit words, which rejects a
reserved word by name; the port that admits each operation; and the encoder. -/

namespace Sys2Proof

/-- Why a command word is reserved (30 R111): its unit number, or its operation number in a unit that has no such
operation. -/
inductive Reserved where
  | unit (u : Nat)
  | op (u o : Nat)
  deriving DecidableEq, Repr

/-! ## Fields of a command word (30 R100) -/

/-- `W[23:20]` -/
def fieldUnit (w : CmdWord) : BitVec 4 := w.extractLsb' 20 4
/-- `W[19:16]` -/
def fieldOp (w : CmdWord) : BitVec 4 := w.extractLsb' 16 4
/-- `W[15:8]` -/
def fieldA (w : CmdWord) : Byte := w.extractLsb' 8 8
/-- `W[7:0]` -/
def fieldB (w : CmdWord) : Byte := w.extractLsb' 0 8

/-! ## Operand forms (30 R103), from the fields `A` and `B` -/

/-- AB16: `256*A + B` -/
def formAb16 (a b : Byte) : BitVec 16 := a ++ b
/-- LEN9: `256*A[0] + B` -/
def formLen9 (a b : Byte) : BitVec 9 := a.extractLsb' 0 1 ++ b
/-- SLOT: `s = A div 8` -/
def formSlot (a : Byte) : BitVec 5 := a.extractLsb' 3 5
/-- SLOT: `i = A mod 8` -/
def formIndex (a : Byte) : BitVec 3 := a.extractLsb' 0 3
/-- LAST: `B[0]` -/
def formLast (b : Byte) : Bool := b.getLsbD 0
/-- The mask of SYS.CLRERR: `B[5:0]` (45 R343) -/
def formMask (b : Byte) : BitVec 6 := b.extractLsb' 0 6

/-! ## The operation tables -/

/-- The operations of unit 0 (30 R104). -/
def decodeBsf (o : Nat) (a b : Byte) : Except Reserved Instr :=
  match o with
  | 0 => .ok .bsfRst
  | 1 => .ok .bsfSync
  | 2 => .ok .bsfFlag
  | 3 => .ok (.bsfByte b)
  | 4 => .ok (.bsfAddr a (formLast b))
  | 5 => .ok .bsfFcs
  | 6 => .ok .bsfBuild
  | 7 => .ok (.bsfWaddr (formSlot a) (formIndex a) b)
  | 8 => .ok (.bsfWmsg a b)
  | 9 => .ok (.bsfSetlen (formLen9 a b))
  | 10 => .ok (.bsfSetpath b)
  | 11 => .ok (.bsfRbit (formAb16 a b))
  | 12 => .ok .bsfRlen
  | 13 => .ok .bsfRcrc
  | 14 => .ok (.bsfRaddr (formSlot a) (formIndex a))
  | 15 => .ok (.bsfRmsg a)
  | _ => .error (.op 0 o)

/-- The operations of unit 1 (30 R105). -/
def decodeMice (o : Nat) (a b : Byte) : Except Reserved Instr :=
  match o with
  | 0 => .ok (.miceWin a b)
  | 1 => .ok .miceEnc
  | 2 => .ok .micePut
  | 3 => .ok (.miceRout a)
  | 4 => .ok (.miceRin a)
  | _ => .error (.op 1 o)

/-- The operations of unit 2 (30 R106). -/
def decodeAfsk (o : Nat) (a _b : Byte) : Except Reserved Instr :=
  match o with
  | 0 => .ok .afskTx
  | 1 => .ok .afskEnd
  | 2 => .ok .afskStat
  | 3 => .ok .afskTime
  | 4 => .ok (.afskRout a)
  | 15 => .ok .afskTick
  | _ => .error (.op 2 o)

/-- The operations of unit 3 (30 R107). -/
def decodeFrt (o : Nat) (a b : Byte) : Except Reserved Instr :=
  match o with
  | 0 => .ok .frtPoll
  | 1 => .ok (.frtRfrm a)
  | 2 => .ok (.frtWdst a b)
  | 3 => .ok (.frtWopt b)
  | 4 => .ok (.frtWpay a b)
  | 5 => .ok (.frtSend (formLen9 a b))
  | 6 => .ok .frtRstg
  | 7 => .ok .frtRst
  | 8 => .ok (.frtRpay a)
  | 15 => .ok (.frtRxb b)
  | _ => .error (.op 3 o)

/-- The operations of unit 4 (30 R108). -/
def decodeCpf (o : Nat) (a b : Byte) : Except Reserved Instr :=
  match o with
  | 0 => .ok (.cpfPush b)
  | 1 => .ok .cpfRsize
  | 2 => .ok (.cpfRbuf a)
  | 3 => .ok (.cpfWpay a b)
  | 4 => .ok (.cpfEnc b)
  | 5 => .ok .cpfRst
  | 6 => .ok .cpfRstg
  | _ => .error (.op 4 o)

/-- The operations of unit 15 (30 R109). -/
def decodeSys (o : Nat) (_a b : Byte) : Except Reserved Instr :=
  match o with
  | 0 => .ok .sysNop
  | 1 => .ok .sysReset
  | 2 => .ok .sysRerr
  | 3 => .ok (.sysClrerr (formMask b))
  | 4 => .ok .sysId
  | _ => .error (.op 15 o)

/-- The decoder, total (30 R112): the operation is selected by `W[23:16]` alone, and bits of `A` and `B` that it does
not name are ignored (30 R100, R103). -/
def decode (w : CmdWord) : Except Reserved Instr :=
  match (fieldUnit w).toNat with
  | 0 => decodeBsf (fieldOp w).toNat (fieldA w) (fieldB w)
  | 1 => decodeMice (fieldOp w).toNat (fieldA w) (fieldB w)
  | 2 => decodeAfsk (fieldOp w).toNat (fieldA w) (fieldB w)
  | 3 => decodeFrt (fieldOp w).toNat (fieldA w) (fieldB w)
  | 4 => decodeCpf (fieldOp w).toNat (fieldA w) (fieldB w)
  | 15 => decodeSys (fieldOp w).toNat (fieldA w) (fieldB w)
  | u => .error (.unit u)

/-- The port that admits an operation (30 R102): TIMER admits only AFSK.TICK, STREAM only FRT.RXB, and HOST every
other operation. -/
def Instr.port (i : Instr) : Port :=
  match i with
  | .bsfRst => .host
  | .bsfSync => .host
  | .bsfFlag => .host
  | .bsfByte _ => .host
  | .bsfAddr _ _ => .host
  | .bsfFcs => .host
  | .bsfBuild => .host
  | .bsfWaddr _ _ _ => .host
  | .bsfWmsg _ _ => .host
  | .bsfSetlen _ => .host
  | .bsfSetpath _ => .host
  | .bsfRbit _ => .host
  | .bsfRlen => .host
  | .bsfRcrc => .host
  | .bsfRaddr _ _ => .host
  | .bsfRmsg _ => .host
  | .miceWin _ _ => .host
  | .miceEnc => .host
  | .micePut => .host
  | .miceRout _ => .host
  | .miceRin _ => .host
  | .afskTx => .host
  | .afskEnd => .host
  | .afskStat => .host
  | .afskTime => .host
  | .afskRout _ => .host
  | .afskTick => .timer
  | .frtPoll => .host
  | .frtRfrm _ => .host
  | .frtWdst _ _ => .host
  | .frtWopt _ => .host
  | .frtWpay _ _ => .host
  | .frtSend _ => .host
  | .frtRstg => .host
  | .frtRst => .host
  | .frtRpay _ => .host
  | .frtRxb _ => .stream
  | .cpfPush _ => .host
  | .cpfRsize => .host
  | .cpfRbuf _ => .host
  | .cpfWpay _ _ => .host
  | .cpfEnc _ => .host
  | .cpfRst => .host
  | .cpfRstg => .host
  | .sysNop => .host
  | .sysReset => .host
  | .sysRerr => .host
  | .sysClrerr _ => .host
  | .sysId => .host

/-! ## The encoder (30 R118): `unit << 20 | op << 16 | A << 8 | B`, operand bits an operation does not name 0 -/

/-- `A` of form LEN9 -/
def len9Hi (n : BitVec 9) : Byte := 0#7 ++ n.extractLsb' 8 1
/-- `B` of form LEN9 -/
def len9Lo (n : BitVec 9) : Byte := n.extractLsb' 0 8
/-- `A` of form AB16 -/
def ab16Hi (i : BitVec 16) : Byte := i.extractLsb' 8 8
/-- `B` of form AB16 -/
def ab16Lo (i : BitVec 16) : Byte := i.extractLsb' 0 8
/-- `B` of form LAST -/
def flagByte (v : Bool) : Byte := 0#7 ++ BitVec.ofBool v
/-- `B` of the mask of SYS.CLRERR -/
def maskByte (m : BitVec 6) : Byte := 0#2 ++ m

/-- A command word from its four fields (30 R100). -/
def cmdWord (u o : BitVec 4) (a b : Byte) : CmdWord := u ++ o ++ a ++ b

/-- The command word of an operation (30 R118). -/
def encode (i : Instr) : CmdWord :=
  match i with
  | .bsfRst => cmdWord 0 0 0 0
  | .bsfSync => cmdWord 0 1 0 0
  | .bsfFlag => cmdWord 0 2 0 0
  | .bsfByte b => cmdWord 0 3 0 b
  | .bsfAddr s last => cmdWord 0 4 s (flagByte last)
  | .bsfFcs => cmdWord 0 5 0 0
  | .bsfBuild => cmdWord 0 6 0 0
  | .bsfWaddr s i b => cmdWord 0 7 (s ++ i) b
  | .bsfWmsg i b => cmdWord 0 8 i b
  | .bsfSetlen n => cmdWord 0 9 (len9Hi n) (len9Lo n)
  | .bsfSetpath n => cmdWord 0 10 0 n
  | .bsfRbit i => cmdWord 0 11 (ab16Hi i) (ab16Lo i)
  | .bsfRlen => cmdWord 0 12 0 0
  | .bsfRcrc => cmdWord 0 13 0 0
  | .bsfRaddr s i => cmdWord 0 14 (s ++ i) 0
  | .bsfRmsg i => cmdWord 0 15 i 0
  | .miceWin a b => cmdWord 1 0 a b
  | .miceEnc => cmdWord 1 1 0 0
  | .micePut => cmdWord 1 2 0 0
  | .miceRout a => cmdWord 1 3 a 0
  | .miceRin a => cmdWord 1 4 a 0
  | .afskTx => cmdWord 2 0 0 0
  | .afskEnd => cmdWord 2 1 0 0
  | .afskStat => cmdWord 2 2 0 0
  | .afskTime => cmdWord 2 3 0 0
  | .afskRout sel => cmdWord 2 4 sel 0
  | .afskTick => cmdWord 2 15 0 0
  | .frtPoll => cmdWord 3 0 0 0
  | .frtRfrm a => cmdWord 3 1 a 0
  | .frtWdst i b => cmdWord 3 2 i b
  | .frtWopt b => cmdWord 3 3 0 b
  | .frtWpay i b => cmdWord 3 4 i b
  | .frtSend n => cmdWord 3 5 (len9Hi n) (len9Lo n)
  | .frtRstg => cmdWord 3 6 0 0
  | .frtRst => cmdWord 3 7 0 0
  | .frtRpay i => cmdWord 3 8 i 0
  | .frtRxb b => cmdWord 3 15 0 b
  | .cpfPush b => cmdWord 4 0 0 b
  | .cpfRsize => cmdWord 4 1 0 0
  | .cpfRbuf i => cmdWord 4 2 i 0
  | .cpfWpay i b => cmdWord 4 3 i b
  | .cpfEnc n => cmdWord 4 4 0 n
  | .cpfRst => cmdWord 4 5 0 0
  | .cpfRstg => cmdWord 4 6 0 0
  | .sysNop => cmdWord 15 0 0 0
  | .sysReset => cmdWord 15 1 0 0
  | .sysRerr => cmdWord 15 2 0 0
  | .sysClrerr m => cmdWord 15 3 0 (maskByte m)
  | .sysId => cmdWord 15 4 0 0

/-- The bits of its command word that an operation reads (30 R100, R103): unit, operation, and the operand bits of its
form. -/
def usedBits (i : Instr) : CmdWord :=
  match i with
  | .bsfRst => 0xFF0000
  | .bsfSync => 0xFF0000
  | .bsfFlag => 0xFF0000
  | .bsfByte _ => 0xFF00FF
  | .bsfAddr _ _ => 0xFFFF01
  | .bsfFcs => 0xFF0000
  | .bsfBuild => 0xFF0000
  | .bsfWaddr _ _ _ => 0xFFFFFF
  | .bsfWmsg _ _ => 0xFFFFFF
  | .bsfSetlen _ => 0xFF01FF
  | .bsfSetpath _ => 0xFF00FF
  | .bsfRbit _ => 0xFFFFFF
  | .bsfRlen => 0xFF0000
  | .bsfRcrc => 0xFF0000
  | .bsfRaddr _ _ => 0xFFFF00
  | .bsfRmsg _ => 0xFFFF00
  | .miceWin _ _ => 0xFFFFFF
  | .miceEnc => 0xFF0000
  | .micePut => 0xFF0000
  | .miceRout _ => 0xFFFF00
  | .miceRin _ => 0xFFFF00
  | .afskTx => 0xFF0000
  | .afskEnd => 0xFF0000
  | .afskStat => 0xFF0000
  | .afskTime => 0xFF0000
  | .afskRout _ => 0xFFFF00
  | .afskTick => 0xFF0000
  | .frtPoll => 0xFF0000
  | .frtRfrm _ => 0xFFFF00
  | .frtWdst _ _ => 0xFFFFFF
  | .frtWopt _ => 0xFF00FF
  | .frtWpay _ _ => 0xFFFFFF
  | .frtSend _ => 0xFF01FF
  | .frtRstg => 0xFF0000
  | .frtRst => 0xFF0000
  | .frtRpay _ => 0xFFFF00
  | .frtRxb _ => 0xFF00FF
  | .cpfPush _ => 0xFF00FF
  | .cpfRsize => 0xFF0000
  | .cpfRbuf _ => 0xFFFF00
  | .cpfWpay _ _ => 0xFFFFFF
  | .cpfEnc _ => 0xFF00FF
  | .cpfRst => 0xFF0000
  | .cpfRstg => 0xFF0000
  | .sysNop => 0xFF0000
  | .sysReset => 0xFF0000
  | .sysRerr => 0xFF0000
  | .sysClrerr _ => 0xFF003F
  | .sysId => 0xFF0000

/-- The instruction read from `nbits` bits `w` of a command word, every bit above them 0: the word is one value, not a
byte sequence (20 R72), so there is no byte order to undo; `none` for a reserved word, and for a number that is no
24-bit word. -/
def decodeTableWord (nbits w : Nat) : Option Instr :=
  let v := w % 2 ^ nbits
  if v < 2 ^ 24 then
    match decode (BitVec.ofNat 24 v) with
    | .ok i => some i
    | .error _ => none
  else none

end Sys2Proof
end

