-- ==== Sys2Proof/Config.lean ====
section
/-! DEFINITION. The configuration record of spec 00 R7, the free values that stand for what the spec leaves
unspecified, and the test configuration T0 of spec 95 section 0.

The record is a parameter of the machine. It is held, constant, in the machine's state, so that every statement
about all states is a statement about all configurations (DESIGN CHOICE, notes/assumptions/5.md). -/

namespace Sys2Proof

/-- The integrity code of the compact packet framer, `CPF_VARIANT` (44 R310). -/
inductive CpfVariant where
  | xor
  | crc32
  deriving DecidableEq, Repr

/-- The Mic-E speed and course encoder, `MICE_SC` (41 R191): the default function of 41 R192, or one the platform
supplies, about which nothing is known (DESIGN CHOICE, notes/assumptions/6.md). -/
inductive SpeedCourse where
  | standard
  | platform
  deriving DecidableEq, Repr

/-- The configuration record, one field for each open row of the table of 00 R7. The rows that the source fixes
are constants of `Sys2Proof.Machine`. -/
structure Config where
  /-- N_SYNC: zero bytes before a frame -/
  nSync : Nat
  /-- N_PREFLAG: flags before a frame -/
  nPreflag : Nat
  /-- N_POSTFLAG: flags after a frame -/
  nPostflag : Nat
  /-- MAXPATH: path slots -/
  maxPath : Nat
  /-- BITCAP: cells of the bit memory -/
  bitCap : Nat
  /-- ADDR_OR_CALL: OR mask of the six call-sign bytes -/
  addrOrCall : Byte
  /-- ADDR_OR_SSID: OR mask of the SSID byte -/
  addrOrSsid : Byte
  /-- L_SC: characters of the speed and course field -/
  lSc : Nat
  /-- MICE_SC: the speed and course encoder -/
  miceSc : SpeedCourse
  /-- ALT_TERM: whether a closing character follows the altitude -/
  altTerm : Bool
  /-- T_MARK: microseconds a sample lasts on the mark tone -/
  tMark : Nat
  /-- T_SPACE: microseconds a sample lasts on the space tone -/
  tSpace : Nat
  /-- RES: bits of the tone output -/
  res : Nat
  /-- SINE: the sample table (10 R32) -/
  sine : Vector (BitVec 16) 32
  /-- PTT_EN: whether the transmit-enable output is configured -/
  pttEn : Bool
  /-- RX_API: the identifier a received frame must carry -/
  rxApi : Byte
  /-- SRC_W: source-address bytes of a received frame -/
  srcW : Nat
  /-- EXTRA_W: extra header bytes of a received frame -/
  extraW : Nat
  /-- PAYLOAD_CAP: payload bytes a radio frame may carry -/
  payloadCap : Nat
  /-- TX_API: the identifier of a transmitted frame -/
  txApi : Byte
  /-- TX_FID: the byte after it -/
  txFid : Byte
  /-- DST_W: destination bytes of a transmitted frame -/
  dstW : Nat
  /-- TX_MID: constant bytes between destination and options -/
  txMid : List Byte
  /-- RXDEPTH: bytes the receive queue holds -/
  rxDepth : Nat
  /-- CPF_VARIANT -/
  cpfVariant : CpfVariant
  deriving DecidableEq, Repr

/-- The memories of byte cells whose contents are unspecified after reset (10 R44, 93 U1). Spaces MOUT and FHDR of
20 R70 hold two each. -/
inductive Space where
  /-- ADDR: `bsf.addr`, byte address `8*s+i` -/
  | addr
  /-- MSG: `bsf.msg` -/
  | msg
  /-- MIN: `mice.in` -/
  | micIn
  /-- MOUT 0..6: `mice.dest` -/
  | micDest
  /-- MOUT 8..20: `mice.info` -/
  | micInfo
  /-- FHDR 8..: `frt.src` -/
  | frtSrc
  /-- FHDR 16..: `frt.extra` -/
  | frtExtra
  /-- FPAY: `frt.payload` -/
  | frtPayload
  /-- FTX: `frt.txbuf` -/
  | frtTx
  /-- CBUF: `cpf.buf` -/
  | cpfBuf
  /-- CTX: `cpf.txbuf` -/
  | cpfTx
  deriving DecidableEq, Repr

/-- FREE VALUE (93 U1, DESIGN CHOICE, notes/assumptions/3.md). What a byte cell that nothing has written since the last reset reads
as: a function of how many resets there have been, the space and the address, of which nothing is known. -/
opaque Config.freeByte : Nat → Space → Nat → Byte

/-- FREE VALUE (93 U1, DESIGN CHOICE, notes/assumptions/3.md). The same for a cell of the bit memory. -/
opaque Config.freeBit : Nat → Nat → Bool

/-- FREE VALUE (41 R191, DESIGN CHOICE, notes/assumptions/6.md). Byte `i` of what a platform's own `MICE_SC` gives for a field of
`L_SC` characters, a speed and a course. -/
opaque Config.platformSc : (lSc spd crs i : Nat) → Byte

/-- FREE VALUE (43 R262, DESIGN CHOICE, notes/assumptions/11.md). What FRT.RXB answers when `n` bytes are queued and a
16-bit value does not hold `n`. -/
opaque Config.freeLength : (n : Nat) → BitVec 16

/-- The default sample table for eight bits of resolution (42 R230, 92 D21). -/
def Config.sineTable : Vector (BitVec 16) 32 :=
  #v[128, 152, 176, 198, 218, 234, 245, 253, 255, 253, 245, 234, 218, 198, 176, 152,
     128, 103, 79, 57, 37, 21, 10, 2, 0, 2, 10, 21, 37, 57, 79, 103]

/-- DESIGN CHOICE (notes/assumptions/5.md). The test configuration T0 of 95 section 0, which the spec offers so that
vectors can be computed and which is no claim about the original. -/
def Config.t0 : Config where
  nSync := 1
  nPreflag := 2
  nPostflag := 2
  maxPath := 8
  bitCap := 3340
  addrOrCall := 0x00
  addrOrSsid := 0x00
  lSc := 3
  miceSc := .standard
  altTerm := true
  tMark := 26
  tSpace := 14
  res := 8
  sine := Config.sineTable
  pttEn := true
  rxApi := 0x81
  srcW := 2
  extraW := 2
  payloadCap := 100
  txApi := 0x01
  txFid := 0x00
  dstW := 2
  txMid := []
  rxDepth := 128
  cpfVariant := .crc32

end Sys2Proof
end

