-- ==== Sys2Proof/Machine/State.lean ====
section
/-! DEFINITION. The architectural state of spec 10 R20 to R44, as plain data, and the state after reset. -/

namespace Sys2Proof.Machine

/-- A memory of byte cells: (address, byte) pairs, addresses strictly rising. An address that is not listed is
unspecified (93 U1, DESIGN CHOICE, notes/assumptions/7.md). -/
abbrev Mem := List Host.Cell

/-- The bit memory, space BITS, in the same form. -/
abbrev BitMem := List (Nat × Bool)

/-- The statuses of a response word (30 R101, 60 R361). -/
inductive Status where
  | ok
  | illegal
  | range
  | busy
  | ovf
  | cap
  deriving DecidableEq, Repr

/-- A response word (30 R101): `R[19:16]` the status, `R[15:0]` the value. -/
structure Response where
  status : Status
  value : Value
  deriving DecidableEq, Repr

/-- Unit BSF (10 R22 to R25). -/
structure Bsf where
  bits : BitMem
  bitlen : BitVec 16
  crc : BitVec 16
  ones : BitVec 3
  ovf : Bool
  addr : Mem
  msg : Mem
  msglen : BitVec 9
  pathcount : BitVec 4
  deriving DecidableEq, Repr

/-- Unit MICE (10 R26, R27); `input` is the spec's `mice.in`. -/
structure Mice where
  input : Mem
  dest : Mem
  info : Mem
  infolen : BitVec 4
  ok : Bool
  deriving DecidableEq, Repr

/-- `afsk.state` (10 R28). -/
inductive AfskState where
  | idle
  | transmitting
  deriving DecidableEq, Repr

/-- `afsk.tone` (10 R29). -/
inductive Tone where
  | mark
  | space
  deriving DecidableEq, Repr

/-- Unit AFSK (10 R28 to R31); `dac` holds its `RES <= 16` bits in 16 (DEDUCED, notes/assumptions/8.md). -/
structure Afsk where
  state : AfskState
  tone : Tone
  sidx : BitVec 5
  elapsed : BitVec 16
  bitpos : BitVec 16
  dac : BitVec 16
  ptt : Bool
  deriving DecidableEq, Repr

/-- `frt.stage` (10 R33). -/
inductive FrtStage where
  | awaitStart
  | length
  | apiId
  | header
  | payload
  | checksum
  | failure
  deriving DecidableEq, Repr

/-- `frt.result` (10 R35). -/
inductive FrtResult where
  | none
  | frame
  | badsum
  | failLen
  | failApi
  | failCap
  deriving DecidableEq, Repr

/-- Unit FRT (10 R33 to R37); `dst` holds its `DST_W <= 8` bytes in 64 bits (DEDUCED, notes/assumptions/9.md). -/
structure Frt where
  stage : FrtStage
  sum : Byte
  len : BitVec 16
  api : Byte
  src : Mem
  extra : Mem
  paylen : BitVec 9
  payload : Mem
  cks : Byte
  result : FrtResult
  rxfifo : List Byte
  dst : BitVec 64
  opt : Byte
  txbuf : Mem
  txlog : List Byte
  deriving DecidableEq, Repr

/-- `cpf.stage` (10 R38). -/
inductive CpfStage where
  | awaitSize
  | data
  | integrity
  deriving DecidableEq, Repr

/-- Unit CPF (10 R38 to R40). -/
structure Cpf where
  stage : CpfStage
  size : BitVec 6
  count : BitVec 6
  icnt : BitVec 2
  chk : Byte
  valid : Bool
  buf : Mem
  txbuf : Mem
  txlog : List Byte
  deriving DecidableEq, Repr

/-- Unit SYS (10 R41): the sticky bits, 0 ILLEGAL, 1 RANGE, 2 BUSY, 3 OVF, 4 CAP, 5 RXOVR. -/
structure Sys where
  err : BitVec 6
  deriving DecidableEq, Repr

/-- Why a step faults: never. The spec gives this hardware no trap and no way to stop (20 R83, 60 R366): whatever is
wrong with a command is a status of its response. Hence no constructor; safe, since every step goes on. -/
inductive Fault where
  deriving DecidableEq, Repr

/-- Why a step is refused. -/
inductive Refusal where
  /-- Raised by `exec` for an instruction that has no meaning yet; safe, since nothing can then be proved of what it
  does. No arm raises it: all 49 operations have their meaning. -/
  | notModelled (mnemonic : String)
  deriving DecidableEq, Repr

/-- The machine's state: the six units, the configuration record (constant, DESIGN CHOICE, notes/assumptions/5.md), and the model's
own three fields. -/
structure State where
  cfg : Config
  bsf : Bsf
  mice : Mice
  afsk : Afsk
  frt : Frt
  cpf : Cpf
  sys : Sys
  /-- the response word of the latest command (DESIGN CHOICE, notes/assumptions/2.md) -/
  resp : Response
  /-- the commands the agents have issued and the machine has not taken, oldest first (DESIGN CHOICE, notes/assumptions/1.md) -/
  inputs : List Command
  /-- how many resets since power-on; selects the free values of unwritten cells (DESIGN CHOICE, notes/assumptions/4.md) -/
  epoch : Nat
  deriving DecidableEq, Repr

/-- The state after a reset (10 R44), under configuration `c`, the `epoch`-th since power-on: every register at its
reset value, every memory cell unspecified. -/
def State.resetWith (c : Config) (epoch : Nat) : State where
  cfg := c
  bsf := { bits := [], bitlen := 0, crc := 0xFFFF, ones := 0, ovf := false, addr := [], msg := [], msglen := 0,
           pathcount := 0 }
  mice := { input := [], dest := [], info := [], infolen := 0, ok := false }
  afsk := { state := .idle, tone := .mark, sidx := 0, elapsed := 0, bitpos := 0, dac := 0, ptt := false }
  frt := { stage := .awaitStart, sum := 0, len := 0, api := 0, src := [], extra := [], paylen := 0, payload := [],
           cks := 0, result := .none, rxfifo := [], dst := 0, opt := 0, txbuf := [], txlog := [] }
  cpf := { stage := .awaitSize, size := 0, count := 0, icnt := 0, chk := 0, valid := false, buf := [], txbuf := [],
           txlog := [] }
  sys := { err := 0 }
  resp := { status := .ok, value := 0 }
  inputs := []
  epoch := epoch

/-- The machine right after power-on reset (70 R390), under the test configuration T0 (DESIGN CHOICE, notes/assumptions/5.md). -/
def State.reset : State := State.resetWith Config.t0 0

end Sys2Proof.Machine
end

