-- ==== Sys2Proof/Machine/Flags.lean ====
section
/-! DEFINITION. Codes of statuses, stages and results, the sticky bits of `sys.err`, and the check sequences that
decide validity (spec 30 R101, R115; 43 R278; 44 R316; 60 R361). -/

namespace Sys2Proof.Machine

/-- The code of a status in a response word (30 R101). -/
def Status.code : Status → BitVec 4
  | .ok => 0
  | .illegal => 1
  | .range => 2
  | .busy => 3
  | .ovf => 4
  | .cap => 5

/-- The bit of `sys.err` a status sets (60 R361). -/
def Status.sticky : Status → BitVec 6
  | .ok => 0b000000
  | .illegal => 0b000001
  | .range => 0b000010
  | .busy => 0b000100
  | .ovf => 0b001000
  | .cap => 0b010000

/-- The bit RXOVR of `sys.err` (10 R41). -/
def rxovrBit : BitVec 6 := 0b100000

/-- The 20-bit response word (30 R101). -/
def Response.word (r : Response) : BitVec 20 := r.status.code ++ r.value

/-- `afsk.state` as a bit (10 R28). -/
def AfskState.code : AfskState → BitVec 16
  | .idle => 0
  | .transmitting => 1

/-- `afsk.tone` as a bit (10 R29). -/
def Tone.code : Tone → BitVec 16
  | .mark => 0
  | .space => 1

/-- The other tone (42 R224). -/
def Tone.toggle : Tone → Tone
  | .mark => .space
  | .space => .mark

/-- `frt.stage` as a number (10 R33). -/
def FrtStage.code : FrtStage → BitVec 16
  | .awaitStart => 0
  | .length => 1
  | .apiId => 2
  | .header => 3
  | .payload => 4
  | .checksum => 5
  | .failure => 6

/-- `frt.result` as a number (10 R35). -/
def FrtResult.code : FrtResult → BitVec 16
  | .none => 0
  | .frame => 1
  | .badsum => 2
  | .failLen => 3
  | .failApi => 4
  | .failCap => 5

/-- `cpf.stage` as a number (10 R38). -/
def CpfStage.code : CpfStage → BitVec 16
  | .awaitSize => 0
  | .data => 1
  | .integrity => 2

/-- One bit through the frame check accumulator (30 R115, 40 R142): reflected polynomial 0x8408. -/
def crcBit (c : BitVec 16) (v : Bool) : BitVec 16 :=
  let c' := c ^^^ (BitVec.ofBool v).setWidth 16
  if c'.getLsbD 0 then (c' >>> 1) ^^^ 0x8408#16 else c' >>> 1

/-- The seed of the frame check accumulator, CRC_INIT (00 R7). -/
def crcInit : BitVec 16 := 0xFFFF

/-- One shift of the CRC-32 accumulator (44 R316): reflected polynomial 0xEDB88320. -/
def crc32Shift (c : BitVec 32) : BitVec 32 :=
  if c.getLsbD 0 then (c >>> 1) ^^^ 0xEDB88320#32 else c >>> 1

/-- One byte through the CRC-32 accumulator (44 R316). -/
def crc32Byte (c : BitVec 32) (x : Byte) : BitVec 32 :=
  (List.range 8).foldl (fun c _ => crc32Shift c) (c ^^^ x.setWidth 32)

/-- `CRC32(bytes)` (44 R316), the CRC-32 of ISO-HDLC (UNVERIFIED, notes/assumptions/13.md). -/
def crc32 (bytes : List Byte) : BitVec 32 := bytes.foldl crc32Byte 0xFFFFFFFF ^^^ 0xFFFFFFFF

/-- The sum modulo 256 of the bytes of a radio frame on top of `t` (43 R278). -/
def sumBytes (t : Byte) (bytes : List Byte) : Byte := bytes.foldl (· + ·) t

/-- The checksum that goes with a sum: `0xFF - sum` (43 R278). -/
def checksumOf (t : Byte) : Byte := 0xFF#8 - t

/-- The exclusive or of the bytes of a compact packet on top of `x` (44 R321). -/
def xorBytes (x : Byte) (bytes : List Byte) : Byte := bytes.foldl (· ^^^ ·) x

end Sys2Proof.Machine
end

