-- ==== Sys2Proof/Machine/Operands.lean ====
section
/-! DEFINITION. What the operand fields name: address ranges of the spaces of spec 20 R70, and the multi-byte values
assembled from byte cells (20 R72). -/

namespace Sys2Proof.Machine

/-! ## Constants the source fixes (00 R7) -/

/-- FLAG -/
def flagByteValue : Byte := 0x7E
/-- CONTROL -/
def controlByte : Byte := 0x03
/-- PID -/
def pidByte : Byte := 0xF0
/-- MSGMAX -/
def msgMax : Nat := 256
/-- BAUD -/
def baud : Nat := 1200
/-- BITPERIOD, microseconds (42 R223): `floor(1000000 / 1200)` -/
def bitPeriod : Nat := 833
/-- CPF_MAX -/
def cpfMax : Nat := 32
/-- MIN_LEN (43 R261) -/
def minLen (c : Config) : Nat := 1 + c.srcW + c.extraW

/-! ## Addresses -/

/-- The byte address of byte `i` of address slot `s` in space ADDR (10 R24). -/
def slotAddr (s i : Nat) : Nat := 8 * s + i

/-- Slot `s` and byte `i` name a cell of space ADDR (40 R151). -/
def slotInRange (c : Config) (s : BitVec 5) (i : BitVec 3) : Bool := s.toNat ≤ 1 + c.maxPath && i.toNat ≠ 7

/-- The registers of space FHDR (20 R70, 43 R272). -/
inductive FhdrReg where
  | result
  | len
  | api
  | paylen
  | cks
  | src (i : Nat)
  | extra (i : Nat)
  deriving DecidableEq, Repr

/-- The register at an address of space FHDR, `none` outside it (43 R272). -/
def fhdrReg (c : Config) (a : Nat) : Option FhdrReg :=
  if a = 0 then some .result
  else if a = 1 then some .len
  else if a = 2 then some .api
  else if a = 3 then some .paylen
  else if a = 4 then some .cks
  else if 8 ≤ a ∧ a < 8 + c.srcW then some (.src (a - 8))
  else if 16 ≤ a ∧ a < 16 + c.extraW then some (.extra (a - 16))
  else none

/-! ## Bits and bytes -/

/-- The bits of a byte, least significant first (20 R72). -/
def byteBits (b : Byte) : List Bool := (List.range 8).map b.getLsbD

/-- The low byte of a 16-bit value. -/
def lowByte (v : BitVec 16) : Byte := v.extractLsb' 0 8

/-- The high byte of a 16-bit value. -/
def highByte (v : BitVec 16) : Byte := v.extractLsb' 8 8

/-- Byte `k` of a value, 0 the least significant. -/
def byteAt {w : Nat} (v : BitVec w) (k : Nat) : Byte := v.extractLsb' (8 * k) 8

/-- `v` with byte `k` replaced by `b` (43 R274). -/
def setByteAt {w : Nat} (v : BitVec w) (k : Nat) (b : Byte) : BitVec w :=
  (v &&& ~~~((0xFF#8).setWidth w <<< (8 * k))) ||| (b.setWidth w <<< (8 * k))

/-- An unsigned 16-bit value from two bytes, least significant first (00 R9). -/
def uint16le (b0 b1 : Byte) : Nat := b0.toNat + 256 * b1.toNat

/-- A two's-complement 32-bit value from four bytes, least significant first (00 R9). -/
def sint32le (b0 b1 b2 b3 : Byte) : Int := (b3 ++ b2 ++ b1 ++ b0 : BitVec 32).toInt

/-- An unsigned 32-bit value from four bytes, least significant first (44 R315). -/
def uint32le (b0 b1 b2 b3 : Byte) : BitVec 32 := b3 ++ b2 ++ b1 ++ b0

/-- A byte as the value of a response. -/
def byteValue (b : Byte) : Value := b.setWidth 16

/-- A bit as the value of a response. -/
def bitValue (v : Bool) : Value := (BitVec.ofBool v).setWidth 16

end Sys2Proof.Machine
end

