-- ==== Sys2Proof/Machine/Ops.lean ====
section
/-! DEFINITION. The operations every meaning is made of: cells of a memory, loads and stores in the spaces of spec 20
R70, the answer of a command, and the refusal of one (`raise`, 00 R9, 60 R360), which on this hardware stands where
other machines take an exception. -/

namespace Sys2Proof.Machine

/-! ## Cells: a memory as (address, cell) pairs, addresses strictly rising -/

/-- The cell at an address, `none` when nothing has written it. -/
def cellGet {α : Type} (m : List (Nat × α)) (a : Nat) : Option α :=
  match m with
  | [] => none
  | (k, v) :: m => if k = a then some v else cellGet m a

/-- The memory with one cell written, in its place. -/
def cellSet {α : Type} (m : List (Nat × α)) (a : Nat) (v : α) : List (Nat × α) :=
  match m with
  | [] => [(a, v)]
  | (k, w) :: m => if a < k then (a, v) :: (k, w) :: m else if a = k then (a, v) :: m else (k, w) :: cellSet m a v

/-- The memory with consecutive cells written from address `a` on. -/
def cellSetMany {α : Type} (m : List (Nat × α)) (a : Nat) (vs : List α) : List (Nat × α) :=
  match vs with
  | [] => m
  | v :: vs => cellSetMany (cellSet m a v) (a + 1) vs

/-- The canonical form of a memory: addresses strictly rising (DESIGN CHOICE, notes/assumptions/7.md). -/
def cellsWf {α : Type} (m : List (Nat × α)) : Bool :=
  match m with
  | [] => true
  | [_] => true
  | (a, _) :: (b, w) :: m => a < b && cellsWf ((b, w) :: m)

/-- Every written address is one that `p` accepts. -/
def cellsWithin {α : Type} (p : Nat → Bool) (m : List (Nat × α)) : Bool := m.all (fun kv => p kv.1)

/-! ## Loads and stores -/

/-- The memory that holds a space. -/
def State.cells (s : State) (sp : Space) : Mem :=
  match sp with
  | .addr => s.bsf.addr
  | .msg => s.bsf.msg
  | .micIn => s.mice.input
  | .micDest => s.mice.dest
  | .micInfo => s.mice.info
  | .frtSrc => s.frt.src
  | .frtExtra => s.frt.extra
  | .frtPayload => s.frt.payload
  | .frtTx => s.frt.txbuf
  | .cpfBuf => s.cpf.buf
  | .cpfTx => s.cpf.txbuf

/-- The state with the memory that holds a space replaced. -/
def State.withCells (s : State) (sp : Space) (m : Mem) : State :=
  match sp with
  | .addr => { s with bsf := { s.bsf with addr := m } }
  | .msg => { s with bsf := { s.bsf with msg := m } }
  | .micIn => { s with mice := { s.mice with input := m } }
  | .micDest => { s with mice := { s.mice with dest := m } }
  | .micInfo => { s with mice := { s.mice with info := m } }
  | .frtSrc => { s with frt := { s.frt with src := m } }
  | .frtExtra => { s with frt := { s.frt with extra := m } }
  | .frtPayload => { s with frt := { s.frt with payload := m } }
  | .frtTx => { s with frt := { s.frt with txbuf := m } }
  | .cpfBuf => { s with cpf := { s.cpf with buf := m } }
  | .cpfTx => { s with cpf := { s.cpf with txbuf := m } }

/-- `MemRead(space, a, 1)` (00 R9): the byte written last, or the free value of a cell that nothing has written since
the last reset (93 U1). -/
def load (sp : Space) (a : Nat) (s : State) : Byte :=
  (cellGet (s.cells sp) a).getD (Config.freeByte s.epoch sp a)

/-- `MemRead(space, a, n)` (00 R9). -/
def loadMany (sp : Space) (a n : Nat) (s : State) : List Byte := (List.range n).map (fun k => load sp (a + k) s)

/-- `MemWrite(space, a, 1, v)` (00 R9): exactly the one cell (20 R75). -/
def store (sp : Space) (a : Nat) (v : Byte) (s : State) : State := s.withCells sp (cellSet (s.cells sp) a v)

/-- `MemWrite` of consecutive cells. -/
def storeMany (sp : Space) (a : Nat) (vs : List Byte) (s : State) : State :=
  s.withCells sp (cellSetMany (s.cells sp) a vs)

/-- `MemRead(BITS, i, 1)`. -/
def loadBit (i : Nat) (s : State) : Bool := (cellGet s.bsf.bits i).getD (Config.freeBit s.epoch i)

/-! ## The end of a command -/

/-- `answer v` (00 R9): status OK with value `v`. -/
def answer (v : Value) (s : State) : State := { s with resp := { status := .ok, value := v } }

/-- `raise <Status>` (00 R9, 60 R360): set the status' sticky bit, answer the status with value 0, and change nothing
else. -/
def raise (st : Status) (s : State) : State :=
  { s with sys := { s.sys with err := s.sys.err ||| st.sticky }, resp := { status := st, value := 0 } }

end Sys2Proof.Machine
end

