-- ==== Sys2Proof/Machine/Afsk.lean ====
section
/-! DEFINITION. Unit AFSK, the dual-tone modulator with sample-rate timing (spec 42). -/

namespace Sys2Proof.Machine

/-- The sample period of a tone, microseconds (10 R29). -/
def tonePeriod (c : Config) (t : Tone) : Nat :=
  match t with
  | .mark => c.tMark
  | .space => c.tSpace

/-- `afsk.period` (10 R31, 42 R222): what the timer is programmed with, `none` for stopped. -/
def afskPeriod (s : State) : Option Nat :=
  match s.afsk.state with
  | .idle => none
  | .transmitting => some (tonePeriod s.cfg s.afsk.tone)

/-- `SINE[afsk.sidx]` (42 R224). -/
def sineSample (c : Config) (i : BitVec 5) : BitVec 16 := c.sine[i.toNat]'(i.isLt)

/-- The end of a transmission (42 R224): state, transmit-enable, sample index and accumulator. -/
def afskStop (a : Afsk) : Afsk := { a with state := .idle, ptt := false, sidx := 0, elapsed := 0 }

/-- The next bit taken at a bit boundary (42 R224): a 0 toggles the tone. -/
def takeBit (v : Bool) (a : Afsk) : Afsk :=
  { a with bitpos := a.bitpos + 1, tone := if v then a.tone else a.tone.toggle }

/-- Steps (1) to (4) of a tick while transmitting (42 R224). -/
def afskAdvance (s : State) : Afsk :=
  let a := s.afsk
  let elapsed := a.elapsed.toNat + tonePeriod s.cfg a.tone
  let a := { a with dac := sineSample s.cfg a.sidx, sidx := a.sidx + 1 }
  if elapsed ≥ bitPeriod then
    let a := { a with elapsed := BitVec.ofNat 16 (elapsed - bitPeriod) }
    if a.bitpos.toNat ≥ s.bsf.bitlen.toNat then afskStop a else takeBit (loadBit a.bitpos.toNat s) a
  else
    { a with elapsed := BitVec.ofNat 16 elapsed }

/-- AFSK.TX (42 R221). -/
def execAfskTx (s : State) : Host.Outcome State Fault Refusal :=
  .next (match s.afsk.state with
    | .transmitting => raise .busy s
    | .idle =>
      if s.bsf.ovf then raise .ovf s
      else answer 0 { s with afsk := { s.afsk with
        state := .transmitting, tone := .mark, sidx := 0, elapsed := 0, bitpos := 0,
        ptt := s.afsk.ptt || s.cfg.pttEn } })

/-- AFSK.END (42 R226). -/
def execAfskEnd (s : State) : Host.Outcome State Fault Refusal :=
  .next (match s.afsk.state with
    | .transmitting => answer 0 { s with afsk := { s.afsk with bitpos := s.bsf.bitlen } }
    | .idle => answer 0 s)

/-- AFSK.STAT (42 R227). -/
def execAfskStat (s : State) : Host.Outcome State Fault Refusal := .next (answer s.afsk.state.code s)

/-- AFSK.TIME (42 R228): milliseconds, rounded down. -/
def execAfskTime (s : State) : Host.Outcome State Fault Refusal :=
  .next (answer (BitVec.ofNat 16 (s.bsf.bitlen.toNat * 1000 / baud)) s)

/-- AFSK.ROUT sel (42 R229). -/
def execAfskRout (sel : BitVec 8) (s : State) : Host.Outcome State Fault Refusal :=
  .next (if sel = 0 then answer s.afsk.dac s
    else if sel = 1 then
      answer ((bitValue s.afsk.ptt <<< 6) ||| (s.afsk.tone.code <<< 5) ||| s.afsk.sidx.setWidth 16) s
    else if sel = 2 then answer s.afsk.elapsed s
    else if sel = 3 then answer s.afsk.bitpos s
    else raise .range s)

/-- AFSK.TICK (42 R224, R225): nothing while Idle. -/
def execAfskTick (s : State) : Host.Outcome State Fault Refusal :=
  .next (match s.afsk.state with
    | .idle => answer 0 s
    | .transmitting => answer (afskAdvance s).state.code { s with afsk := afskAdvance s })

end Sys2Proof.Machine
end

