-- ==== Sys2Proof/Machine/Bsf.lean ====
section
/-! DEFINITION. Unit BSF, the HDLC bit-stuffer with running CRC (spec 40). -/

namespace Sys2Proof.Machine

/-! ## Primitives (40 R141 to R143); `cap` is BITCAP -/

/-- `append(v)` (40 R141): the bounds-checked append. -/
def append (cap : Nat) (b : Bsf) (v : Bool) : Bsf :=
  if b.bitlen.toNat < cap then
    { b with bits := cellSet b.bits b.bitlen.toNat v, bitlen := b.bitlen + 1 }
  else
    { b with ovf := true }

/-- One turn of the loop of `addByte` (40 R142): a data bit, the accumulator, and the stuffed bit after the fifth
consecutive 1. -/
def addBit (cap : Nat) (b : Bsf) (v : Bool) : Bsf :=
  let b := append cap b v
  let b := { b with crc := crcBit b.crc v }
  if v then
    let b := { b with ones := b.ones + 1 }
    if b.ones = 5 then { append cap b false with ones := 0 } else b
  else
    { b with ones := 0 }

/-- `addByte(b)` (40 R142). -/
def addByte (cap : Nat) (b : Bsf) (x : Byte) : Bsf := (byteBits x).foldl (addBit cap) b

/-- `addByte` of each byte in order. -/
def addBytes (cap : Nat) (b : Bsf) (xs : List Byte) : Bsf := xs.foldl (addByte cap) b

/-- `rawByte(b)` (40 R143). -/
def rawByte (cap : Nat) (b : Bsf) (x : Byte) : Bsf := (byteBits x).foldl (append cap) b

/-- `rawByte` of the same byte `n` times. -/
def rawBytes (cap : Nat) (b : Bsf) (n : Nat) (x : Byte) : Bsf := (List.replicate n x).foldl (rawByte cap) b

/-- What BSF.RST and the first step of BSF.BUILD reset (40 R144, R150). -/
def bsfClear (b : Bsf) : Bsf := { b with bitlen := 0, crc := crcInit, ones := 0, ovf := false }

/-- The frame check sequence of an accumulator: its complement (40 R149). -/
def fcsOf (crc : BitVec 16) : BitVec 16 := ~~~crc

/-- The two frame check bytes, low byte first (40 R149). -/
def fcsBytes (crc : BitVec 16) : List Byte := [lowByte (fcsOf crc), highByte (fcsOf crc)]

/-- The bytes sent for one address slot (30 R114, 40 R148). -/
def addrBytes (slot : Nat) (last : Bool) (s : State) : List Byte :=
  (loadMany .addr (slotAddr slot 0) 6 s).map (fun a : Byte => (a <<< 1) ||| s.cfg.addrOrCall)
    ++ [((load .addr (slotAddr slot 6) s <<< 1) &&& 0xFE#8) ||| s.cfg.addrOrSsid ||| (BitVec.ofBool last).setWidth 8]

/-- The path addresses of a frame, the last one marked (40 R150 step 3). -/
def pathBytes (s : State) : List Byte :=
  (List.range s.bsf.pathcount.toNat).flatMap
    (fun k => addrBytes (2 + k) (k + 1 = s.bsf.pathcount.toNat) s)

/-- The data bytes of a frame before its frame check sequence: addresses, control, protocol, message (40 R150 steps 3
and 4). -/
def frameBytes (s : State) : List Byte :=
  addrBytes 0 false s ++ addrBytes 1 (s.bsf.pathcount = 0) s ++ pathBytes s
    ++ [controlByte, pidByte] ++ loadMany .msg 0 s.bsf.msglen.toNat s

/-- The body of BSF.BUILD (40 R150). -/
def buildFrame (s : State) (b : Bsf) : Bsf :=
  let cap := s.cfg.bitCap
  let b := bsfClear b
  let b := rawBytes cap b s.cfg.nSync 0x00
  let b := rawBytes cap b s.cfg.nPreflag flagByteValue
  let b := addBytes cap b (frameBytes s)
  let b := addBytes cap b (fcsBytes b.crc)
  rawBytes cap b s.cfg.nPostflag flagByteValue

/-- A bit-writing operation (40 R140, R141): BUSY while transmitting, and otherwise `body`; OVF when one of its own
appends found the memory full, which keeps what the body did, and otherwise the answer `value`, which may look at the
unit afterwards. `bsf.ovf` is cleared for the body so that it records this operation's appends, and is sticky over
operations (DEDUCED, notes/assumptions/10.md). -/
def bitWriting (body : Bsf → Bsf) (value : Bsf → Value) (s : State) : State :=
  match s.afsk.state with
  | .transmitting => raise .busy s
  | .idle =>
    let b := body { s.bsf with ovf := false }
    let t := { s with bsf := { b with ovf := s.bsf.ovf || b.ovf } }
    if b.ovf then raise .ovf t else answer (value b) t

/-! ## Operations that write the bit sequence -/

/-- BSF.RST (40 R144). -/
def execBsfRst (s : State) : Host.Outcome State Fault Refusal :=
  .next (match s.afsk.state with
    | .transmitting => raise .busy s
    | .idle => answer 0 { s with bsf := bsfClear s.bsf })

/-- BSF.SYNC (40 R145). -/
def execBsfSync (s : State) : Host.Outcome State Fault Refusal :=
  .next (bitWriting (fun b => rawByte s.cfg.bitCap b 0x00) (fun _ => 0) s)

/-- BSF.FLAG (40 R146). -/
def execBsfFlag (s : State) : Host.Outcome State Fault Refusal :=
  .next (bitWriting (fun b => rawByte s.cfg.bitCap b flagByteValue) (fun _ => 0) s)

/-- BSF.BYTE b (40 R147). -/
def execBsfByte (x : BitVec 8) (s : State) : Host.Outcome State Fault Refusal :=
  .next (bitWriting (fun b => addByte s.cfg.bitCap b x) (fun _ => 0) s)

/-- BSF.ADDR s, last (40 R148): RANGE before BUSY (60 R362). -/
def execBsfAddr (slot : BitVec 8) (last : Bool) (s : State) : Host.Outcome State Fault Refusal :=
  .next (if slot.toNat > 1 + s.cfg.maxPath then raise .range s
    else bitWriting (fun b => addBytes s.cfg.bitCap b (addrBytes slot.toNat last s)) (fun _ => 0) s)

/-- BSF.FCS (40 R149): the sequence is latched before either byte is sent. -/
def execBsfFcs (s : State) : Host.Outcome State Fault Refusal :=
  .next (bitWriting (fun b => addBytes s.cfg.bitCap b (fcsBytes b.crc)) (fun _ => fcsOf s.bsf.crc) s)

/-- BSF.BUILD (40 R150): its first step clears `bsf.ovf`, so the flag afterwards is this operation's. -/
def execBsfBuild (s : State) : Host.Outcome State Fault Refusal :=
  .next (match s.afsk.state with
    | .transmitting => raise .busy s
    | .idle =>
      let b := buildFrame s s.bsf
      if b.ovf then raise .ovf { s with bsf := b } else answer b.bitlen { s with bsf := b })

/-! ## Operand stores -/

/-- BSF.WADDR (40 R151). -/
def execBsfWaddr (slot : BitVec 5) (i : BitVec 3) (x : BitVec 8) (s : State) : Host.Outcome State Fault Refusal :=
  .next (if slotInRange s.cfg slot i then answer 0 (store .addr (slotAddr slot.toNat i.toNat) x s) else raise .range s)

/-- BSF.WMSG i, b (40 R152). -/
def execBsfWmsg (i : BitVec 8) (x : BitVec 8) (s : State) : Host.Outcome State Fault Refusal :=
  .next (answer 0 (store .msg i.toNat x s))

/-- BSF.SETLEN n (40 R153). -/
def execBsfSetlen (n : BitVec 9) (s : State) : Host.Outcome State Fault Refusal :=
  .next (if n.toNat > msgMax then raise .range s else answer 0 { s with bsf := { s.bsf with msglen := n } })

/-- BSF.SETPATH n (40 R154). -/
def execBsfSetpath (n : BitVec 8) (s : State) : Host.Outcome State Fault Refusal :=
  .next (if n.toNat > s.cfg.maxPath then raise .range s
    else answer 0 { s with bsf := { s.bsf with pathcount := n.setWidth 4 } })

/-! ## Loads -/

/-- BSF.RBIT i (40 R155). -/
def execBsfRbit (i : BitVec 16) (s : State) : Host.Outcome State Fault Refusal :=
  .next (if i.toNat ≥ s.bsf.bitlen.toNat then raise .range s else answer (bitValue (loadBit i.toNat s)) s)

/-- BSF.RLEN (40 R156). -/
def execBsfRlen (s : State) : Host.Outcome State Fault Refusal := .next (answer s.bsf.bitlen s)

/-- BSF.RCRC (40 R157). -/
def execBsfRcrc (s : State) : Host.Outcome State Fault Refusal := .next (answer s.bsf.crc s)

/-- BSF.RADDR (40 R158). -/
def execBsfRaddr (slot : BitVec 5) (i : BitVec 3) (s : State) : Host.Outcome State Fault Refusal :=
  .next (if slotInRange s.cfg slot i then answer (byteValue (load .addr (slotAddr slot.toNat i.toNat) s)) s
    else raise .range s)

/-- BSF.RMSG i (40 R159). -/
def execBsfRmsg (i : BitVec 8) (s : State) : Host.Outcome State Fault Refusal :=
  .next (answer (byteValue (load .msg i.toNat s)) s)

end Sys2Proof.Machine
end

