-- ==== Sys2Proof/Machine/Cpf.lean ====
section
/-! DEFINITION. Unit CPF, the compact packet framer (spec 44). -/

namespace Sys2Proof.Machine

/-! ## The decoder -/

/-- Stage AwaitSize (44 R311): a byte 1..CPF_MAX is the declared size, any other is ignored. -/
def pushSize (x : Byte) (s : State) : State :=
  if 1 ≤ x.toNat ∧ x.toNat ≤ cpfMax then
    answer 0 { s with cpf := { s.cpf with
      size := x.setWidth 6, count := 0, icnt := 0, stage := .data,
      chk := match s.cfg.cpfVariant with
        | .xor => x
        | .crc32 => s.cpf.chk } }
  else answer 0 s

/-- Stage Data (44 R313). -/
def pushData (x : Byte) (s : State) : State :=
  let t := store .cpfBuf s.cpf.count.toNat x s
  answer 0 { t with cpf := { t.cpf with
    count := s.cpf.count + 1
    chk := match s.cfg.cpfVariant with
      | .xor => s.cpf.chk ^^^ x
      | .crc32 => s.cpf.chk
    stage := if s.cpf.count + 1 = s.cpf.size then .integrity else .data } }

/-- Stage Integrity, XOR variant (44 R314). -/
def pushXor (x : Byte) (s : State) : State :=
  let chk := s.cpf.chk ^^^ x
  answer (bitValue (chk = 0)) { s with cpf := { s.cpf with chk := chk, stage := .awaitSize, valid := chk = 0 } }

/-- The bytes a packet's CRC covers, its size and its payload, of the packet in the buffer (44 R315). -/
def packetBytes (s : State) : List Byte := s.cpf.size.setWidth 8 :: loadMany .cpfBuf 0 s.cpf.size.toNat s

/-- The CRC as received, in the four buffer bytes after the payload, least significant first (44 R315). -/
def receivedCrc (s : State) : BitVec 32 :=
  let b := fun k => load .cpfBuf (s.cpf.size.toNat + k) s
  uint32le (b 0) (b 1) (b 2) (b 3)

/-- Stage Integrity, CRC32 variant (44 R315). -/
def pushCrc32 (x : Byte) (s : State) : State :=
  let t := store .cpfBuf (s.cpf.size.toNat + s.cpf.icnt.toNat) x s
  if s.cpf.icnt.toNat < 3 then
    answer 0 { t with cpf := { t.cpf with icnt := s.cpf.icnt + 1 } }
  else
    let good := crc32 (packetBytes t) = receivedCrc t
    answer (bitValue good) { t with cpf := { t.cpf with icnt := 0, stage := .awaitSize, valid := good } }

/-- CPF.PUSH b (44 R311): a verdict lasts until the next PUSH. -/
def execCpfPush (x : BitVec 8) (s : State) : Host.Outcome State Fault Refusal :=
  let s := { s with cpf := { s.cpf with valid := false } }
  .next (match s.cpf.stage with
    | .awaitSize => pushSize x s
    | .data => pushData x s
    | .integrity =>
      match s.cfg.cpfVariant with
      | .xor => pushXor x s
      | .crc32 => pushCrc32 x s)

/-! ## Reading the result -/

/-- CPF.RSIZE (44 R318). -/
def execCpfRsize (s : State) : Host.Outcome State Fault Refusal :=
  .next (answer ((bitValue s.cpf.valid <<< 15) ||| s.cpf.size.setWidth 16) s)

/-- CPF.RBUF i (44 R319). -/
def execCpfRbuf (i : BitVec 8) (s : State) : Host.Outcome State Fault Refusal :=
  .next (if i.toNat > cpfMax + 3 then raise .range s else answer (byteValue (load .cpfBuf i.toNat s)) s)

/-- CPF.RSTG (44 R323). -/
def execCpfRstg (s : State) : Host.Outcome State Fault Refusal := .next (answer s.cpf.stage.code s)

/-- CPF.RST (44 R322): the decoder half. -/
def execCpfRst (s : State) : Host.Outcome State Fault Refusal :=
  .next (answer 0 { s with cpf := { s.cpf with
    stage := .awaitSize, size := 0, count := 0, icnt := 0, chk := 0, valid := false } })

/-! ## The encoder -/

/-- CPF.WPAY i, b (44 R320). -/
def execCpfWpay (i : BitVec 8) (x : BitVec 8) (s : State) : Host.Outcome State Fault Refusal :=
  .next (if i.toNat ≥ cpfMax then raise .range s else answer 0 (store .cpfTx i.toNat x s))

/-- The integrity code of the bytes of a packet, size first (44 R321). -/
def integrityCode (v : CpfVariant) (bytes : List Byte) : List Byte :=
  match v with
  | .xor => [xorBytes 0 bytes]
  | .crc32 => let c := crc32 bytes; [byteAt c 0, byteAt c 1, byteAt c 2, byteAt c 3]

/-- The bytes CPF.ENC emits (44 R321). -/
def encFrame (n : Byte) (s : State) : List Byte :=
  let bytes := n :: loadMany .cpfTx 0 n.toNat s
  bytes ++ integrityCode s.cfg.cpfVariant bytes

/-- CPF.ENC S (44 R321): the whole packet in one step. -/
def execCpfEnc (n : BitVec 8) (s : State) : Host.Outcome State Fault Refusal :=
  .next (if n = 0 ∨ n.toNat > cpfMax then raise .range s
    else answer (BitVec.ofNat 16 (encFrame n s).length)
      { s with cpf := { s.cpf with txlog := s.cpf.txlog ++ encFrame n s } })

end Sys2Proof.Machine
end

