-- ==== Sys2Proof/Machine/Frt.lean ====
section
/-! DEFINITION. Unit FRT, the resumable checksum-framed byte codec (spec 43). -/

namespace Sys2Proof.Machine

/-! ## The decoder: stage rules (43 R264 to R270)

One turn of the loop of FRT.POLL (43 R263) runs the rule of the present stage. It lets the loop go on, or ends the
operation with a value: 0 when the stage lacks bytes, the verdict when the attempt has concluded. -/

/-- What one turn of the loop does. -/
inductive Turn where
  | goOn (f : Frt)
  | done (f : Frt) (v : Value)
  deriving DecidableEq, Repr

/-- The answer of a POLL that lacks bytes: everything stays as it is (43 R263). -/
def blocked (f : Frt) : Turn := .done f 0

/-- The value of a POLL that concluded an attempt: done, frame, `frt.result` (43 R263). -/
def verdict (r : FrtResult) : Value := 1 ||| (bitValue (r = .frame) <<< 1) ||| (r.code <<< 4)

/-- Stage AwaitStart (43 R264). -/
def stageAwaitStart (f : Frt) : Turn :=
  match f.rxfifo with
  | [] => blocked f
  | b :: rest =>
    if b = flagByteValue then
      .goOn { f with rxfifo := rest, sum := 0, result := .none, stage := .length }
    else .goOn { f with rxfifo := rest }

/-- Stage Length (43 R265): high byte first, outside the sum. -/
def stageLength (c : Config) (f : Frt) : Turn :=
  match f.rxfifo with
  | hi :: lo :: rest =>
    let f := { f with rxfifo := rest, len := hi ++ lo }
    if f.len.toNat < minLen c then .goOn { f with result := .failLen, stage := .failure }
    else .goOn { f with stage := .apiId }
  | _ => blocked f

/-- Stage ApiId (43 R266). -/
def stageApiId (c : Config) (f : Frt) : Turn :=
  match f.rxfifo with
  | [] => blocked f
  | b :: rest =>
    let f := { f with rxfifo := rest, api := b, sum := f.sum + b }
    if b = c.rxApi then .goOn { f with stage := .header }
    else .goOn { f with result := .failApi, stage := .failure }

/-- Stage Header (43 R267): all header bytes or none. -/
def stageHeader (c : Config) (f : Frt) : Turn :=
  if f.rxfifo.length < c.srcW + c.extraW then blocked f
  else
    let head := f.rxfifo.take (c.srcW + c.extraW)
    .goOn { f with
      rxfifo := f.rxfifo.drop (c.srcW + c.extraW)
      src := cellSetMany f.src 0 (head.take c.srcW)
      extra := cellSetMany f.extra 0 (head.drop c.srcW)
      sum := sumBytes f.sum head
      stage := .payload }

/-- The payload size a declared length gives (43 R268). -/
def remaining (c : Config) (f : Frt) : Nat := f.len.toNat - minLen c

/-- Stage Payload (43 R268): the capacity test first, then all payload bytes or none. -/
def stagePayload (c : Config) (f : Frt) : Turn :=
  if remaining c f > c.payloadCap then .goOn { f with result := .failCap, stage := .failure }
  else if f.rxfifo.length < remaining c f then blocked f
  else
    let body := f.rxfifo.take (remaining c f)
    .goOn { f with
      rxfifo := f.rxfifo.drop (remaining c f)
      paylen := BitVec.ofNat 9 (remaining c f)
      payload := cellSetMany f.payload 0 body
      sum := sumBytes f.sum body
      stage := .checksum }

/-- Stage Checksum (43 R269). -/
def stageChecksum (f : Frt) : Turn :=
  match f.rxfifo with
  | [] => blocked f
  | b :: rest =>
    let r := if b = checksumOf f.sum then FrtResult.frame else FrtResult.badsum
    .done { f with rxfifo := rest, cks := b, result := r, stage := .awaitStart } (verdict r)

/-- Stage Failure (43 R270). -/
def stageFailure (f : Frt) : Turn := .done { f with stage := .awaitStart } (verdict f.result)

/-- One turn of the loop of FRT.POLL (43 R263). -/
def pollTurn (c : Config) (f : Frt) : Turn :=
  match f.stage with
  | .awaitStart => stageAwaitStart f
  | .length => stageLength c f
  | .apiId => stageApiId c f
  | .header => stageHeader c f
  | .payload => stagePayload c f
  | .checksum => stageChecksum f
  | .failure => stageFailure f

/-! ## The decoder: one POLL

No stage but AwaitStart is ever followed by itself or by an earlier one within one POLL, so the loop is written as one
function per stage, each going on to the next, and a recursion over the queue for AwaitStart. That this is the loop is
`Obligations.PollIsTheLoopOfItsTurns` (DEDUCED, notes/assumptions/18.md). -/

/-- The unit afterwards and the value answered. -/
structure PollEnd where
  frt : Frt
  value : Value
  deriving DecidableEq, Repr

/-- Go on with `k` after a turn that does not end the operation. -/
def Turn.andThen (t : Turn) (k : Frt → PollEnd) : PollEnd :=
  match t with
  | .goOn f => k f
  | .done f v => { frt := f, value := v }

/-- The end of an operation whose next turn always ends it. -/
def Turn.finish (t : Turn) : PollEnd := t.andThen (fun f => { frt := f, value := 0 })

/-- A POLL from stage Failure. -/
def pollFailure (f : Frt) : PollEnd := (stageFailure f).finish

/-- A POLL from stage Checksum. -/
def pollChecksum (f : Frt) : PollEnd := (stageChecksum f).finish

/-- After a stage that may fail: Failure, or the next stage. -/
def orFailure (k : Frt → PollEnd) (f : Frt) : PollEnd := if f.stage = .failure then pollFailure f else k f

/-- A POLL from stage Payload. -/
def pollPayload (c : Config) (f : Frt) : PollEnd := (stagePayload c f).andThen (orFailure pollChecksum)

/-- A POLL from stage Header. -/
def pollHeader (c : Config) (f : Frt) : PollEnd := (stageHeader c f).andThen (pollPayload c)

/-- A POLL from stage ApiId. -/
def pollApiId (c : Config) (f : Frt) : PollEnd := (stageApiId c f).andThen (orFailure (pollHeader c))

/-- A POLL from stage Length. -/
def pollLength (c : Config) (f : Frt) : PollEnd := (stageLength c f).andThen (orFailure (pollApiId c))

/-- A POLL from stage AwaitStart with `queue` in the receive queue: bytes that are no start marker are discarded. -/
def pollAwaitStart (c : Config) (queue : List Byte) (f : Frt) : PollEnd :=
  match queue with
  | [] => { frt := { f with rxfifo := [] }, value := 0 }
  | b :: rest =>
    if b = flagByteValue then
      pollLength c { f with rxfifo := rest, sum := 0, result := .none, stage := .length }
    else pollAwaitStart c rest f

/-- One POLL (43 R263), from any stage. -/
def poll (c : Config) (f : Frt) : PollEnd :=
  match f.stage with
  | .awaitStart => pollAwaitStart c f.rxfifo f
  | .length => pollLength c f
  | .apiId => pollApiId c f
  | .header => pollHeader c f
  | .payload => pollPayload c f
  | .checksum => pollChecksum f
  | .failure => pollFailure f

/-- FRT.POLL (43 R263). -/
def execFrtPoll (s : State) : Host.Outcome State Fault Refusal :=
  .next (answer (poll s.cfg s.frt).value { s with frt := (poll s.cfg s.frt).frt })

/-! ## Feeding and reading the decoder -/

/-- The answer that says `n` bytes are queued (43 R262); where 16 bits do not hold the number no rule gives the value, and
it is free (DESIGN CHOICE, notes/assumptions/11.md). -/
def queueAnswer (n : Nat) : Value := if n < 65536 then BitVec.ofNat 16 n else Config.freeLength n

/-- FRT.RXB b (43 R262): a byte that finds the queue full is dropped, CAP and RXOVR. -/
def execFrtRxb (x : BitVec 8) (s : State) : Host.Outcome State Fault Refusal :=
  .next (if s.frt.rxfifo.length = s.cfg.rxDepth then
      raise .cap { s with sys := { s.sys with err := s.sys.err ||| rxovrBit } }
    else answer (queueAnswer (s.frt.rxfifo.length + 1)) { s with frt := { s.frt with rxfifo := s.frt.rxfifo ++ [x] } })

/-- The value of a register of space FHDR (43 R272). -/
def readFhdr (r : FhdrReg) (s : State) : Value :=
  match r with
  | .result => s.frt.result.code
  | .len => s.frt.len
  | .api => byteValue s.frt.api
  | .paylen => s.frt.paylen.setWidth 16
  | .cks => byteValue s.frt.cks
  | .src i => byteValue (load .frtSrc i s)
  | .extra i => byteValue (load .frtExtra i s)

/-- FRT.RFRM a (43 R272). -/
def execFrtRfrm (a : BitVec 8) (s : State) : Host.Outcome State Fault Refusal :=
  .next (match fhdrReg s.cfg a.toNat with
    | some r => answer (readFhdr r s) s
    | none => raise .range s)

/-- FRT.RPAY i (43 R273). -/
def execFrtRpay (i : BitVec 8) (s : State) : Host.Outcome State Fault Refusal :=
  .next (if i.toNat ≥ s.cfg.payloadCap then raise .range s
    else answer (byteValue (load .frtPayload i.toNat s)) s)

/-- FRT.RSTG (43 R279). -/
def execFrtRstg (s : State) : Host.Outcome State Fault Refusal := .next (answer s.frt.stage.code s)

/-- FRT.RST (43 R280): the decoder half and the queue. -/
def execFrtRst (s : State) : Host.Outcome State Fault Refusal :=
  .next (answer 0 { s with frt := { s.frt with
    stage := .awaitStart, sum := 0, len := 0, api := 0, paylen := 0, cks := 0, result := .none, rxfifo := [] } })

/-! ## The encoder -/

/-- FRT.WDST i, b (43 R274): byte 0 is the least significant. -/
def execFrtWdst (i : BitVec 8) (x : BitVec 8) (s : State) : Host.Outcome State Fault Refusal :=
  .next (if i.toNat ≥ s.cfg.dstW then raise .range s
    else answer 0 { s with frt := { s.frt with dst := setByteAt s.frt.dst i.toNat x } })

/-- FRT.WOPT b (43 R275). -/
def execFrtWopt (x : BitVec 8) (s : State) : Host.Outcome State Fault Refusal :=
  .next (answer 0 { s with frt := { s.frt with opt := x } })

/-- FRT.WPAY i, b (43 R276). -/
def execFrtWpay (i : BitVec 8) (x : BitVec 8) (s : State) : Host.Outcome State Fault Refusal :=
  .next (if i.toNat ≥ s.cfg.payloadCap then raise .range s else answer 0 (store .frtTx i.toNat x s))

/-- The declared length of a transmitted frame with `n` payload bytes (30 R119). -/
def sendLength (c : Config) (n : Nat) : BitVec 16 := BitVec.ofNat 16 (3 + c.dstW + c.txMid.length + n)

/-- The bytes of a transmitted frame that its checksum covers (30 R119): identifier, the byte after it, destination
most significant byte first, constant bytes, options, payload. -/
def sendBody (n : Nat) (s : State) : List Byte :=
  [s.cfg.txApi, s.cfg.txFid] ++ (List.range s.cfg.dstW).reverse.map (byteAt s.frt.dst) ++ s.cfg.txMid ++ [s.frt.opt]
    ++ loadMany .frtTx 0 n s

/-- The bytes of a transmitted frame (30 R119, 43 R277). -/
def sendFrame (n : Nat) (s : State) : List Byte :=
  let len := sendLength s.cfg n
  [flagByteValue, highByte len, lowByte len] ++ sendBody n s ++ [checksumOf (sumBytes 0 (sendBody n s))]

/-- FRT.SEND S (43 R277): the whole frame in one step. -/
def execFrtSend (n : BitVec 9) (s : State) : Host.Outcome State Fault Refusal :=
  .next (if n.toNat > s.cfg.payloadCap then raise .cap s
    else answer (sendLength s.cfg n.toNat)
      { s with frt := { s.frt with txlog := s.frt.txlog ++ sendFrame n.toNat s } })

end Sys2Proof.Machine
end

