-- ==== Sys2Proof/Machine/Mice.lean ====
section
/-! DEFINITION. Unit MICE, the Mic-E position encoder (spec 41). -/

namespace Sys2Proof.Machine

/-- MIN holds bytes 0x00..0x12 (10 R26). -/
def minLast : Nat := 0x12

/-- The inputs of MICE.ENC, read whole from MIN (41 R182, 10 R26). -/
structure Fix where
  lat : Int
  lon : Int
  alt : Int
  spd : Nat
  crs : Nat
  sym : Byte
  tab : Byte
  flags : Byte
  deriving DecidableEq, Repr

/-- The fix in the input registers, each register least significant byte first (41 R182). -/
def readFix (s : State) : Fix :=
  let m := fun a => load .micIn a s
  { lat := sint32le (m 0x00) (m 0x01) (m 0x02) (m 0x03)
    lon := sint32le (m 0x04) (m 0x05) (m 0x06) (m 0x07)
    alt := sint32le (m 0x08) (m 0x09) (m 0x0A) (m 0x0B)
    spd := uint16le (m 0x0C) (m 0x0D)
    crs := uint16le (m 0x0E) (m 0x0F)
    sym := m 0x10
    tab := m 0x11
    flags := m 0x12 }

/-- The range check of MICE.ENC (41 R182). -/
def fixInRange (f : Fix) : Bool :=
  f.lat.natAbs ≤ 539999 && f.lon.natAbs ≤ 1079999 && f.spd ≤ 799 && f.crs ≤ 360
    && 0 ≤ f.alt + 10000 && f.alt + 10000 ≤ 753570

/-! ## Decomposition (41 R183), of an absolute value in hundredths of a minute -/

/-- Whole degrees. -/
def degOf (v : Nat) : Nat := v / 6000
/-- Whole minutes of the degree. -/
def minOf (v : Nat) : Nat := (v % 6000) / 100
/-- Hundredths of the minute. -/
def hunOf (v : Nat) : Nat := v % 100

/-- The six latitude digits `d[0..5]` (41 R183). -/
def latDigits (f : Fix) : List Nat :=
  let la := f.lat.natAbs
  [degOf la / 10, degOf la % 10, minOf la / 10, minOf la % 10, hunOf la / 10, hunOf la % 10]

/-- The longitude offset flag (41 R184). -/
def lonOffset (londeg : Nat) : Bool := londeg < 10 || 100 ≤ londeg

/-- The six flags `g[0..5]` of the destination digits (41 R184). -/
def destFlags (f : Fix) : List Bool :=
  [f.flags.getLsbD 3, f.flags.getLsbD 2, f.flags.getLsbD 1, 0 ≤ f.lat, lonOffset (degOf f.lon.natAbs), f.lon < 0]

/-- One destination character from a digit and its flag (41 R185). -/
def destChar (d : Nat) (g : Bool) : Byte := BitVec.ofNat 8 (0x30 + d + if g then 0x20 else 0)

/-- `mice.dest[0..6]` (41 R185): six characters and the SSID character. -/
def destString (f : Fix) : List Byte := List.zipWith destChar (latDigits f) (destFlags f) ++ [0x30]

/-- The current-data character (41 R186). -/
def currentChar (f : Fix) : Byte := if f.flags.getLsbD 0 then 0x60 else 0x27

/-- The longitude degrees character (41 R187). -/
def lonDegChar (d : Nat) : Byte :=
  BitVec.ofNat 8 (if d < 10 then d + 118 else if d < 100 then d + 28 else if d < 110 then d + 8 else d - 72)

/-- The longitude minutes character (41 R188). -/
def lonMinChar (m : Nat) : Byte := BitVec.ofNat 8 (if m < 10 then m + 88 else m + 28)

/-- The longitude hundredths character (41 R189). -/
def lonHunChar (h : Nat) : Byte := BitVec.ofNat 8 (h + 28)

/-- The default speed and course encoder (41 R192). -/
def standardSc (spd crs : Nat) : List Byte :=
  let c := crs + 400
  [BitVec.ofNat 8 (spd / 10 + if spd < 200 then 108 else 28),
   BitVec.ofNat 8 ((spd % 10) * 10 + c / 100 + 28),
   BitVec.ofNat 8 (c % 100 + 28)]

/-- `MICE_SC` (41 R191): the default, or `L_SC` free bytes that depend on speed and course alone
(DESIGN CHOICE, notes/assumptions/6.md). -/
def speedCourse (c : Config) (spd crs : Nat) : List Byte :=
  match c.miceSc with
  | .standard => standardSc spd crs
  | .platform => (List.range c.lSc).map (Config.platformSc c.lSc spd crs)

/-- The three altitude characters (41 R194), base 91, most significant first. -/
def altChars (alt : Int) : List Byte :=
  let v := (alt + 10000).toNat
  [BitVec.ofNat 8 (v / 8281 + 33), BitVec.ofNat 8 (v / 91 % 91 + 33), BitVec.ofNat 8 (v % 91 + 33)]

/-- `mice.info[0..infolen-1]` (41 R182, R186 to R195). -/
def infoString (c : Config) (f : Fix) : List Byte :=
  let lo := f.lon.natAbs
  [currentChar f, lonDegChar (degOf lo), lonMinChar (minOf lo), lonHunChar (hunOf lo)]
    ++ speedCourse c f.spd f.crs ++ [f.sym, f.tab] ++ altChars f.alt ++ (if c.altTerm then [0x7D] else [])

/-- `mice.infolen` of a successful encoding: `9 + L_SC + ALT_TERM` (41 R195). -/
def infoLength (c : Config) : BitVec 4 := BitVec.ofNat 4 (9 + c.lSc + c.altTerm.toNat)

/-- The answer that reports `mice.infolen`. -/
def lengthValue (n : BitVec 4) : Value := n.setWidth 16

/-! ## Operations -/

/-- MICE.WIN a, b (41 R181). -/
def execMiceWin (a : BitVec 8) (x : BitVec 8) (s : State) : Host.Outcome State Fault Refusal :=
  .next (if a.toNat > minLast then raise .range s else answer 0 (store .micIn a.toNat x s))

/-- MICE.ENC (41 R182). -/
def execMiceEnc (s : State) : Host.Outcome State Fault Refusal :=
  let f := readFix s
  .next (if fixInRange f then
      let t := storeMany .micInfo 0 (infoString s.cfg f) (storeMany .micDest 0 (destString f) s)
      answer (lengthValue (infoLength s.cfg))
        { t with mice := { t.mice with infolen := infoLength s.cfg, ok := true } }
    else raise .range s)

/-- MICE.PUT (41 R196). -/
def execMicePut (s : State) : Host.Outcome State Fault Refusal :=
  .next (if s.mice.ok then
      let t := storeMany .addr (slotAddr 0 0) (loadMany .micDest 0 7 s) s
      let t := storeMany .msg 0 (loadMany .micInfo 0 s.mice.infolen.toNat s) t
      answer (lengthValue s.mice.infolen) { t with bsf := { t.bsf with msglen := s.mice.infolen.setWidth 9 } }
    else raise .busy s)

/-- MICE.ROUT a (41 R197). -/
def execMiceRout (a : BitVec 8) (s : State) : Host.Outcome State Fault Refusal :=
  .next (if a.toNat = 7 ∨ a.toNat > 20 then raise .range s
    else if a.toNat ≤ 6 then answer (byteValue (load .micDest a.toNat s)) s
    else answer (byteValue (load .micInfo (a.toNat - 8) s)) s)

/-- MICE.RIN a (41 R198). -/
def execMiceRin (a : BitVec 8) (s : State) : Host.Outcome State Fault Refusal :=
  .next (if a.toNat > minLast then raise .range s else answer (byteValue (load .micIn a.toNat s)) s)

end Sys2Proof.Machine
end

