-- ==== Sys2Proof/Machine/SysUnit.lean ====
section
/-! DEFINITION. Unit SYS, housekeeping (spec 45). -/

namespace Sys2Proof.Machine

/-- SYS.NOP (45 R340). -/
def execSysNop (s : State) : Host.Outcome State Fault Refusal := .next (answer 0 s)

/-- SYS.RESET (45 R341): every register at its reset value, every cell unspecified anew. The configuration is constant
(70 R393), and the commands the agents have issued are not the core's to forget (DESIGN CHOICE, notes/assumptions/19.md). -/
def execSysReset (s : State) : Host.Outcome State Fault Refusal :=
  .next (answer 0 { State.resetWith s.cfg (s.epoch + 1) with inputs := s.inputs })

/-- SYS.RERR (45 R342). -/
def execSysRerr (s : State) : Host.Outcome State Fault Refusal := .next (answer (s.sys.err.setWidth 16) s)

/-- SYS.CLRERR m (45 R343). -/
def execSysClrerr (m : BitVec 6) (s : State) : Host.Outcome State Fault Refusal :=
  let err := s.sys.err &&& ~~~m
  .next (answer (err.setWidth 16) { s with sys := { s.sys with err := err } })

/-- SYS.ID (45 R344). -/
def execSysId (s : State) : Host.Outcome State Fault Refusal := .next (answer 0x4F53 s)

end Sys2Proof.Machine
end

