-- ==== Sys2Proof/Machine/Dispatch.lean ====
section
/-! DEFINITION. One arm per operation of the opcode table, each one call of its meaning. -/

namespace Sys2Proof.Machine

/-- The meaning of an operation, issued on the port that admits it. -/
def exec (i : Instr) (s : State) : Host.Outcome State Fault Refusal :=
  match i with
  | .bsfRst => Sys2Proof.Machine.execBsfRst s
  | .bsfSync => Sys2Proof.Machine.execBsfSync s
  | .bsfFlag => Sys2Proof.Machine.execBsfFlag s
  | .bsfByte b => Sys2Proof.Machine.execBsfByte b s
  | .bsfAddr slot last => Sys2Proof.Machine.execBsfAddr slot last s
  | .bsfFcs => Sys2Proof.Machine.execBsfFcs s
  | .bsfBuild => Sys2Proof.Machine.execBsfBuild s
  | .bsfWaddr slot k b => Sys2Proof.Machine.execBsfWaddr slot k b s
  | .bsfWmsg k b => Sys2Proof.Machine.execBsfWmsg k b s
  | .bsfSetlen n => Sys2Proof.Machine.execBsfSetlen n s
  | .bsfSetpath n => Sys2Proof.Machine.execBsfSetpath n s
  | .bsfRbit k => Sys2Proof.Machine.execBsfRbit k s
  | .bsfRlen => Sys2Proof.Machine.execBsfRlen s
  | .bsfRcrc => Sys2Proof.Machine.execBsfRcrc s
  | .bsfRaddr slot k => Sys2Proof.Machine.execBsfRaddr slot k s
  | .bsfRmsg k => Sys2Proof.Machine.execBsfRmsg k s
  | .miceWin a b => Sys2Proof.Machine.execMiceWin a b s
  | .miceEnc => Sys2Proof.Machine.execMiceEnc s
  | .micePut => Sys2Proof.Machine.execMicePut s
  | .miceRout a => Sys2Proof.Machine.execMiceRout a s
  | .miceRin a => Sys2Proof.Machine.execMiceRin a s
  | .afskTx => Sys2Proof.Machine.execAfskTx s
  | .afskEnd => Sys2Proof.Machine.execAfskEnd s
  | .afskStat => Sys2Proof.Machine.execAfskStat s
  | .afskTime => Sys2Proof.Machine.execAfskTime s
  | .afskRout sel => Sys2Proof.Machine.execAfskRout sel s
  | .afskTick => Sys2Proof.Machine.execAfskTick s
  | .frtPoll => Sys2Proof.Machine.execFrtPoll s
  | .frtRfrm a => Sys2Proof.Machine.execFrtRfrm a s
  | .frtWdst k b => Sys2Proof.Machine.execFrtWdst k b s
  | .frtWopt b => Sys2Proof.Machine.execFrtWopt b s
  | .frtWpay k b => Sys2Proof.Machine.execFrtWpay k b s
  | .frtSend n => Sys2Proof.Machine.execFrtSend n s
  | .frtRstg => Sys2Proof.Machine.execFrtRstg s
  | .frtRst => Sys2Proof.Machine.execFrtRst s
  | .frtRpay k => Sys2Proof.Machine.execFrtRpay k s
  | .frtRxb b => Sys2Proof.Machine.execFrtRxb b s
  | .cpfPush b => Sys2Proof.Machine.execCpfPush b s
  | .cpfRsize => Sys2Proof.Machine.execCpfRsize s
  | .cpfRbuf k => Sys2Proof.Machine.execCpfRbuf k s
  | .cpfWpay k b => Sys2Proof.Machine.execCpfWpay k b s
  | .cpfEnc n => Sys2Proof.Machine.execCpfEnc n s
  | .cpfRst => Sys2Proof.Machine.execCpfRst s
  | .cpfRstg => Sys2Proof.Machine.execCpfRstg s
  | .sysNop => Sys2Proof.Machine.execSysNop s
  | .sysReset => Sys2Proof.Machine.execSysReset s
  | .sysRerr => Sys2Proof.Machine.execSysRerr s
  | .sysClrerr m => Sys2Proof.Machine.execSysClrerr m s
  | .sysId => Sys2Proof.Machine.execSysId s

end Sys2Proof.Machine
end

