-- ==== Sys2Proof/Machine/Issue.lean ====
section
/-! DEFINITION. What the machine does with one command word on one port (spec 30 R102, R111). -/

namespace Sys2Proof.Machine

/-- A command word on a port: a defined operation on the port that admits it runs; any other word is reserved and
raises ILLEGAL, which changes nothing else (30 R102, R111). -/
def issue (c : Command) (s : State) : Host.Outcome State Fault Refusal :=
  match decode c.word with
  | .ok i => if i.port = c.port then exec i s else .next (raise .illegal s)
  | .error _ => .next (raise .illegal s)

/-- The command that presents a word on the port that admits the operation it decodes to; a reserved word is
presented on HOST. -/
def admittedCommand (w : CmdWord) : Command :=
  match decode w with
  | .ok i => { port := i.port, word := w }
  | .error _ => { port := .host, word := w }

/-- The command word of `nbits` bits `w`, every bit above them 0 (20 R72: the word is one value). -/
def tableWord (nbits w : Nat) : CmdWord := BitVec.ofNat 24 (w % 2 ^ nbits)

end Sys2Proof.Machine
end

