-- ==== Sys2Proof/Machine/Step.lean ====
section
/-! DEFINITION. One step of the machine: the oldest command the agents have issued (spec 20 R78, 30 R100). -/

namespace Sys2Proof.Machine

/-- One step: the oldest issued command is taken and carried out, whole (20 R78). When the agents have issued nothing,
nothing happens (20 R83; DESIGN CHOICE, notes/assumptions/1.md). -/
def step (s : State) : Host.Outcome State Fault Refusal :=
  match s.inputs with
  | [] => .next s
  | c :: rest => issue c { s with inputs := rest }

/-- `s` with the command word `w` issued next, before whatever else is waiting, on the port that admits its operation
(DESIGN CHOICE, notes/assumptions/1.md): an agent's act, which is how a command comes to the machine. -/
def State.withFetchWord (s : State) (nbits w : Nat) : State :=
  { s with inputs := admittedCommand (tableWord nbits w) :: s.inputs }

end Sys2Proof.Machine
end

