-- ==== Sys2Proof/WellFormed.lean ====
section
/-! DEFINITION. When a configuration record is well formed (spec 70 R393).

An operation of `Instr` has nothing left to check: each operand field has the width of its form (30 R103), every
value of which the decoder accepts; what an operation does with a value out of range is a status, not a malformed
instruction. The port an operation may arrive on is `Instr.port` of Sys2Proof/Decode.lean. -/

namespace Sys2Proof

/-- The number of data bits of the longest frame BSF.BUILD can make (92 D8). -/
def Config.worstDataBits (c : Config) : Nat := 8 * (7 * (2 + c.maxPath) + 2 + 256 + 2)

/-- `MAXPATH <= 15`, the width of `bsf.pathcount` (30 R104, 70 R393). The lower bound is left open: 93 G1 gives the
parameter as 1..15, the two rules only an upper bound, and the model admits 0, a core with no path slot (DESIGN CHOICE,
notes/assumptions/20.md). -/
def Config.pathOk (c : Config) : Bool := c.maxPath ≤ 15

/-- The bit memory holds every frame BSF.BUILD can make, and its length fits 16 bits (92 D8). -/
def Config.bitCapOk (c : Config) : Bool :=
  8 * (c.nSync + c.nPreflag + c.nPostflag) + c.worstDataBits + c.worstDataBits / 5 ≤ c.bitCap && c.bitCap ≤ 65535

/-- The two sample periods are positive, at most a bit period of 833 microseconds, and distinct (42 R223). -/
def Config.toneOk (c : Config) : Bool :=
  0 < c.tMark && c.tMark ≤ 833 && 0 < c.tSpace && c.tSpace ≤ 833 && c.tMark ≠ c.tSpace

/-- The tone output has at most 16 bits and every sample fits it (70 R393). -/
def Config.sineOk (c : Config) : Bool := c.res ≤ 16 && c.sine.toList.all (fun v => v.toNat < 2 ^ c.res)

/-- The Mic-E information field has 12 or 13 characters, its speed and course field two or three (41 R190). -/
def Config.miceOk (c : Config) : Bool :=
  (c.lSc = 2 || c.lSc = 3) && (9 + c.lSc + c.altTerm.toNat = 12 || 9 + c.lSc + c.altTerm.toNat = 13)

/-- The default speed and course encoder is the one for three characters (41 R192). -/
def Config.speedCourseOk (c : Config) : Bool := c.miceSc ≠ .standard || c.lSc = 3

/-- The field widths of the radio variant record (43 R261). -/
def Config.variantOk (c : Config) : Bool :=
  c.srcW ≤ 8 && c.extraW ≤ 8 && 1 ≤ c.dstW && c.dstW ≤ 8 && c.txMid.length ≤ 8

/-- The payload capacity fits an index field (30 R107). -/
def Config.payloadOk (c : Config) : Bool := 1 ≤ c.payloadCap && c.payloadCap ≤ 256

/-- The receive queue can hold what a decoder stage waits for (43 R261). -/
def Config.rxDepthOk (c : Config) : Bool :=
  2 ≤ c.rxDepth && c.srcW + c.extraW ≤ c.rxDepth && c.payloadCap ≤ c.rxDepth

/-- The configuration record is well formed: all constraints of 70 R393. -/
def Config.wf (c : Config) : Bool :=
  c.pathOk && c.bitCapOk && c.toneOk && c.sineOk && c.miceOk && c.speedCourseOk && c.variantOk && c.payloadOk && c.rxDepthOk

end Sys2Proof
end

