-- ==== Sys2Proof/Safety.lean ====
section
/-! DEFINITION. What the statements about the machine are said in: the invariant of the link core, the bit sequence and
its stuffing as lists, what an operation may write, runs of operations, and a received radio frame. -/

namespace Sys2Proof.Machine

/-! ## The invariant: what holds of every register and memory between two steps -/

/-- Unit BSF: bit length and capacity (10 R22, 40 R141), run length (40 R142), operands (10 R24, R25). -/
structure BsfInv (c : Config) (b : Bsf) : Prop where
  bits_canonical : cellsWf b.bits = true
  bits_within : cellsWithin (fun k => decide (k < c.bitCap)) b.bits = true
  sequence_written : ∀ k, k < b.bitlen.toNat → (cellGet b.bits k).isSome = true
  bitlen_le : b.bitlen.toNat ≤ c.bitCap
  ones_le : b.ones.toNat ≤ 4
  overflow_is_full : b.ovf = true → b.bitlen.toNat = c.bitCap
  addr_canonical : cellsWf b.addr = true
  addr_within : cellsWithin (fun k => decide (k / 8 ≤ 1 + c.maxPath) && decide (k % 8 ≠ 7)) b.addr = true
  msg_canonical : cellsWf b.msg = true
  msg_within : cellsWithin (fun k => decide (k < 256)) b.msg = true
  msglen_le : b.msglen.toNat ≤ 256
  pathcount_le : b.pathcount.toNat ≤ c.maxPath

/-- Unit MICE (10 R26, R27): the outputs are there, of the configured length, exactly when `mice.ok`. -/
structure MiceInv (c : Config) (m : Mice) : Prop where
  input_canonical : cellsWf m.input = true
  input_within : cellsWithin (fun k => decide (k ≤ 0x12)) m.input = true
  dest_canonical : cellsWf m.dest = true
  dest_within : cellsWithin (fun k => decide (k < 7)) m.dest = true
  info_canonical : cellsWf m.info = true
  info_within : cellsWithin (fun k => decide (k < 13)) m.info = true
  infolen_of_ok : m.ok = true → m.infolen.toNat = 9 + c.lSc + c.altTerm.toNat
  infolen_of_not_ok : m.ok = false → m.infolen.toNat = 0
  dest_written : m.ok = true → ∀ k, k < 7 → (cellGet m.dest k).isSome = true
  info_written : m.ok = true → ∀ k, k < m.infolen.toNat → (cellGet m.info k).isSome = true

/-- Unit AFSK (10 R28 to R30, 42 R223, R231). -/
structure AfskInv (c : Config) (b : Bsf) (a : Afsk) : Prop where
  elapsed_lt : a.elapsed.toNat < 833
  dac_lt : a.dac.toNat < 2 ^ c.res
  idle_index : a.state = .idle → a.sidx = 0
  idle_elapsed : a.state = .idle → a.elapsed = 0
  idle_ptt : a.state = .idle → a.ptt = false
  transmitting_ptt : a.state = .transmitting → a.ptt = c.pttEn
  transmitting_bitpos : a.state = .transmitting → a.bitpos.toNat ≤ b.bitlen.toNat
  transmitting_whole : a.state = .transmitting → b.ovf = false

/-- A radio frame is being received: its start marker has been taken and no verdict given. -/
def FrtStage.inFrame (g : FrtStage) : Bool :=
  match g with
  | .awaitStart => false
  | .length => true
  | .apiId => true
  | .header => true
  | .payload => true
  | .checksum => true
  | .failure => false

/-- The length of the frame being received has been read and accepted. -/
def FrtStage.pastLength (g : FrtStage) : Bool :=
  match g with
  | .awaitStart => false
  | .length => false
  | .apiId => true
  | .header => true
  | .payload => true
  | .checksum => true
  | .failure => false

/-- The identifier of the frame being received has been read and accepted. -/
def FrtStage.pastApiId (g : FrtStage) : Bool :=
  match g with
  | .awaitStart => false
  | .length => false
  | .apiId => false
  | .header => true
  | .payload => true
  | .checksum => true
  | .failure => false

/-- Unit FRT (10 R33 to R37, 43 R265 to R270). -/
structure FrtInv (c : Config) (f : Frt) : Prop where
  no_failure : f.stage ≠ .failure
  fifo_le : f.rxfifo.length ≤ c.rxDepth
  paylen_le : f.paylen.toNat ≤ c.payloadCap
  dst_lt : f.dst.toNat < 256 ^ c.dstW
  src_canonical : cellsWf f.src = true
  src_within : cellsWithin (fun k => decide (k < c.srcW)) f.src = true
  extra_canonical : cellsWf f.extra = true
  extra_within : cellsWithin (fun k => decide (k < c.extraW)) f.extra = true
  payload_canonical : cellsWf f.payload = true
  payload_within : cellsWithin (fun k => decide (k < c.payloadCap)) f.payload = true
  txbuf_canonical : cellsWf f.txbuf = true
  txbuf_within : cellsWithin (fun k => decide (k < c.payloadCap)) f.txbuf = true
  no_verdict_yet : f.stage.inFrame = true → f.result = .none
  length_accepted : f.stage.pastLength = true → 1 + c.srcW + c.extraW ≤ f.len.toNat
  api_accepted : f.stage.pastApiId = true → f.api = c.rxApi
  payload_read : f.stage = .checksum → f.len.toNat = 1 + c.srcW + c.extraW + f.paylen.toNat

/-- Unit CPF (10 R38 to R40, 44 R311 to R315, R317). -/
structure CpfInv (c : Config) (p : Cpf) : Prop where
  size_le : p.size.toNat ≤ 32
  data_count : p.stage = .data → p.count.toNat < p.size.toNat
  integrity_count : p.stage = .integrity → 1 ≤ p.size.toNat ∧ p.count = p.size
  icnt_elsewhere : p.stage ≠ .integrity → p.icnt = 0
  icnt_xor : c.cpfVariant = .xor → p.icnt = 0
  chk_crc32 : c.cpfVariant = .crc32 → p.chk = 0
  valid_stage : p.valid = true → p.stage = .awaitSize
  buf_canonical : cellsWf p.buf = true
  buf_within : cellsWithin (fun k => decide (k < 36)) p.buf = true
  txbuf_canonical : cellsWf p.txbuf = true
  txbuf_within : cellsWithin (fun k => decide (k < 32)) p.txbuf = true

/-- The invariant of the machine, over a well-formed configuration (70 R393): every unit's, and a response that is no
OK carries value 0 (30 R101). -/
structure Inv (s : State) : Prop where
  cfg : s.cfg.wf = true
  bsf : BsfInv s.cfg s.bsf
  mice : MiceInv s.cfg s.mice
  afsk : AfskInv s.cfg s.bsf s.afsk
  frt : FrtInv s.cfg s.frt
  cpf : CpfInv s.cfg s.cpf
  refusal_value : s.resp.status ≠ .ok → s.resp.value = 0

/-! ## Reset -/

/-- The reset values of 10 R44, register by register; a memory cell is unspecified when nothing has written it. -/
structure ResetValues (s : State) : Prop where
  bitlen : s.bsf.bitlen = 0
  ones : s.bsf.ones = 0
  ovf : s.bsf.ovf = false
  msglen : s.bsf.msglen = 0
  pathcount : s.bsf.pathcount = 0
  crc : s.bsf.crc = 0xFFFF
  bits : ∀ k, cellGet s.bsf.bits k = none
  mice_ok : s.mice.ok = false
  infolen : s.mice.infolen = 0
  afsk_state : s.afsk.state = .idle
  tone : s.afsk.tone = .mark
  sidx : s.afsk.sidx = 0
  elapsed : s.afsk.elapsed = 0
  bitpos : s.afsk.bitpos = 0
  dac : s.afsk.dac = 0
  ptt : s.afsk.ptt = false
  frt_stage : s.frt.stage = .awaitStart
  sum : s.frt.sum = 0
  len : s.frt.len = 0
  api : s.frt.api = 0
  paylen : s.frt.paylen = 0
  cks : s.frt.cks = 0
  dst : s.frt.dst = 0
  opt : s.frt.opt = 0
  result : s.frt.result = .none
  rxfifo : s.frt.rxfifo = []
  frt_txlog : s.frt.txlog = []
  cpf_txlog : s.cpf.txlog = []
  cpf_stage : s.cpf.stage = .awaitSize
  size : s.cpf.size = 0
  count : s.cpf.count = 0
  icnt : s.cpf.icnt = 0
  chk : s.cpf.chk = 0
  valid : s.cpf.valid = false
  err : s.sys.err = 0
  cells : ∀ sp a, cellGet (s.cells sp) a = none

/-! ## Command words -/

/-- The operations of the tables, by unit and operation number (30 R104 to R109). -/
def tableHas (u o : Nat) : Bool :=
  (u == 0) || (u == 1 && o ≤ 4) || (u == 2 && (o ≤ 4 || o == 15)) || (u == 3 && (o ≤ 8 || o == 15))
    || (u == 4 && o ≤ 6) || (u == 15 && o ≤ 4)

/-- What a port admits (30 R102): TIMER only AFSK.TICK, STREAM only FRT.RXB, HOST everything else. -/
def portAdmits (p : Port) (u o : Nat) : Bool :=
  match p with
  | .timer => u == 2 && o == 15
  | .stream => u == 3 && o == 15
  | .host => !(u == 2 && o == 15) && !(u == 3 && o == 15)

/-- Every word of unit `u` and operation `o` is the operation `f a b` of its two operand fields, admitted on port
`p`. -/
def commandIs (p : Port) (u o : BitVec 4) (f : Byte → Byte → Instr) : Prop :=
  ∀ a b : Byte, decode (cmdWord u o a b) = .ok (f a b) ∧ (f a b).port = p

/-! ## Runs -/

/-- The state after operations issued one after the other. -/
def runOps (is : List Instr) (s : State) : Option State :=
  match is with
  | [] => some s
  | i :: is =>
    match exec i s with
    | .next t => runOps is t
    | .fault _ => none
    | .refused _ => none

/-- The state after `n` ticks. -/
def ticks (n : Nat) (s : State) : Option State := runOps (List.replicate n .afskTick) s

/-- How often the tone changes during `n` ticks. -/
def toneChanges (n : Nat) (s : State) : Nat :=
  match n with
  | 0 => 0
  | n + 1 =>
    match exec .afskTick s with
    | .next t => (if t.afsk.tone = s.afsk.tone then 0 else 1) + toneChanges n t
    | .fault _ => 0
    | .refused _ => 0

/-! ## What may be written -/

/-- The operations that append to the bit sequence (40 R140; BSF.RST, which only resets it, is not among them). -/
def appendsBits (i : Instr) : Bool :=
  match i with
  | .bsfSync => true
  | .bsfFlag => true
  | .bsfByte _ => true
  | .bsfAddr _ _ => true
  | .bsfFcs => true
  | .bsfBuild => true
  | _ => false

/-- The byte cells an operation may write in a state (20 R70, R75): the ones its rule names. -/
def mayWrite (i : Instr) (s : State) (sp : Space) (a : Nat) : Prop :=
  match i with
  | .bsfWaddr slot k _ => sp = .addr ∧ a = 8 * slot.toNat + k.toNat
  | .bsfWmsg k _ => sp = .msg ∧ a = k.toNat
  | .miceWin k _ => sp = .micIn ∧ a = k.toNat
  | .miceEnc => (sp = .micDest ∧ a < 7) ∨ (sp = .micInfo ∧ a < 9 + s.cfg.lSc + s.cfg.altTerm.toNat)
  | .micePut => (sp = .addr ∧ a < 7) ∨ (sp = .msg ∧ a < s.mice.infolen.toNat)
  | .frtPoll => (sp = .frtSrc ∧ a < s.cfg.srcW) ∨ (sp = .frtExtra ∧ a < s.cfg.extraW)
      ∨ (sp = .frtPayload ∧ a < s.cfg.payloadCap)
  | .frtWpay k _ => sp = .frtTx ∧ a = k.toNat
  | .cpfPush _ => sp = .cpfBuf ∧ ((s.cpf.stage = .data ∧ a = s.cpf.count.toNat)
      ∨ (s.cpf.stage = .integrity ∧ s.cfg.cpfVariant = .crc32 ∧ a = s.cpf.size.toNat + s.cpf.icnt.toNat))
  | .cpfWpay k _ => sp = .cpfTx ∧ a = k.toNat
  | .sysReset => True
  | _ => False

/-- The bit cells an operation may write: at and above the length it appends to, which BSF.BUILD first makes 0. -/
def mayWriteBit (i : Instr) (s : State) (k : Nat) : Prop :=
  match i with
  | .bsfBuild => k < s.cfg.bitCap
  | .sysReset => True
  | i => appendsBits i = true ∧ s.bsf.bitlen.toNat ≤ k ∧ k < s.cfg.bitCap

/-- The registers, flags, queues and logs of a state: the state with every memory blanked. -/
def registers (s : State) : State :=
  { s with
    bsf := { s.bsf with bits := [], addr := [], msg := [] }
    mice := { s.mice with input := [], dest := [], info := [] }
    frt := { s.frt with src := [], extra := [], payload := [], txbuf := [] }
    cpf := { s.cpf with buf := [], txbuf := [] } }

/-- `t` has every memory cell of `s` but for cell `a` of space `sp`, which holds `v`. -/
def WritesOneCell (sp : Space) (a : Nat) (v : Byte) (s t : State) : Prop :=
  load sp a t = v ∧ (∀ sp' a', ¬ (sp' = sp ∧ a' = a) → load sp' a' t = load sp' a' s)
    ∧ ∀ k, loadBit k t = loadBit k s

/-- The statuses an operation issued on its own port may answer beside OK (60 R361). -/
def mayAnswer (i : Instr) : List Status :=
  match i with
  | .bsfRst => [.busy]
  | .bsfSync => [.busy, .ovf]
  | .bsfFlag => [.busy, .ovf]
  | .bsfByte _ => [.busy, .ovf]
  | .bsfAddr _ _ => [.range, .busy, .ovf]
  | .bsfFcs => [.busy, .ovf]
  | .bsfBuild => [.busy, .ovf]
  | .bsfWaddr _ _ _ => [.range]
  | .bsfSetlen _ => [.range]
  | .bsfSetpath _ => [.range]
  | .bsfRbit _ => [.range]
  | .bsfRaddr _ _ => [.range]
  | .miceWin _ _ => [.range]
  | .miceEnc => [.range]
  | .micePut => [.busy]
  | .miceRout _ => [.range]
  | .miceRin _ => [.range]
  | .afskTx => [.busy, .ovf]
  | .afskRout _ => [.range]
  | .frtRfrm _ => [.range]
  | .frtWdst _ _ => [.range]
  | .frtWpay _ _ => [.range]
  | .frtSend _ => [.cap]
  | .frtRpay _ => [.range]
  | .frtRxb _ => [.cap]
  | .cpfRbuf _ => [.range]
  | .cpfWpay _ _ => [.range]
  | .cpfEnc _ => [.range]
  | _ => []

/-- The load operations (20 R75). -/
def isLoad (i : Instr) : Bool :=
  match i with
  | .bsfRbit _ => true
  | .bsfRlen => true
  | .bsfRcrc => true
  | .bsfRaddr _ _ => true
  | .bsfRmsg _ => true
  | .miceRin _ => true
  | .miceRout _ => true
  | .afskStat => true
  | .afskTime => true
  | .afskRout _ => true
  | .frtRfrm _ => true
  | .frtRpay _ => true
  | .frtRstg => true
  | .cpfRsize => true
  | .cpfRbuf _ => true
  | .cpfRstg => true
  | .sysRerr => true
  | .sysId => true
  | _ => false

/-- The units of the core (30 R100). -/
inductive CoreUnit where
  | bsf
  | mice
  | afsk
  | frt
  | cpf
  | sys
  deriving DecidableEq, Repr

/-- The unit of an operation: the unit field of its command word (30 R100). -/
def unitOf (i : Instr) : CoreUnit :=
  match (fieldUnit (encode i)).toNat with
  | 0 => .bsf
  | 1 => .mice
  | 2 => .afsk
  | 3 => .frt
  | 4 => .cpf
  | _ => .sys

/-! ## The bit sequence (10 R22) and the AX.25 bit frame (30 R113) -/

/-- The bit sequence: index 0 is the first bit transmitted. -/
def bitSequence (s : State) : List Bool := (List.range s.bsf.bitlen.toNat).map (fun k => loadBit k s)

/-- `bits(b0) ++ bits(b1) ++ ...`, each byte least significant bit first. -/
def bitsOf (xs : List Byte) : List Bool := xs.flatMap byteBits

/-- FLAGBITS -/
def flagBits : List Bool := [false, true, true, true, true, true, true, false]

/-- `stuff` of a bit list that follows a run of `n` ones: a 0 after every run of five. -/
def stuff (n : Nat) (v : List Bool) : List Bool :=
  match v with
  | [] => []
  | false :: v => false :: stuff 0 v
  | true :: v => if n = 4 then true :: false :: stuff 0 v else true :: stuff (n + 1) v

/-- The run of ones that a bit list leaves, stuffed, after a run of `n`. -/
def runAfter (n : Nat) (v : List Bool) : Nat :=
  match v with
  | [] => n
  | false :: v => runAfter 0 v
  | true :: v => if n = 4 then runAfter 0 v else runAfter (n + 1) v

/-- What a receiver does to undo `stuff`: after five ones it drops a bit. -/
def destuff (n : Nat) (v : List Bool) : List Bool :=
  match v with
  | [] => []
  | x :: v => if n = 5 then destuff 0 v else x :: destuff (if x then n + 1 else 0) v

/-- The frame check accumulator after a list of bits (30 R115). -/
def crcOver (c : BitVec 16) (v : List Bool) : BitVec 16 := v.foldl crcBit c

/-- `t` is `s` after appending `v`, which fitted, with the accumulator and the run length given and status OK. -/
def Appended (v : List Bool) (crc : BitVec 16) (ones : Nat) (value : Value) (s t : State) : Prop :=
  bitSequence t = bitSequence s ++ v
    ∧ t.bsf.bitlen.toNat = s.bsf.bitlen.toNat + v.length
    ∧ (∀ k, k < s.bsf.bitlen.toNat ∨ s.bsf.bitlen.toNat + v.length ≤ k → loadBit k t = loadBit k s)
    ∧ t = { s with
        bsf := { s.bsf with bits := t.bsf.bits, bitlen := t.bsf.bitlen, crc := crc, ones := BitVec.ofNat 3 ones }
        resp := { status := .ok, value := value } }

/-- `t` is `s` after appending as much of `v` as fitted, with the accumulator and the run length of all of it and status
OVF (40 R141). -/
def Truncated (v : List Bool) (crc : BitVec 16) (ones : Nat) (s t : State) : Prop :=
  bitSequence t = (bitSequence s ++ v).take s.cfg.bitCap
    ∧ t.bsf.bitlen.toNat = s.cfg.bitCap
    ∧ (∀ k, k < s.bsf.bitlen.toNat ∨ s.cfg.bitCap ≤ k → loadBit k t = loadBit k s)
    ∧ t = { s with
        bsf := { s.bsf with
          bits := t.bsf.bits, bitlen := t.bsf.bitlen, crc := crc, ones := BitVec.ofNat 3 ones, ovf := true }
        sys := { err := s.sys.err ||| 0b001000#6 }
        resp := { status := .ovf, value := 0 } }

/-- What an operation that sends `v` does while Idle: `v` fits and is appended, or it is truncated. -/
def SendsBits (i : Instr) (v : List Bool) (crc : BitVec 16) (ones : Nat) (value : Value) (s : State) : Prop :=
  (s.bsf.bitlen.toNat + v.length ≤ s.cfg.bitCap → ∃ t, exec i s = .next t ∧ Appended v crc ones value s t)
    ∧ (s.cfg.bitCap < s.bsf.bitlen.toNat + v.length → ∃ t, exec i s = .next t ∧ Truncated v crc ones s t)

/-! ## The radio decoder -/

/-- The loop of FRT.POLL (43 R263), at most `fuel` turns of it. -/
def pollLoop (fuel : Nat) (c : Config) (f : Frt) : Option PollEnd :=
  match fuel with
  | 0 => none
  | fuel + 1 =>
    match pollTurn c f with
    | .goOn g => pollLoop fuel c g
    | .done g v => some { frt := g, value := v }

/-- The bytes of a received radio frame that its checksum covers (30 R117). -/
def rxBody (c : Config) (src extra payload : List Byte) : List Byte := c.rxApi :: (src ++ extra ++ payload)

/-- A received radio frame (30 R117): marker, length, high byte first, body, checksum. -/
def rxFrame (c : Config) (src extra payload : List Byte) : List Byte :=
  let body := rxBody c src extra payload
  let total := (body.map BitVec.toNat).sum
  [0x7E#8, BitVec.ofNat 8 (body.length / 256), BitVec.ofNat 8 body.length] ++ body
    ++ [BitVec.ofNat 8 (255 - total % 256)]

/-- Bytes delivered one at a time, with a FRT.POLL after each. -/
def delivered (bytes : List Byte) : List Instr := bytes.flatMap (fun b => [.frtRxb b, .frtPoll])

end Sys2Proof.Machine
end

