-- ==== Sys2Proof/Certificates/Slice0/Obligations.lean ====
section
/-! DEFINITION. The statements about the link core, for the provers. `cmdWord u o a b` is the command word of unit `u`,
operation `o`, operand fields `a` and `b` (30 R100); `answer v s` is `s` answering OK with value `v`, and `raise st s`
is `s` refusing with status `st` (00 R9, 60 R360). -/

open Sys2Proof Sys2Proof.Machine

/-! ## Commands -/

/-- 20 R78, 30 R100 to R102. What step adds around exec: it takes the command from the queue of issued commands. With
nothing issued it changes nothing (the model's choice, notes/assumptions/1.md). -/
def Obligations.StepRunsTheDecodedCommand : Prop :=
  (∀ (s : State) (c : Command) (rest : List Command) (i : Instr),
    s.inputs = c :: rest → decode c.word = .ok i → i.port = c.port → step s = exec i { s with inputs := rest })
    ∧ ∀ s : State, s.inputs = [] → step s = .next s

/-- 30 R102, R111, R112: a word that the tables have, on a port that admits it, runs; any other is reserved and raises
ILLEGAL, which sets `sys.err` bit 0 and changes nothing else. -/
def Obligations.EveryWordRunsOrIsIllegal : Prop :=
  ∀ (s : State) (p : Port) (w : CmdWord) (rest : List Command), s.inputs = { port := p, word := w } :: rest →
    ((tableHas (w.toNat / 2 ^ 20) (w.toNat / 2 ^ 16 % 16) = true
        ∧ portAdmits p (w.toNat / 2 ^ 20) (w.toNat / 2 ^ 16 % 16) = true →
      ∃ i, decode w = .ok i ∧ i.port = p ∧ step s = exec i { s with inputs := rest })
    ∧ (¬ (tableHas (w.toNat / 2 ^ 20) (w.toNat / 2 ^ 16 % 16) = true
        ∧ portAdmits p (w.toNat / 2 ^ 20) (w.toNat / 2 ^ 16 % 16) = true) →
      step s = .next { s with
        inputs := rest
        sys := { err := s.sys.err ||| 0b000001#6 }
        resp := { status := .illegal, value := 0 } }))

/-- 30 R100 to R109, R118: decoding the word of an operation gives the operation, every operand at every value. -/
def Obligations.DecodeOfEncodeIsTheInstruction : Prop := ∀ i : Instr, decode (encode i) = .ok i

/-- 30 R100, R103: the word of what a word decodes to is that word with the bits its operation does not name cleared. -/
def Obligations.EncodeOfDecodeKeepsTheUsedBits : Prop :=
  ∀ (w : CmdWord) (i : Instr), decode w = .ok i → encode i = w &&& usedBits i

/-- 30 R100, R103: bits that an operation does not name have no effect. -/
def Obligations.UnnamedOperandBitsAreIgnored : Prop :=
  ∀ (w w' : CmdWord) (i : Instr), decode w = .ok i → w' &&& usedBits i = w &&& usedBits i → decode w' = .ok i

/-- 30 R103: the values of the operand forms. -/
def Obligations.OperandFormsReadTheirFields : Prop :=
  ∀ a b : Byte,
    (formAb16 a b).toNat = 256 * a.toNat + b.toNat
      ∧ (formLen9 a b).toNat = 256 * (a.toNat % 2) + b.toNat
      ∧ (formSlot a).toNat = a.toNat / 8
      ∧ (formIndex a).toNat = a.toNat % 8
      ∧ (formLast b = true ↔ b.toNat % 2 = 1)
      ∧ (formMask b).toNat = b.toNat % 64

/-- 30 R118, 40 R151, 45 R343: command words that the spec writes out, and what they stand for. -/
def Obligations.WordsOfTheSpecDecode : Prop :=
  decode 0x03007E = .ok (.bsfByte 0x7E) ∧ decode 0x070E31 = .ok (.bsfWaddr 1 6 0x31)
    ∧ decode 0x0B012C = .ok (.bsfRbit 300) ∧ decode 0x090100 = .ok (.bsfSetlen 256)
    ∧ decode 0x101209 = .ok (.miceWin 0x12 0x09) ∧ decode 0x2F0000 = .ok .afskTick
    ∧ decode 0x320169 = .ok (.frtWdst 1 0x69) ∧ decode 0x3F007E = .ok (.frtRxb 0x7E)
    ∧ decode 0x430010 = .ok (.cpfWpay 0 0x10) ∧ decode 0xF30002 = .ok (.sysClrerr 2)
    ∧ decode 0xF40000 = .ok .sysId

/-- 20 R78, 30 R118: presenting the word of an operation, before any other command, runs exactly that operation; the
presenting is the model's `withFetchWord` (notes/assumptions/1.md). -/
def Obligations.PresentedWordRunsItsInstruction : Prop :=
  ∀ (i : Instr) (s : State), step (s.withFetchWord 24 (encode i).toNat) = exec i s

/-- 20 R83: every operation answers in its own step, whatever the state. -/
def Obligations.EveryOperationAnswersInItsStep : Prop :=
  ∀ (i : Instr) (s : State), ∃ t, exec i s = .next t

/-! ## Reset, the invariant, and rules over all operations -/

/-- 10 R44, 45 R341: the state after power-on and after SYS.RESET, which is accepted in every state. -/
def Obligations.ResetGivesEveryRegisterItsValue : Prop :=
  commandIs .host 15 1 (fun _ _ => .sysReset)
    ∧ (∀ (c : Config) (epoch : Nat), ResetValues (State.resetWith c epoch))
    ∧ ∀ s : State, ∃ t, exec .sysReset s = .next t ∧ ResetValues t ∧ t.resp = { status := .ok, value := 0 }

/-- 70 R393 for the configuration; that the queue of issued commands survives and that the free values of unwritten
cells are chosen anew are the model's choices (notes/assumptions/4.md and 19.md). -/
def Obligations.SysResetKeepsConfigurationAndCommands : Prop :=
  ∀ s t : State, exec .sysReset s = .next t → t.cfg = s.cfg ∧ t.inputs = s.inputs ∧ t.epoch = s.epoch + 1

/-- The invariant of Sys2Proof/Safety.lean holds after reset, under every well-formed configuration. -/
def Obligations.InvariantHoldsAfterReset : Prop :=
  Inv State.reset ∧ ∀ (c : Config) (epoch : Nat), c.wf = true → Inv (State.resetWith c epoch)

/-- 10 R22 to R41, 20 R71, 42 R223, R231, 43 R263 to R270, 44 R311 to R317: every step keeps the invariant, on every
command word of every port. -/
def Obligations.InvariantKeptByEveryStep : Prop :=
  ∀ s t : State, Inv s → step s = .next t → Inv t

/-- 70 R393: none of the configuration record can be changed at run time. -/
def Obligations.ConfigurationNeverChanges : Prop :=
  ∀ s t : State, step s = .next t → t.cfg = s.cfg

/-- 60 R360, R366: a refused operation has value 0 and has changed nothing but its sticky bit, with the two exceptions
of R360: OVF keeps the bookkeeping in unit BSF, and CAP from FRT.RXB sets RXOVR as well. -/
def Obligations.RefusalsArePrecise : Prop :=
  ∀ (i : Instr) (s t : State), exec i s = .next t → t.resp.status ≠ .ok →
    t = { s with
        bsf := t.bsf
        sys := { err := s.sys.err ||| t.resp.status.sticky ||| (match i with
          | .frtRxb _ => 0b100000#6
          | _ => 0#6) }
        resp := { status := t.resp.status, value := 0 } }
      ∧ (¬ (appendsBits i = true ∧ t.resp.status = .ovf) → t.bsf = s.bsf)
      ∧ (appendsBits i = true ∧ t.resp.status = .ovf → t.bsf.ovf = true)

/-- 60 R361: the statuses an operation can answer, their codes and their sticky bits. -/
def Obligations.StatusesAreThoseOfTheTable : Prop :=
  (∀ (i : Instr) (s t : State), exec i s = .next t → t.resp.status = .ok ∨ t.resp.status ∈ mayAnswer i)
    ∧ [Status.ok, .illegal, .range, .busy, .ovf, .cap].map Status.code = [0, 1, 2, 3, 4, 5]
    ∧ [Status.ok, .illegal, .range, .busy, .ovf, .cap].map Status.sticky = [0, 1, 2, 4, 8, 16]

/-- 10 R41, 45 R343: an operation that answers OK sets no bit of `sys.err`, and only SYS.RESET and SYS.CLRERR clear
one. -/
def Obligations.StickyBitsChangeOnlyAsStated : Prop :=
  ∀ (i : Instr) (s t : State), exec i s = .next t → i ≠ .sysReset → (∀ m, i ≠ .sysClrerr m) →
    s.sys.err &&& t.sys.err = s.sys.err ∧ (t.resp.status = .ok → t.sys.err = s.sys.err)

/-- 20 R75: a load that is carried out changes nothing but the response, and the same load right after it, carried out
or refused, answers and leaves the same. -/
def Obligations.LoadsHaveNoSideEffect : Prop :=
  ∀ (i : Instr) (s t : State), isLoad i = true → exec i s = .next t →
    (t.resp.status = .ok → t = { s with resp := t.resp }) ∧ exec i t = .next t

/-- 70 R398, 20 R79: while Transmitting the operations that would write the bit sequence or its registers are refused
with BUSY (BSF.ADDR of a slot that does not exist with RANGE, 60 R362), and no operation but SYS.RESET changes the bit
memory, the length, the accumulator, the run length or the overflow flag. -/
def Obligations.BitSequenceIsReadOnlyDuringTransmission : Prop :=
  (∀ (i : Instr) (s : State), s.afsk.state = .transmitting →
      (i = .bsfRst ∨ appendsBits i = true ∧ ∀ slot last, i = .bsfAddr slot last → slot.toNat ≤ 1 + s.cfg.maxPath) →
      exec i s = .next (raise .busy s))
    ∧ ∀ (i : Instr) (s t : State), s.afsk.state = .transmitting → i ≠ .sysReset → exec i s = .next t →
      t.bsf.bits = s.bsf.bits ∧ t.bsf.bitlen = s.bsf.bitlen ∧ t.bsf.crc = s.bsf.crc ∧ t.bsf.ones = s.bsf.ones
        ∧ t.bsf.ovf = s.bsf.ovf

/-- 10 R21, 41 R196, 42 R231(e), 43 R260: a unit's operations write no other unit's state, but that MICE.PUT writes the
operand memories and the message length of BSF. -/
def Obligations.UnitsWriteOnlyTheirOwnState : Prop :=
  ∀ (i : Instr) (s t : State), exec i s = .next t → i ≠ .sysReset →
    (unitOf i ≠ .bsf → i ≠ .micePut → t.bsf = s.bsf)
      ∧ (i = .micePut → t.bsf = { s.bsf with addr := t.bsf.addr, msg := t.bsf.msg, msglen := t.bsf.msglen })
      ∧ (unitOf i ≠ .mice ∨ i = .micePut → t.mice = s.mice)
      ∧ (unitOf i ≠ .afsk → t.afsk = s.afsk)
      ∧ (unitOf i ≠ .frt → t.frt = s.frt)
      ∧ (unitOf i ≠ .cpf → t.cpf = s.cpf)
      ∧ t.cfg = s.cfg ∧ t.inputs = s.inputs ∧ t.epoch = s.epoch

/-- 20 R70, R71, R75: the frame of all 49 operations over memory. A byte cell that an operation's rule does not name
reads as before, and so does a bit cell; the operations that store nothing are those for which `mayWrite` and
`mayWriteBit` accept no cell. -/
def Obligations.MemoryChangesOnlyInTheCellsNamed : Prop :=
  ∀ (i : Instr) (s t : State), Inv s → exec i s = .next t →
    (∀ sp a, ¬ mayWrite i s sp a → load sp a t = load sp a s)
      ∧ ∀ k, ¬ mayWriteBit i s k → loadBit k t = loadBit k s

/-! ## Unit BSF -/

/-- 40 R144. -/
def Obligations.BsfRstResetsTheSequence : Prop :=
  commandIs .host 0 0 (fun _ _ => .bsfRst)
    ∧ (∀ s : State, s.afsk.state = .transmitting → exec .bsfRst s = .next (raise .busy s))
    ∧ ∀ s : State, s.afsk.state = .idle →
      exec .bsfRst s = .next (answer 0 { s with
        bsf := { s.bsf with bitlen := 0, crc := 0xFFFF, ones := 0, ovf := false } })

/-- 40 R143, R145, R146: eight bits, unstuffed, with `bsf.crc` and `bsf.ones` unchanged; OVF by R141 when they do not
fit. -/
def Obligations.SyncAndFlagAppendRawBits : Prop :=
  commandIs .host 0 1 (fun _ _ => .bsfSync) ∧ commandIs .host 0 2 (fun _ _ => .bsfFlag)
    ∧ (∀ s : State, s.afsk.state = .transmitting →
      exec .bsfSync s = .next (raise .busy s) ∧ exec .bsfFlag s = .next (raise .busy s))
    ∧ ∀ s : State, Inv s → s.afsk.state = .idle →
      SendsBits .bsfSync [false, false, false, false, false, false, false, false] s.bsf.crc s.bsf.ones.toNat 0 s
        ∧ SendsBits .bsfFlag [false, true, true, true, true, true, true, false] s.bsf.crc s.bsf.ones.toNat 0 s

/-- 40 R142, R147: the byte's bits, least significant first, stuffed after the run so far, and through the
accumulator. -/
def Obligations.ByteAppendsStuffedBits : Prop :=
  commandIs .host 0 3 (fun _ b => .bsfByte b)
    ∧ (∀ (b : Byte) (s : State), s.afsk.state = .transmitting → exec (.bsfByte b) s = .next (raise .busy s))
    ∧ ∀ (b : Byte) (s : State), Inv s → s.afsk.state = .idle →
      SendsBits (.bsfByte b) (stuff s.bsf.ones.toNat (bitsOf [b])) (crcOver s.bsf.crc (bitsOf [b]))
        (runAfter s.bsf.ones.toNat (bitsOf [b])) 0 s

/-- 30 R114: the seven bytes sent for an address slot; with no OR mask and a canonical SSID character `0x30 + n` the
last of them is `0x60 + 2n + last`. -/
def Obligations.AddressFieldEncoding : Prop :=
  (∀ (slot : Nat) (last : Bool) (s : State),
      addrBytes slot last s =
        [load .addr (8 * slot) s <<< 1 ||| s.cfg.addrOrCall, load .addr (8 * slot + 1) s <<< 1 ||| s.cfg.addrOrCall,
         load .addr (8 * slot + 2) s <<< 1 ||| s.cfg.addrOrCall, load .addr (8 * slot + 3) s <<< 1 ||| s.cfg.addrOrCall,
         load .addr (8 * slot + 4) s <<< 1 ||| s.cfg.addrOrCall, load .addr (8 * slot + 5) s <<< 1 ||| s.cfg.addrOrCall,
         (load .addr (8 * slot + 6) s <<< 1 &&& 0xFE) ||| s.cfg.addrOrSsid ||| (if last then 1 else 0)])
    ∧ ∀ (slot n : Nat) (last : Bool) (s : State), n ≤ 15 → s.cfg.addrOrSsid = 0 →
      load .addr (8 * slot + 6) s = BitVec.ofNat 8 (0x30 + n) →
      (addrBytes slot last s)[6]? = some (BitVec.ofNat 8 (0x60 + 2 * n + last.toNat))

/-- 40 R148, 60 R362: the seven bytes of the slot through `addByte`; RANGE comes before BUSY. -/
def Obligations.AddrAppendsTheAddressField : Prop :=
  commandIs .host 0 4 (fun a b => .bsfAddr a (b.getLsbD 0))
    ∧ (∀ (slot : BitVec 8) (last : Bool) (s : State), 1 + s.cfg.maxPath < slot.toNat →
      exec (.bsfAddr slot last) s = .next (raise .range s))
    ∧ (∀ (slot : BitVec 8) (last : Bool) (s : State), slot.toNat ≤ 1 + s.cfg.maxPath →
      s.afsk.state = .transmitting → exec (.bsfAddr slot last) s = .next (raise .busy s))
    ∧ ∀ (slot : BitVec 8) (last : Bool) (s : State), Inv s → slot.toNat ≤ 1 + s.cfg.maxPath →
      s.afsk.state = .idle →
      SendsBits (.bsfAddr slot last) (stuff s.bsf.ones.toNat (bitsOf (addrBytes slot.toNat last s)))
        (crcOver s.bsf.crc (bitsOf (addrBytes slot.toNat last s)))
        (runAfter s.bsf.ones.toNat (bitsOf (addrBytes slot.toNat last s))) 0 s

/-- 40 R149, 30 R115: the complement of the accumulator, low byte first, stuffed; the accumulator is 0xF0B8
afterwards, whatever was sent before. -/
def Obligations.FcsAppendsTheCheckSequence : Prop :=
  commandIs .host 0 5 (fun _ _ => .bsfFcs)
    ∧ (∀ s : State, s.afsk.state = .transmitting → exec .bsfFcs s = .next (raise .busy s))
    ∧ ∀ s : State, Inv s → s.afsk.state = .idle →
      SendsBits .bsfFcs
        (stuff s.bsf.ones.toNat (bitsOf [(~~~s.bsf.crc).extractLsb' 0 8, (~~~s.bsf.crc).extractLsb' 8 8])) 0xF0B8
        (runAfter s.bsf.ones.toNat (bitsOf [(~~~s.bsf.crc).extractLsb' 0 8, (~~~s.bsf.crc).extractLsb' 8 8]))
        (~~~s.bsf.crc) s

/-- 40 R150: BUSY while Transmitting; while Idle BUILD is, state for state but for the response, its fixed sequence of
the other operations, and answers the bit length. -/
def Obligations.BuildIsItsSequenceOfOperations : Prop :=
  commandIs .host 0 6 (fun _ _ => .bsfBuild)
    ∧ (∀ s : State, s.afsk.state = .transmitting → exec .bsfBuild s = .next (raise .busy s))
    ∧ ∀ s : State, Inv s → s.afsk.state = .idle →
      ∃ t, runOps
        ([.bsfRst] ++ List.replicate s.cfg.nSync .bsfSync ++ List.replicate s.cfg.nPreflag .bsfFlag
          ++ [.bsfAddr 0 false, .bsfAddr 1 (decide (s.bsf.pathcount = 0))]
          ++ (List.range s.bsf.pathcount.toNat).map
            (fun k => .bsfAddr (BitVec.ofNat 8 (2 + k)) (decide (k + 1 = s.bsf.pathcount.toNat)))
          ++ [.bsfByte 0x03, .bsfByte 0xF0]
          ++ (loadMany .msg 0 s.bsf.msglen.toNat s).map .bsfByte
          ++ [.bsfFcs] ++ List.replicate s.cfg.nPostflag .bsfFlag) s = some t
        ∧ exec .bsfBuild s = .next { t with resp := { status := .ok, value := t.bsf.bitlen } }

/-- 30 R113, 40 R161(d): the bits of a built frame, first bit first, and their number. -/
def Obligations.BuiltFrameHasTheFrameLayout : Prop :=
  ∀ s : State, Inv s → s.afsk.state = .idle →
    ∃ t data fcs,
      exec .bsfBuild s = .next t
      ∧ data = addrBytes 0 false s ++ addrBytes 1 (decide (s.bsf.pathcount = 0)) s
          ++ (List.range s.bsf.pathcount.toNat).flatMap
            (fun k => addrBytes (2 + k) (decide (k + 1 = s.bsf.pathcount.toNat)) s)
          ++ [0x03, 0xF0] ++ loadMany .msg 0 s.bsf.msglen.toNat s
      ∧ fcs = ~~~crcOver 0xFFFF (bitsOf data)
      ∧ bitSequence t =
          List.replicate (8 * s.cfg.nSync) false ++ (List.replicate s.cfg.nPreflag flagBits).flatten
          ++ stuff 0 (bitsOf (data ++ [fcs.extractLsb' 0 8, fcs.extractLsb' 8 8]))
          ++ (List.replicate s.cfg.nPostflag flagBits).flatten
      ∧ (∃ k, k ≤ 8 * (data.length + 2) / 5
          ∧ t.bsf.bitlen.toNat
            = 8 * (s.cfg.nSync + s.cfg.nPreflag + s.cfg.nPostflag) + 8 * (data.length + 2) + k)
      ∧ data.length = 7 * (2 + s.bsf.pathcount.toNat) + 2 + s.bsf.msglen.toNat
      ∧ t = { s with
          bsf := { s.bsf with
            bits := t.bsf.bits, bitlen := t.bsf.bitlen, crc := 0xF0B8, ones := t.bsf.ones, ovf := false }
          resp := { status := .ok, value := t.bsf.bitlen } }

/-- 40 R161(a): among the bits appended by operations BSF.BYTE that start with a run length of 0, no six consecutive
ones occur. -/
def Obligations.StuffedBytesHoldNoSixOnes : Prop :=
  ∀ (s t : State) (xs : List Byte), Inv s → s.afsk.state = .idle → s.bsf.ones = 0 →
    runOps (xs.map .bsfByte) s = some t →
    ∀ k, s.bsf.bitlen.toNat ≤ k → k + 6 ≤ t.bsf.bitlen.toNat → ∃ j, j < 6 ∧ loadBit (k + j) t = false

/-- 40 R161(b), (c), 30 R115: between its flags a built frame holds no six consecutive ones; what a receiver gets by
removing the stuffed bits is every data byte and the check sequence; and its accumulator ends at 0xF0B8. -/
def Obligations.ReceiverRecoversTheBuiltFrame : Prop :=
  ∀ s t : State, Inv s → s.afsk.state = .idle → exec .bsfBuild s = .next t →
    ∃ region fcs,
      bitSequence t =
        List.replicate (8 * s.cfg.nSync) false ++ (List.replicate s.cfg.nPreflag flagBits).flatten ++ region
          ++ (List.replicate s.cfg.nPostflag flagBits).flatten
      ∧ destuff 0 region = bitsOf (frameBytes s ++ fcs) ∧ fcs.length = 2
      ∧ crcOver 0xFFFF (destuff 0 region) = 0xF0B8
      ∧ ¬ List.replicate 6 true <:+: region

/-- 40 R151 to R154: each store writes what its operand names and nothing else, or raises RANGE. -/
def Obligations.BsfOperandStores : Prop :=
  commandIs .host 0 7 (fun a b => .bsfWaddr (formSlot a) (formIndex a) b) ∧ commandIs .host 0 8 (fun a b => .bsfWmsg a b)
    ∧ commandIs .host 0 9 (fun a b => .bsfSetlen (formLen9 a b)) ∧ commandIs .host 0 10 (fun _ b => .bsfSetpath b)
    ∧ (∀ (slot : BitVec 5) (k : BitVec 3) (b : Byte) (s : State),
      (slot.toNat ≤ 1 + s.cfg.maxPath ∧ k.toNat ≠ 7 → ∃ t, exec (.bsfWaddr slot k b) s = .next t
          ∧ WritesOneCell .addr (8 * slot.toNat + k.toNat) b s t ∧ registers t = registers (answer 0 s))
        ∧ (1 + s.cfg.maxPath < slot.toNat ∨ k.toNat = 7 → exec (.bsfWaddr slot k b) s = .next (raise .range s)))
    ∧ (∀ (k b : Byte) (s : State), ∃ t, exec (.bsfWmsg k b) s = .next t
      ∧ WritesOneCell .msg k.toNat b s t ∧ registers t = registers (answer 0 s))
    ∧ (∀ (n : BitVec 9) (s : State),
      (n.toNat ≤ 256 → exec (.bsfSetlen n) s = .next (answer 0 { s with bsf := { s.bsf with msglen := n } }))
        ∧ (256 < n.toNat → exec (.bsfSetlen n) s = .next (raise .range s)))
    ∧ ∀ (n : BitVec 8) (s : State),
      (n.toNat ≤ s.cfg.maxPath → exec (.bsfSetpath n) s =
          .next (answer 0 { s with bsf := { s.bsf with pathcount := BitVec.ofNat 4 n.toNat } }))
        ∧ (s.cfg.maxPath < n.toNat → exec (.bsfSetpath n) s = .next (raise .range s))

/-- 40 R155 to R159. -/
def Obligations.BsfLoads : Prop :=
  commandIs .host 0 11 (fun a b => .bsfRbit (formAb16 a b)) ∧ commandIs .host 0 12 (fun _ _ => .bsfRlen)
    ∧ commandIs .host 0 13 (fun _ _ => .bsfRcrc)
    ∧ commandIs .host 0 14 (fun a _ => .bsfRaddr (formSlot a) (formIndex a)) ∧ commandIs .host 0 15 (fun a _ => .bsfRmsg a)
    ∧ ∀ s : State,
      (∀ k : BitVec 16,
        (k.toNat < s.bsf.bitlen.toNat →
            exec (.bsfRbit k) s = .next (answer (if loadBit k.toNat s then 1 else 0) s))
          ∧ (s.bsf.bitlen.toNat ≤ k.toNat → exec (.bsfRbit k) s = .next (raise .range s)))
      ∧ exec .bsfRlen s = .next (answer s.bsf.bitlen s)
      ∧ exec .bsfRcrc s = .next (answer s.bsf.crc s)
      ∧ (∀ (slot : BitVec 5) (k : BitVec 3),
        (slot.toNat ≤ 1 + s.cfg.maxPath ∧ k.toNat ≠ 7 → exec (.bsfRaddr slot k) s =
            .next (answer ((load .addr (8 * slot.toNat + k.toNat) s).setWidth 16) s))
          ∧ (1 + s.cfg.maxPath < slot.toNat ∨ k.toNat = 7 → exec (.bsfRaddr slot k) s = .next (raise .range s)))
      ∧ ∀ k : Byte, exec (.bsfRmsg k) s = .next (answer ((load .msg k.toNat s).setWidth 16) s)

/-! ## Unit MICE -/

/-- 41 R181, R198: bytes 0x00 to 0x12 of the input registers. -/
def Obligations.MiceInputBytes : Prop :=
  commandIs .host 1 0 (fun a b => .miceWin a b) ∧ commandIs .host 1 4 (fun a _ => .miceRin a)
    ∧ ∀ (a b : Byte) (s : State),
      (a.toNat ≤ 0x12 →
        (∃ t, exec (.miceWin a b) s = .next t ∧ WritesOneCell .micIn a.toNat b s t
          ∧ registers t = registers (answer 0 s))
        ∧ exec (.miceRin a) s = .next (answer ((load .micIn a.toNat s).setWidth 16) s))
      ∧ (0x12 < a.toNat →
        exec (.miceWin a b) s = .next (raise .range s) ∧ exec (.miceRin a) s = .next (raise .range s))

/-- 41 R182 to R189 and R192 to R195: where the inputs are read from, the range check, and every character of the two
strings; the speed and course characters are those of the default encoder of R192. -/
def Obligations.MiceEncWritesTheStrings : Prop :=
  commandIs .host 1 1 (fun _ _ => .miceEnc)
    ∧ ∀ (s : State) (lat lon alt : Int) (spd crs la lo : Nat), s.cfg.wf = true →
      lat = (load .micIn 3 s ++ load .micIn 2 s ++ load .micIn 1 s ++ load .micIn 0 s : BitVec 32).toInt →
      lon = (load .micIn 7 s ++ load .micIn 6 s ++ load .micIn 5 s ++ load .micIn 4 s : BitVec 32).toInt →
      alt = (load .micIn 11 s ++ load .micIn 10 s ++ load .micIn 9 s ++ load .micIn 8 s : BitVec 32).toInt →
      spd = (load .micIn 13 s ++ load .micIn 12 s : BitVec 16).toNat →
      crs = (load .micIn 15 s ++ load .micIn 14 s : BitVec 16).toNat →
      la = lat.natAbs → lo = lon.natAbs →
      (¬ (la ≤ 539999 ∧ lo ≤ 1079999 ∧ spd ≤ 799 ∧ crs ≤ 360 ∧ -10000 ≤ alt ∧ alt ≤ 743570) →
        exec .miceEnc s = .next (raise .range s))
      ∧ (la ≤ 539999 ∧ lo ≤ 1079999 ∧ spd ≤ 799 ∧ crs ≤ 360 ∧ -10000 ≤ alt ∧ alt ≤ 743570 →
        ∃ t, exec .miceEnc s = .next t
          ∧ registers t = registers (answer (BitVec.ofNat 16 (9 + s.cfg.lSc + s.cfg.altTerm.toNat)) { s with
              mice := { s.mice with infolen := BitVec.ofNat 4 (9 + s.cfg.lSc + s.cfg.altTerm.toNat), ok := true } })
          ∧ (∀ sp a, ¬ (sp = .micDest ∧ a < 7) → ¬ (sp = .micInfo ∧ a < 9 + s.cfg.lSc + s.cfg.altTerm.toNat) →
              load sp a t = load sp a s)
          ∧ (∀ k, loadBit k t = loadBit k s)
          ∧ (load .micDest 0 t).toNat
              = 0x30 + la / 6000 / 10 + (if (load .micIn 18 s).getLsbD 3 then 0x20 else 0)
          ∧ (load .micDest 1 t).toNat
              = 0x30 + la / 6000 % 10 + (if (load .micIn 18 s).getLsbD 2 then 0x20 else 0)
          ∧ (load .micDest 2 t).toNat
              = 0x30 + la % 6000 / 100 / 10 + (if (load .micIn 18 s).getLsbD 1 then 0x20 else 0)
          ∧ (load .micDest 3 t).toNat = 0x30 + la % 6000 / 100 % 10 + (if 0 ≤ lat then 0x20 else 0)
          ∧ (load .micDest 4 t).toNat
              = 0x30 + la % 100 / 10 + (if lo / 6000 < 10 ∨ 100 ≤ lo / 6000 then 0x20 else 0)
          ∧ (load .micDest 5 t).toNat = 0x30 + la % 100 % 10 + (if lon < 0 then 0x20 else 0)
          ∧ load .micDest 6 t = 0x30
          ∧ load .micInfo 0 t = (if (load .micIn 18 s).getLsbD 0 then 0x60 else 0x27)
          ∧ (load .micInfo 1 t).toNat =
              (if lo / 6000 < 10 then lo / 6000 + 118 else if lo / 6000 < 100 then lo / 6000 + 28
                else if lo / 6000 < 110 then lo / 6000 + 8 else lo / 6000 - 72)
          ∧ (load .micInfo 2 t).toNat
              = (if lo % 6000 / 100 < 10 then lo % 6000 / 100 + 88 else lo % 6000 / 100 + 28)
          ∧ (load .micInfo 3 t).toNat = lo % 100 + 28
          ∧ (s.cfg.miceSc = .standard →
              (load .micInfo 4 t).toNat = spd / 10 + (if spd < 200 then 108 else 28)
              ∧ (load .micInfo 5 t).toNat = spd % 10 * 10 + (crs + 400) / 100 + 28
              ∧ (load .micInfo 6 t).toNat = (crs + 400) % 100 + 28)
          ∧ load .micInfo (4 + s.cfg.lSc) t = load .micIn 16 s
          ∧ load .micInfo (5 + s.cfg.lSc) t = load .micIn 17 s
          ∧ ((load .micInfo (6 + s.cfg.lSc) t).toNat : Int) = (alt + 10000) / 8281 + 33
          ∧ ((load .micInfo (7 + s.cfg.lSc) t).toNat : Int) = (alt + 10000) / 91 % 91 + 33
          ∧ ((load .micInfo (8 + s.cfg.lSc) t).toNat : Int) = (alt + 10000) % 91 + 33
          ∧ (s.cfg.altTerm = true → load .micInfo (9 + s.cfg.lSc) t = 0x7D))

/-- 41 R190, R191: with a speed and course encoder of the platform's, its characters stand between the longitude and
the symbol; that it is the free function `Config.platformSc` is the model's choice (notes/assumptions/6.md). -/
def Obligations.MicePlatformSpeedCourse : Prop :=
  ∀ s t : State, s.cfg.wf = true → s.cfg.miceSc = .platform → exec .miceEnc s = .next t → t.resp.status = .ok →
    ∀ k, k < s.cfg.lSc →
      load .micInfo (4 + k) t = Config.platformSc s.cfg.lSc
        (load .micIn 13 s ++ load .micIn 12 s : BitVec 16).toNat (load .micIn 15 s ++ load .micIn 14 s : BitVec 16).toNat k

/-- 41 R187 and the tables of R185, R188, R189, R194: a receiver that undoes the tables gets back the latitude, the
longitude and the altitude that were encoded. -/
def Obligations.MiceStringsDecodeToTheFix : Prop :=
  ∀ (s t : State) (digit : Nat → Nat) (flag : Nat → Bool) (x deg m : Nat), s.cfg.wf = true →
    exec .miceEnc s = .next t → t.resp.status = .ok →
    (∀ k, digit k = (load .micDest k t).toNat % 16) → (∀ k, flag k = decide (0x50 ≤ (load .micDest k t).toNat)) →
    x = (load .micInfo 1 t).toNat - 28 + (if flag 4 then 100 else 0) →
    deg = (if 190 ≤ x then x - 190 else if 180 ≤ x then x - 80 else x) →
    m = (load .micInfo 2 t).toNat - 28 →
    (readFix s).lat.natAbs
        = ((digit 0 * 10 + digit 1) * 60 + digit 2 * 10 + digit 3) * 100 + digit 4 * 10 + digit 5
      ∧ (flag 3 = true ↔ 0 ≤ (readFix s).lat)
      ∧ (readFix s).lon.natAbs
        = (deg * 60 + (if 60 ≤ m then m - 60 else m)) * 100 + ((load .micInfo 3 t).toNat - 28)
      ∧ (flag 5 = true ↔ (readFix s).lon < 0)
      ∧ (readFix s).alt + 10000
        = ((load .micInfo (6 + s.cfg.lSc) t).toNat - 33) * 8281 + ((load .micInfo (7 + s.cfg.lSc) t).toNat - 33) * 91
          + ((load .micInfo (8 + s.cfg.lSc) t).toNat - 33)

/-- 41 R196. -/
def Obligations.MicePutHandsOverToBsf : Prop :=
  commandIs .host 1 2 (fun _ _ => .micePut)
    ∧ (∀ s : State, s.mice.ok = false → exec .micePut s = .next (raise .busy s))
    ∧ ∀ s : State, s.mice.ok = true → ∃ t, exec .micePut s = .next t
      ∧ (∀ k, k < 7 → load .addr k t = load .micDest k s)
      ∧ (∀ k, k < s.mice.infolen.toNat → load .msg k t = load .micInfo k s)
      ∧ (∀ sp a, ¬ (sp = .addr ∧ a < 7) → ¬ (sp = .msg ∧ a < s.mice.infolen.toNat) → load sp a t = load sp a s)
      ∧ (∀ k, loadBit k t = loadBit k s)
      ∧ registers t = registers (answer (BitVec.ofNat 16 s.mice.infolen.toNat) { s with
          bsf := { s.bsf with msglen := BitVec.ofNat 9 s.mice.infolen.toNat } })

/-- 41 R197. -/
def Obligations.MiceRoutReadsTheStrings : Prop :=
  commandIs .host 1 3 (fun a _ => .miceRout a)
    ∧ ∀ (a : Byte) (s : State),
      (a.toNat ≤ 6 → exec (.miceRout a) s = .next (answer ((load .micDest a.toNat s).setWidth 16) s))
      ∧ (8 ≤ a.toNat ∧ a.toNat ≤ 20 →
          exec (.miceRout a) s = .next (answer ((load .micInfo (a.toNat - 8) s).setWidth 16) s))
      ∧ (a.toNat = 7 ∨ 20 < a.toNat → exec (.miceRout a) s = .next (raise .range s))

/-! ## Unit AFSK -/

/-- 42 R221. -/
def Obligations.AfskTxStartsATransmission : Prop :=
  commandIs .host 2 0 (fun _ _ => .afskTx)
    ∧ ∀ s : State,
      (s.afsk.state = .transmitting → exec .afskTx s = .next (raise .busy s))
      ∧ (s.afsk.state = .idle → s.bsf.ovf = true → exec .afskTx s = .next (raise .ovf s))
      ∧ (s.afsk.state = .idle → s.bsf.ovf = false →
        exec .afskTx s = .next (answer 0 { s with afsk := { s.afsk with
          state := .transmitting, tone := .mark, sidx := 0, elapsed := 0, bitpos := 0
          ptt := if s.cfg.pttEn then true else s.afsk.ptt } }))

/-- 42 R224, R225: a tick while Idle, within a bit period, at the boundary that ends the transmission, and at a boundary
that takes a bit. -/
def Obligations.AfskTickAdvancesTheModulator : Prop :=
  commandIs .timer 2 15 (fun _ _ => .afskTick)
    ∧ (∀ s : State, s.afsk.state = .idle → exec .afskTick s = .next (answer 0 s))
    ∧ ∀ (s : State) (e : Nat) (sample : BitVec 16), s.afsk.state = .transmitting →
      e = s.afsk.elapsed.toNat + (if s.afsk.tone = .mark then s.cfg.tMark else s.cfg.tSpace) →
      s.cfg.sine.toList[s.afsk.sidx.toNat]? = some sample →
      (e < 833 → exec .afskTick s = .next (answer 1 { s with afsk := { s.afsk with
          dac := sample, sidx := BitVec.ofNat 5 ((s.afsk.sidx.toNat + 1) % 32), elapsed := BitVec.ofNat 16 e } }))
      ∧ (833 ≤ e → s.bsf.bitlen.toNat ≤ s.afsk.bitpos.toNat →
        exec .afskTick s = .next (answer 0 { s with afsk := { s.afsk with
          dac := sample, state := .idle, ptt := false, sidx := 0, elapsed := 0 } }))
      ∧ (833 ≤ e → s.afsk.bitpos.toNat < s.bsf.bitlen.toNat →
        exec .afskTick s = .next (answer 1 { s with afsk := { s.afsk with
          dac := sample
          sidx := BitVec.ofNat 5 ((s.afsk.sidx.toNat + 1) % 32)
          elapsed := BitVec.ofNat 16 (e - 833)
          bitpos := s.afsk.bitpos + 1
          tone := if loadBit s.afsk.bitpos.toNat s then s.afsk.tone
            else if s.afsk.tone = .mark then .space else .mark } }))

/-- 42 R226 to R229; the milliseconds of R228 are the exact quotient. -/
def Obligations.AfskEndAndReads : Prop :=
  commandIs .host 2 1 (fun _ _ => .afskEnd) ∧ commandIs .host 2 2 (fun _ _ => .afskStat)
    ∧ commandIs .host 2 3 (fun _ _ => .afskTime) ∧ commandIs .host 2 4 (fun a _ => .afskRout a)
    ∧ ∀ s : State,
      (s.afsk.state = .transmitting →
        exec .afskEnd s = .next (answer 0 { s with afsk := { s.afsk with bitpos := s.bsf.bitlen } })
        ∧ exec .afskStat s = .next (answer 1 s))
      ∧ (s.afsk.state = .idle → exec .afskEnd s = .next (answer 0 s) ∧ exec .afskStat s = .next (answer 0 s))
      ∧ (∃ ms : Value, exec .afskTime s = .next (answer ms s) ∧ ms.toNat = s.bsf.bitlen.toNat * 1000 / 1200)
      ∧ exec (.afskRout 0) s = .next (answer s.afsk.dac s)
      ∧ exec (.afskRout 1) s = .next (answer (BitVec.ofNat 16 ((if s.afsk.ptt then 64 else 0)
          + (if s.afsk.tone = .mark then 0 else 32) + s.afsk.sidx.toNat)) s)
      ∧ exec (.afskRout 2) s = .next (answer s.afsk.elapsed s)
      ∧ exec (.afskRout 3) s = .next (answer s.afsk.bitpos s)
      ∧ ∀ sel : Byte, 3 < sel.toNat → exec (.afskRout sel) s = .next (raise .range s)

/-- 42 R231(a), (c): from AFSK.TX, ticks alone end the transmission, after at most 833 of them for each of the N+1 bit
periods; until then the unit is Transmitting; and the tone has changed as often as the sequence has 0 bits. -/
def Obligations.TransmissionEndsWithOneToneChangePerZeroBit : Prop :=
  ∀ s t : State, Inv s → s.afsk.state = .idle → s.bsf.ovf = false → exec .afskTx s = .next t →
    ∃ n u, ticks n t = some u ∧ u.afsk.state = .idle ∧ u.bsf = s.bsf
      ∧ (∀ m, m < n → ∃ w, ticks m t = some w ∧ w.afsk.state = .transmitting)
      ∧ n ≤ 833 * (s.bsf.bitlen.toNat + 1)
      ∧ toneChanges n t = (bitSequence s).count false

/-! ## Unit FRT -/

/-- 43 R262; the answer is the queue's length wherever the 16 bits of a value hold it. -/
def Obligations.FrtRxbQueuesAByte : Prop :=
  commandIs .stream 3 15 (fun _ b => .frtRxb b)
    ∧ ∀ (b : Byte) (s : State),
      (s.frt.rxfifo.length < s.cfg.rxDepth → ∃ v : Value, exec (.frtRxb b) s =
          .next (answer v { s with frt := { s.frt with rxfifo := s.frt.rxfifo ++ [b] } })
        ∧ (s.frt.rxfifo.length + 1 < 65536 → v.toNat = s.frt.rxfifo.length + 1))
      ∧ (s.frt.rxfifo.length = s.cfg.rxDepth → exec (.frtRxb b) s =
        .next { s with
          sys := { err := s.sys.err ||| 0b110000#6 }
          resp := { status := .cap, value := 0 } })

/-- 43 R264 to R270: one turn of the loop of FRT.POLL in each stage; `.done f 0` is blocked, with nothing consumed. -/
def Obligations.FrtStageRules : Prop :=
  ∀ (c : Config) (f : Frt),
    (f.stage = .awaitStart →
      (f.rxfifo = [] → pollTurn c f = .done f 0)
      ∧ ∀ b rest, f.rxfifo = b :: rest →
        pollTurn c f = .goOn (if b = 0x7E then
          { f with rxfifo := rest, sum := 0, result := .none, stage := .length } else { f with rxfifo := rest }))
    ∧ (f.stage = .length →
      (f.rxfifo.length < 2 → pollTurn c f = .done f 0)
      ∧ ∀ hi lo rest, f.rxfifo = hi :: lo :: rest →
        pollTurn c f = .goOn (if 256 * hi.toNat + lo.toNat < 1 + c.srcW + c.extraW then
          { f with rxfifo := rest, len := BitVec.ofNat 16 (256 * hi.toNat + lo.toNat), result := .failLen,
                   stage := .failure }
          else { f with rxfifo := rest, len := BitVec.ofNat 16 (256 * hi.toNat + lo.toNat), stage := .apiId }))
    ∧ (f.stage = .apiId →
      (f.rxfifo = [] → pollTurn c f = .done f 0)
      ∧ ∀ b rest, f.rxfifo = b :: rest →
        pollTurn c f = .goOn (if b = c.rxApi then
          { f with rxfifo := rest, api := b, sum := f.sum + b, stage := .header }
          else { f with rxfifo := rest, api := b, sum := f.sum + b, result := .failApi, stage := .failure }))
    ∧ (f.stage = .header →
      (f.rxfifo.length < c.srcW + c.extraW → pollTurn c f = .done f 0)
      ∧ ∀ src extra rest, f.rxfifo = src ++ extra ++ rest → src.length = c.srcW → extra.length = c.extraW →
        ∃ g, pollTurn c f = .goOn g
          ∧ (∀ k, cellGet g.src k = if k < c.srcW then src[k]? else cellGet f.src k)
          ∧ (∀ k, cellGet g.extra k = if k < c.extraW then extra[k]? else cellGet f.extra k)
          ∧ g = { f with
              rxfifo := rest, src := g.src, extra := g.extra, stage := .payload
              sum := BitVec.ofNat 8 (f.sum.toNat + ((src ++ extra).map BitVec.toNat).sum) })
    ∧ (f.stage = .payload →
      (c.payloadCap < f.len.toNat - (1 + c.srcW + c.extraW) →
        pollTurn c f = .goOn { f with result := .failCap, stage := .failure })
      ∧ (f.len.toNat - (1 + c.srcW + c.extraW) ≤ c.payloadCap →
        f.rxfifo.length < f.len.toNat - (1 + c.srcW + c.extraW) → pollTurn c f = .done f 0)
      ∧ ∀ body rest, f.rxfifo = body ++ rest → body.length = f.len.toNat - (1 + c.srcW + c.extraW) →
        body.length ≤ c.payloadCap →
        ∃ g, pollTurn c f = .goOn g
          ∧ (∀ k, cellGet g.payload k = if k < body.length then body[k]? else cellGet f.payload k)
          ∧ g = { f with
              rxfifo := rest, payload := g.payload, paylen := BitVec.ofNat 9 body.length, stage := .checksum
              sum := BitVec.ofNat 8 (f.sum.toNat + (body.map BitVec.toNat).sum) })
    ∧ (f.stage = .checksum →
      (f.rxfifo = [] → pollTurn c f = .done f 0)
      ∧ ∀ b rest, f.rxfifo = b :: rest →
        pollTurn c f = (if b.toNat = 255 - f.sum.toNat then
          .done { f with rxfifo := rest, cks := b, result := .frame, stage := .awaitStart } 0x13
          else .done { f with rxfifo := rest, cks := b, result := .badsum, stage := .awaitStart } 0x21))
    ∧ (f.stage = .failure →
      (f.result = .failLen → pollTurn c f = .done { f with stage := .awaitStart } 0x31)
      ∧ (f.result = .failApi → pollTurn c f = .done { f with stage := .awaitStart } 0x41)
      ∧ (f.result = .failCap → pollTurn c f = .done { f with stage := .awaitStart } 0x51))

/-- 43 R263: FRT.POLL is the loop over the stage rules: enough turns of it end, with the unit and the value that the
operation leaves and answers, and nothing else changes. -/
def Obligations.PollIsTheLoopOfItsTurns : Prop :=
  commandIs .host 3 0 (fun _ _ => .frtPoll)
    ∧ ∀ s : State, ∃ e, pollLoop (s.frt.rxfifo.length + 7) s.cfg s.frt = some e
      ∧ exec .frtPoll s = .next (answer e.value { s with frt := e.frt })

/-- 43 R263, R271: a POLL that answers 0 has lost nothing. Bytes that arrive after it lead to the same state as if they
had been there before it. -/
def Obligations.BlockedPollLosesNoProgress : Prop :=
  ∀ (s t : State) (bytes : List Byte), exec .frtPoll s = .next t → t.resp.value = 0 →
    exec .frtPoll { t with frt := { t.frt with rxfifo := t.frt.rxfifo ++ bytes } }
      = exec .frtPoll { s with frt := { s.frt with rxfifo := s.frt.rxfifo ++ bytes } }

/-- 43 R263, R270, R271: the values a POLL answers, with the result register and the stage after each; stage Failure is
never seen between steps. -/
def Obligations.PollAnswersAVerdictOrZero : Prop :=
  ∀ s t : State, s.frt.stage ≠ .failure → exec .frtPoll s = .next t →
    t.resp.status = .ok ∧ t.frt.stage ≠ .failure
      ∧ (t.resp.value = 0
        ∨ t.frt.stage = .awaitStart
          ∧ (t.resp.value, t.frt.result) ∈ [(0x13, FrtResult.frame), (0x21, FrtResult.badsum),
            (0x31, FrtResult.failLen), (0x41, FrtResult.failApi), (0x51, FrtResult.failCap)])

/-- 43 R281(a), 30 R117: a frame delivered one byte at a time, with a POLL after each byte, is signalled complete
exactly once, on its last byte, and its fields are then in the registers. -/
def Obligations.DecoderReceivesEveryFrame : Prop :=
  ∀ (s : State) (src extra payload frame : List Byte), s.cfg.wf = true → s.frt.stage = .awaitStart →
    s.frt.rxfifo = [] → src.length = s.cfg.srcW → extra.length = s.cfg.extraW →
    payload.length ≤ s.cfg.payloadCap → frame = rxFrame s.cfg src extra payload →
    (∀ k, k < frame.length → ∃ t, runOps (delivered (frame.take k)) s = some t
      ∧ (0 < k → t.resp = { status := .ok, value := 0 }))
    ∧ ∃ t, runOps (delivered frame) s = some t ∧ t.resp = { status := .ok, value := 0x13 }
      ∧ t.frt.result = .frame ∧ t.frt.stage = .awaitStart ∧ t.frt.rxfifo = []
      ∧ t.frt.len.toNat = 1 + src.length + extra.length + payload.length ∧ t.frt.api = s.cfg.rxApi
      ∧ t.frt.paylen.toNat = payload.length ∧ frame.getLast? = some t.frt.cks
      ∧ (∀ k, k < src.length → some (load .frtSrc k t) = src[k]?)
      ∧ (∀ k, k < extra.length → some (load .frtExtra k t) = extra[k]?)
      ∧ ∀ k, k < payload.length → some (load .frtPayload k t) = payload[k]?

/-- 43 R281(b): a frame with one byte changed after its length field concludes, with no frame: FAIL_API for the
identifier, BADSUM for any other byte. -/
def Obligations.DecoderRejectsEveryChangedByte : Prop :=
  ∀ (s : State) (src extra payload frame : List Byte) (j : Nat) (b : Byte), s.cfg.wf = true →
    s.frt.stage = .awaitStart → src.length = s.cfg.srcW → extra.length = s.cfg.extraW →
    payload.length ≤ s.cfg.payloadCap → frame = rxFrame s.cfg src extra payload →
    3 ≤ j → j < frame.length → frame[j]? ≠ some b → s.frt.rxfifo = frame.set j b →
    ∃ t, exec .frtPoll s = .next t ∧ t.frt.stage = .awaitStart
      ∧ t.resp = { status := .ok, value := if j = 3 then 0x41 else 0x21 }

/-- 43 R272, R273, R279. -/
def Obligations.FrtReads : Prop :=
  commandIs .host 3 1 (fun a _ => .frtRfrm a) ∧ commandIs .host 3 8 (fun a _ => .frtRpay a)
    ∧ commandIs .host 3 6 (fun _ _ => .frtRstg)
    ∧ ∀ s : State,
      exec (.frtRfrm 0) s = .next (answer (match s.frt.result with
          | .none => 0
          | .frame => 1
          | .badsum => 2
          | .failLen => 3
          | .failApi => 4
          | .failCap => 5) s)
      ∧ exec (.frtRfrm 1) s = .next (answer s.frt.len s)
      ∧ exec (.frtRfrm 2) s = .next (answer (s.frt.api.setWidth 16) s)
      ∧ exec (.frtRfrm 3) s = .next (answer (s.frt.paylen.setWidth 16) s)
      ∧ exec (.frtRfrm 4) s = .next (answer (s.frt.cks.setWidth 16) s)
      ∧ (∀ a : Byte, s.cfg.srcW ≤ 8 →
        (8 ≤ a.toNat ∧ a.toNat < 8 + s.cfg.srcW →
          exec (.frtRfrm a) s = .next (answer ((load .frtSrc (a.toNat - 8) s).setWidth 16) s))
        ∧ (16 ≤ a.toNat ∧ a.toNat < 16 + s.cfg.extraW →
          exec (.frtRfrm a) s = .next (answer ((load .frtExtra (a.toNat - 16) s).setWidth 16) s))
        ∧ (5 ≤ a.toNat ∧ a.toNat < 8 ∨ 8 + s.cfg.srcW ≤ a.toNat ∧ a.toNat < 16 ∨ 16 + s.cfg.extraW ≤ a.toNat →
          exec (.frtRfrm a) s = .next (raise .range s)))
      ∧ (∀ k : Byte,
        (k.toNat < s.cfg.payloadCap →
          exec (.frtRpay k) s = .next (answer ((load .frtPayload k.toNat s).setWidth 16) s))
        ∧ (s.cfg.payloadCap ≤ k.toNat → exec (.frtRpay k) s = .next (raise .range s)))
      ∧ exec .frtRstg s = .next (answer (match s.frt.stage with
          | .awaitStart => 0
          | .length => 1
          | .apiId => 2
          | .header => 3
          | .payload => 4
          | .checksum => 5
          | .failure => 6) s)

/-- 43 R274 to R276: FRT.WDST replaces one byte of the destination, byte 0 the least significant, and no other. -/
def Obligations.FrtEncoderStores : Prop :=
  commandIs .host 3 2 (fun a b => .frtWdst a b) ∧ commandIs .host 3 3 (fun _ b => .frtWopt b)
    ∧ commandIs .host 3 4 (fun a b => .frtWpay a b)
    ∧ ∀ (k b : Byte) (s : State),
      (k.toNat < s.cfg.dstW → s.cfg.dstW ≤ 8 →
        ∃ t, exec (.frtWdst k b) s = .next t
          ∧ t = answer 0 { s with frt := { s.frt with dst := t.frt.dst } }
          ∧ (t.frt.dst >>> (8 * k.toNat)).setWidth 8 = b
          ∧ ∀ j, j < 64 → j / 8 ≠ k.toNat → t.frt.dst.getLsbD j = s.frt.dst.getLsbD j)
      ∧ (s.cfg.dstW ≤ k.toNat → exec (.frtWdst k b) s = .next (raise .range s))
      ∧ exec (.frtWopt b) s = .next (answer 0 { s with frt := { s.frt with opt := b } })
      ∧ (k.toNat < s.cfg.payloadCap →
        ∃ t, exec (.frtWpay k b) s = .next t ∧ WritesOneCell .frtTx k.toNat b s t
          ∧ registers t = registers (answer 0 s))
      ∧ (s.cfg.payloadCap ≤ k.toNat → exec (.frtWpay k b) s = .next (raise .range s))

/-- 43 R277, 30 R119: the bytes emitted, contiguously, and the declared length answered; CAP and nothing emitted for a
size above the capacity. `body` is what the checksum covers. -/
def Obligations.FrtSendEmitsTheFrame : Prop :=
  commandIs .host 3 5 (fun a b => .frtSend (formLen9 a b))
    ∧ ∀ (n : BitVec 9) (s : State),
      (s.cfg.payloadCap < n.toNat → exec (.frtSend n) s = .next (raise .cap s))
      ∧ (n.toNat ≤ s.cfg.payloadCap → ∃ (len : BitVec 16) (body : List Byte),
        len = BitVec.ofNat 16 (3 + s.cfg.dstW + s.cfg.txMid.length + n.toNat)
        ∧ body = [s.cfg.txApi, s.cfg.txFid]
            ++ (List.range s.cfg.dstW).map (fun k => (s.frt.dst >>> (8 * (s.cfg.dstW - 1 - k))).setWidth 8)
            ++ s.cfg.txMid ++ [s.frt.opt] ++ (List.range n.toNat).map (fun k => load .frtTx k s)
        ∧ exec (.frtSend n) s = .next (answer len { s with frt := { s.frt with
            txlog := s.frt.txlog ++ [0x7E#8, (len >>> 8).setWidth 8, len.setWidth 8] ++ body
              ++ [BitVec.ofNat 8 (255 - (body.map BitVec.toNat).sum % 256)] } }))

/-- 43 R280: the decoder half and the queue; the encoder half, the logs and the memories keep what they hold. -/
def Obligations.FrtRstResetsTheDecoder : Prop :=
  commandIs .host 3 7 (fun _ _ => .frtRst)
    ∧ ∀ s : State, exec .frtRst s = .next (answer 0 { s with frt := { s.frt with
      stage := .awaitStart, sum := 0, len := 0, api := 0, paylen := 0, cks := 0, result := .none, rxfifo := [] } })

/-! ## Unit CPF -/

/-- 44 R311, R313, R314, R315: one byte, in each stage and variant. -/
def Obligations.CpfPushDecodesOneByte : Prop :=
  commandIs .host 4 0 (fun _ b => .cpfPush b)
    ∧ ∀ (b : Byte) (s : State),
      (s.cpf.stage = .awaitSize → 1 ≤ b.toNat ∧ b.toNat ≤ 32 →
        exec (.cpfPush b) s = .next (answer 0 { s with cpf := { s.cpf with
          valid := false, size := BitVec.ofNat 6 b.toNat, count := 0, icnt := 0, stage := .data
          chk := if s.cfg.cpfVariant = .xor then b else s.cpf.chk } }))
      ∧ (s.cpf.stage = .awaitSize → b.toNat = 0 ∨ 32 < b.toNat →
        exec (.cpfPush b) s = .next (answer 0 { s with cpf := { s.cpf with valid := false } }))
      ∧ (s.cpf.stage = .data → ∃ t, exec (.cpfPush b) s = .next t
        ∧ WritesOneCell .cpfBuf s.cpf.count.toNat b s t
        ∧ registers t = registers (answer 0 { s with cpf := { s.cpf with
            valid := false, count := s.cpf.count + 1
            chk := if s.cfg.cpfVariant = .xor then s.cpf.chk ^^^ b else s.cpf.chk
            stage := if s.cpf.count + 1 = s.cpf.size then .integrity else .data } }))
      ∧ (s.cpf.stage = .integrity → s.cfg.cpfVariant = .xor →
        exec (.cpfPush b) s = .next (answer (if s.cpf.chk ^^^ b = 0 then 1 else 0) { s with cpf := { s.cpf with
          chk := s.cpf.chk ^^^ b, stage := .awaitSize, valid := decide (s.cpf.chk ^^^ b = 0) } }))
      ∧ (s.cpf.stage = .integrity → s.cfg.cpfVariant = .crc32 → ∃ t, exec (.cpfPush b) s = .next t
        ∧ WritesOneCell .cpfBuf (s.cpf.size.toNat + s.cpf.icnt.toNat) b s t
        ∧ (s.cpf.icnt.toNat < 3 → registers t = registers (answer 0 { s with cpf := { s.cpf with
            valid := false, icnt := s.cpf.icnt + 1 } }))
        ∧ (s.cpf.icnt.toNat = 3 → ∃ good : Bool,
          (good = true ↔
            (crc32 (BitVec.ofNat 8 s.cpf.size.toNat :: loadMany .cpfBuf 0 s.cpf.size.toNat t)).toNat
              = (load .cpfBuf s.cpf.size.toNat t).toNat + 256 * (load .cpfBuf (s.cpf.size.toNat + 1) t).toNat
                + 65536 * (load .cpfBuf (s.cpf.size.toNat + 2) t).toNat
                + 16777216 * (load .cpfBuf (s.cpf.size.toNat + 3) t).toNat)
          ∧ registers t = registers (answer (if good then 1 else 0) { s with cpf := { s.cpf with
              valid := good, icnt := 0, stage := .awaitSize } })))

/-- 44 R318, R319, R322, R323. -/
def Obligations.CpfReadsAndReset : Prop :=
  commandIs .host 4 1 (fun _ _ => .cpfRsize) ∧ commandIs .host 4 2 (fun a _ => .cpfRbuf a)
    ∧ commandIs .host 4 5 (fun _ _ => .cpfRst) ∧ commandIs .host 4 6 (fun _ _ => .cpfRstg)
    ∧ ∀ s : State,
      exec .cpfRsize s =
        .next (answer (BitVec.ofNat 16 ((if s.cpf.valid then 0x8000 else 0) + s.cpf.size.toNat)) s)
      ∧ (∀ k : Byte,
        (k.toNat ≤ 35 → exec (.cpfRbuf k) s = .next (answer ((load .cpfBuf k.toNat s).setWidth 16) s))
        ∧ (35 < k.toNat → exec (.cpfRbuf k) s = .next (raise .range s)))
      ∧ exec .cpfRst s = .next (answer 0 { s with cpf := { s.cpf with
          stage := .awaitSize, size := 0, count := 0, icnt := 0, chk := 0, valid := false } })
      ∧ exec .cpfRstg s = .next (answer (match s.cpf.stage with
          | .awaitSize => 0
          | .data => 1
          | .integrity => 2) s)

/-- 44 R320, R321: the bytes emitted for each variant, and how many. -/
def Obligations.CpfEncoder : Prop :=
  commandIs .host 4 3 (fun a b => .cpfWpay a b) ∧ commandIs .host 4 4 (fun _ b => .cpfEnc b)
    ∧ (∀ (k b : Byte) (s : State),
      (k.toNat < 32 → ∃ t, exec (.cpfWpay k b) s = .next t ∧ WritesOneCell .cpfTx k.toNat b s t
        ∧ registers t = registers (answer 0 s))
      ∧ (32 ≤ k.toNat → exec (.cpfWpay k b) s = .next (raise .range s)))
    ∧ ∀ (n : Byte) (s : State) (p : List Byte) (c : BitVec 32), p = (List.range n.toNat).map (fun k => load .cpfTx k s) →
      c = crc32 (n :: p) →
      (n.toNat = 0 ∨ 32 < n.toNat → exec (.cpfEnc n) s = .next (raise .range s))
      ∧ (1 ≤ n.toNat ∧ n.toNat ≤ 32 → s.cfg.cpfVariant = .xor → exec (.cpfEnc n) s =
        .next (answer (BitVec.ofNat 16 (n.toNat + 2)) { s with cpf := { s.cpf with
          txlog := s.cpf.txlog ++ (n :: p) ++ [p.foldl (fun x y => x ^^^ y) n] } }))
      ∧ (1 ≤ n.toNat ∧ n.toNat ≤ 32 → s.cfg.cpfVariant = .crc32 → exec (.cpfEnc n) s =
        .next (answer (BitVec.ofNat 16 (n.toNat + 5)) { s with cpf := { s.cpf with
          txlog := s.cpf.txlog ++ (n :: p)
            ++ [c.setWidth 8, (c >>> 8).setWidth 8, (c >>> 16).setWidth 8, (c >>> 24).setWidth 8] } }))

/-- 44 R325(a), R316: the bytes that CPF.ENC emits, pushed in order into a decoder of the same variant that awaits a size,
answer 0 but for the last, which answers 1; size and payload are then the encoder's. `s` is the encoder's state and `d`
the decoder's. -/
def Obligations.PacketRoundTrip : Prop :=
  ∀ (s t d : State) (n : Byte) (packet : List Byte), exec (.cpfEnc n) s = .next t → t.resp.status = .ok →
    t.cpf.txlog = s.cpf.txlog ++ packet → d.cfg.cpfVariant = s.cfg.cpfVariant → d.cpf.stage = .awaitSize →
    (∀ k, k < packet.length → ∃ u, runOps ((packet.take k).map .cpfPush) d = some u
      ∧ (0 < k → u.resp = { status := .ok, value := 0 }))
    ∧ ∃ u, runOps (packet.map .cpfPush) d = some u ∧ u.resp = { status := .ok, value := 1 }
      ∧ u.cpf.valid = true ∧ u.cpf.size.toNat = n.toNat
      ∧ ∀ k, k < n.toNat → load .cpfBuf k u = load .cpfTx k s

/-- 44 R325(b), with the CRC32 of R316 in that variant: a packet with one payload byte changed is not signalled valid by any of its bytes. -/
def Obligations.ChangedPacketIsRejected : Prop :=
  ∀ (s t d : State) (n : Byte) (packet : List Byte) (j : Nat) (b : Byte), exec (.cpfEnc n) s = .next t →
    t.resp.status = .ok → t.cpf.txlog = s.cpf.txlog ++ packet → d.cfg.cpfVariant = s.cfg.cpfVariant →
    d.cpf.stage = .awaitSize → 1 ≤ j → j ≤ n.toNat → packet[j]? ≠ some b →
    ∀ k, 0 < k → k ≤ packet.length → ∃ u, runOps (((packet.set j b).take k).map .cpfPush) d = some u
      ∧ u.resp = { status := .ok, value := 0 } ∧ u.cpf.valid = false

/-! ## Unit SYS -/

/-- 45 R340, R342, R343, R344. -/
def Obligations.SysOperations : Prop :=
  commandIs .host 15 0 (fun _ _ => .sysNop) ∧ commandIs .host 15 2 (fun _ _ => .sysRerr)
    ∧ commandIs .host 15 3 (fun _ b => .sysClrerr (formMask b)) ∧ commandIs .host 15 4 (fun _ _ => .sysId)
    ∧ ∀ s : State,
      exec .sysNop s = .next (answer 0 s)
      ∧ exec .sysRerr s = .next (answer (s.sys.err.setWidth 16) s)
      ∧ (∀ m : BitVec 6, exec (.sysClrerr m) s =
        .next (answer ((s.sys.err &&& ~~~m).setWidth 16) { s with sys := { err := s.sys.err &&& ~~~m } }))
      ∧ exec .sysId s = .next (answer 0x4F53 s)
end

