-- ==== Sys2Proof/Laws/State.lean ====
section
/-! SUPPORT. Each field of the state after each of the shared updates (Sys2Proof/Machine/Ops.lean), so that no proof
unfolds a record update. -/

namespace Sys2Proof.Machine

/-! ## answer -/

@[simp] theorem answer_cfg (v : Value) (s : State) : (answer v s).cfg = s.cfg := rfl
@[simp] theorem answer_bsf (v : Value) (s : State) : (answer v s).bsf = s.bsf := rfl
@[simp] theorem answer_mice (v : Value) (s : State) : (answer v s).mice = s.mice := rfl
@[simp] theorem answer_afsk (v : Value) (s : State) : (answer v s).afsk = s.afsk := rfl
@[simp] theorem answer_frt (v : Value) (s : State) : (answer v s).frt = s.frt := rfl
@[simp] theorem answer_cpf (v : Value) (s : State) : (answer v s).cpf = s.cpf := rfl
@[simp] theorem answer_sys (v : Value) (s : State) : (answer v s).sys = s.sys := rfl
@[simp] theorem answer_resp (v : Value) (s : State) : (answer v s).resp = { status := .ok, value := v } := rfl
@[simp] theorem answer_inputs (v : Value) (s : State) : (answer v s).inputs = s.inputs := rfl
@[simp] theorem answer_epoch (v : Value) (s : State) : (answer v s).epoch = s.epoch := rfl

/-! ## raise -/

@[simp] theorem raise_cfg (st : Status) (s : State) : (raise st s).cfg = s.cfg := rfl
@[simp] theorem raise_bsf (st : Status) (s : State) : (raise st s).bsf = s.bsf := rfl
@[simp] theorem raise_mice (st : Status) (s : State) : (raise st s).mice = s.mice := rfl
@[simp] theorem raise_afsk (st : Status) (s : State) : (raise st s).afsk = s.afsk := rfl
@[simp] theorem raise_frt (st : Status) (s : State) : (raise st s).frt = s.frt := rfl
@[simp] theorem raise_cpf (st : Status) (s : State) : (raise st s).cpf = s.cpf := rfl
@[simp] theorem raise_sys (st : Status) (s : State) : (raise st s).sys = { err := s.sys.err ||| st.sticky } := rfl
@[simp] theorem raise_resp (st : Status) (s : State) : (raise st s).resp = { status := st, value := 0 } := rfl
@[simp] theorem raise_inputs (st : Status) (s : State) : (raise st s).inputs = s.inputs := rfl
@[simp] theorem raise_epoch (st : Status) (s : State) : (raise st s).epoch = s.epoch := rfl

/-! ## withCells, store, storeMany -/

@[simp] theorem withCells_cfg (sp : Space) (m : Mem) (s : State) : (s.withCells sp m).cfg = s.cfg := by
  cases sp <;> rfl
@[simp] theorem withCells_afsk (sp : Space) (m : Mem) (s : State) : (s.withCells sp m).afsk = s.afsk := by
  cases sp <;> rfl
@[simp] theorem withCells_sys (sp : Space) (m : Mem) (s : State) : (s.withCells sp m).sys = s.sys := by
  cases sp <;> rfl
@[simp] theorem withCells_resp (sp : Space) (m : Mem) (s : State) : (s.withCells sp m).resp = s.resp := by
  cases sp <;> rfl
@[simp] theorem withCells_inputs (sp : Space) (m : Mem) (s : State) : (s.withCells sp m).inputs = s.inputs := by
  cases sp <;> rfl
@[simp] theorem withCells_epoch (sp : Space) (m : Mem) (s : State) : (s.withCells sp m).epoch = s.epoch := by
  cases sp <;> rfl
@[simp] theorem store_cfg (sp : Space) (a : Nat) (v : Byte) (s : State) : (store sp a v s).cfg = s.cfg :=
  withCells_cfg sp _ s
@[simp] theorem store_afsk (sp : Space) (a : Nat) (v : Byte) (s : State) : (store sp a v s).afsk = s.afsk :=
  withCells_afsk sp _ s
@[simp] theorem store_sys (sp : Space) (a : Nat) (v : Byte) (s : State) : (store sp a v s).sys = s.sys :=
  withCells_sys sp _ s
@[simp] theorem store_resp (sp : Space) (a : Nat) (v : Byte) (s : State) : (store sp a v s).resp = s.resp :=
  withCells_resp sp _ s
@[simp] theorem store_inputs (sp : Space) (a : Nat) (v : Byte) (s : State) : (store sp a v s).inputs = s.inputs :=
  withCells_inputs sp _ s
@[simp] theorem store_epoch (sp : Space) (a : Nat) (v : Byte) (s : State) : (store sp a v s).epoch = s.epoch :=
  withCells_epoch sp _ s
@[simp] theorem storeMany_cfg (sp : Space) (a : Nat) (v : List Byte) (s : State) : (storeMany sp a v s).cfg = s.cfg :=
  withCells_cfg sp _ s
@[simp] theorem storeMany_afsk (sp : Space) (a : Nat) (v : List Byte) (s : State) : (storeMany sp a v s).afsk = s.afsk :=
  withCells_afsk sp _ s
@[simp] theorem storeMany_sys (sp : Space) (a : Nat) (v : List Byte) (s : State) : (storeMany sp a v s).sys = s.sys :=
  withCells_sys sp _ s
@[simp] theorem storeMany_resp (sp : Space) (a : Nat) (v : List Byte) (s : State) : (storeMany sp a v s).resp = s.resp :=
  withCells_resp sp _ s
@[simp] theorem storeMany_inputs (sp : Space) (a : Nat) (v : List Byte) (s : State) : (storeMany sp a v s).inputs = s.inputs :=
  withCells_inputs sp _ s
@[simp] theorem storeMany_epoch (sp : Space) (a : Nat) (v : List Byte) (s : State) : (storeMany sp a v s).epoch = s.epoch :=
  withCells_epoch sp _ s

/-- The registers of BSF that a store in a byte space leaves. -/
theorem withCells_bsf (sp : Space) (m : Mem) (s : State) :
    (s.withCells sp m).bsf = { s.bsf with addr := (s.withCells sp m).bsf.addr, msg := (s.withCells sp m).bsf.msg } := by
  cases sp <;> rfl

@[simp] theorem withCells_bits (sp : Space) (m : Mem) (s : State) : (s.withCells sp m).bsf.bits = s.bsf.bits := by
  cases sp <;> rfl

@[simp] theorem cells_withCells_same (sp : Space) (m : Mem) (s : State) : (s.withCells sp m).cells sp = m := by
  cases sp <;> rfl

theorem cells_withCells_other {sp sp' : Space} (h : sp' ≠ sp) (m : Mem) (s : State) :
    (s.withCells sp m).cells sp' = s.cells sp' := by
  cases sp <;> cases sp' <;> first | rfl | exact absurd rfl h

@[simp] theorem cells_answer (v : Value) (s : State) (sp : Space) : (answer v s).cells sp = s.cells sp := by
  cases sp <;> rfl

@[simp] theorem cells_raise (st : Status) (s : State) (sp : Space) : (raise st s).cells sp = s.cells sp := by
  cases sp <;> rfl

@[simp] theorem load_answer (v : Value) (s : State) (sp : Space) (a : Nat) : load sp a (answer v s) = load sp a s := by
  simp [load]

@[simp] theorem load_raise (st : Status) (s : State) (sp : Space) (a : Nat) :
    load sp a (raise st s) = load sp a s := by
  simp [load]

@[simp] theorem loadBit_answer (v : Value) (s : State) (k : Nat) : loadBit k (answer v s) = loadBit k s := rfl

@[simp] theorem loadBit_raise (st : Status) (s : State) (k : Nat) : loadBit k (raise st s) = loadBit k s := rfl

end Sys2Proof.Machine
end

