-- ==== Sys2Proof/Laws/Memory.lean ====
section
/-! SUPPORT. The laws of memory: what a cell reads after a write, the canonical form, and that every memory operation
keeps it. -/

namespace Sys2Proof.Machine

variable {α : Type}

/-! ## One cell -/

/-- What a cell holds after a write. -/
theorem cellGet_cellSet (m : List (Nat × α)) (a : Nat) (v : α) (b : Nat) :
    cellGet (cellSet m a v) b = if b = a then some v else cellGet m b := by
  induction m with
  | nil => simp [cellSet, cellGet, eq_comm]
  | cons kw m ih =>
    obtain ⟨k, w⟩ := kw
    simp only [cellSet]
    split
    · by_cases h : b = a
      · simp [cellGet, h]
      · simp [cellGet, h, Ne.symm h]
    · split
      · subst k; by_cases h : b = a
        · simp [cellGet, h]
        · simp [cellGet, h, Ne.symm h]
      · simp only [cellGet, ih]
        by_cases h : k = b
        · have : b ≠ a := by omega
          simp [h, this]
        · simp [h]

@[simp] theorem cellGet_cellSet_same (m : List (Nat × α)) (a : Nat) (v : α) : cellGet (cellSet m a v) a = some v := by
  simp [cellGet_cellSet]

theorem cellGet_cellSet_other (m : List (Nat × α)) {a b : Nat} (v : α) (h : b ≠ a) :
    cellGet (cellSet m a v) b = cellGet m b := by
  simp [cellGet_cellSet, h]

/-! ## Consecutive cells -/

/-- What a cell holds after a write of consecutive cells. -/
theorem cellGet_cellSetMany (m : List (Nat × α)) (a : Nat) (vs : List α) (b : Nat) :
    cellGet (cellSetMany m a vs) b = if a ≤ b ∧ b < a + vs.length then vs[b - a]? else cellGet m b := by
  induction vs generalizing m a with
  | nil => simp [cellSetMany]
  | cons v vs ih =>
    simp only [cellSetMany, ih, cellGet_cellSet, List.length_cons]
    by_cases h : b = a
    · subst h; simp
    · by_cases h2 : a + 1 ≤ b ∧ b < a + 1 + vs.length
      · have h3 : a ≤ b ∧ b < a + (vs.length + 1) := by omega
        have h4 : b - a = (b - (a + 1)) + 1 := by omega
        simp [h2, h3, h4]
      · have h3 : ¬ (a ≤ b ∧ b < a + (vs.length + 1)) := by omega
        rw [if_neg h2, if_neg h3, if_neg h]

/-! ## The canonical form -/

/-- The head of a memory in canonical form is the lowest address. -/
theorem cellsWf_cons (k : Nat) (w : α) (m : List (Nat × α)) :
    cellsWf ((k, w) :: m) = true ↔ (∀ kv ∈ m, k < kv.1) ∧ cellsWf m = true := by
  induction m generalizing k w with
  | nil => simp [cellsWf]
  | cons bv m ih =>
    obtain ⟨b, v⟩ := bv
    simp only [cellsWf, Bool.and_eq_true, decide_eq_true_eq]
    rw [ih]
    constructor
    · rintro ⟨h1, h2, h3⟩
      refine ⟨?_, h2, h3⟩
      intro kv hkv
      rcases List.mem_cons.1 hkv with rfl | h
      · exact h1
      · exact lt_trans h1 (h2 kv h)
    · rintro ⟨h1, h2, h3⟩
      exact ⟨h1 (b, v) (by simp), h2, h3⟩

/-- The addresses after a write: the old ones and the written one. -/
theorem mem_cellSet {m : List (Nat × α)} {a : Nat} {v : α} {kv : Nat × α} (h : kv ∈ cellSet m a v) :
    kv = (a, v) ∨ kv ∈ m := by
  induction m with
  | nil => simp [cellSet] at h; simp [h]
  | cons kw m ih =>
    obtain ⟨k, w⟩ := kw
    simp only [cellSet] at h
    split at h
    · rcases List.mem_cons.1 h with h | h <;> simp [h]
    · split at h
      · rcases List.mem_cons.1 h with h | h <;> simp [h]
      · rcases List.mem_cons.1 h with h | h
        · simp [h]
        · rcases ih h with h | h <;> simp [h]

/-- A write keeps the canonical form. -/
theorem cellSet_wf {m : List (Nat × α)} (a : Nat) (v : α) (h : cellsWf m = true) : cellsWf (cellSet m a v) = true := by
  induction m with
  | nil => simp [cellSet, cellsWf]
  | cons kw m ih =>
    obtain ⟨k, w⟩ := kw
    have hc := (cellsWf_cons k w m).1 h
    simp only [cellSet]
    split
    · rename_i hak
      rw [cellsWf_cons]
      refine ⟨?_, h⟩
      intro kv hkv
      rcases List.mem_cons.1 hkv with rfl | h'
      · exact hak
      · exact lt_trans hak (hc.1 kv h')
    · split
      · rename_i hak; subst hak
        rw [cellsWf_cons]; exact hc
      · rw [cellsWf_cons]
        refine ⟨?_, ih hc.2⟩
        intro kv hkv
        rcases mem_cellSet hkv with rfl | h'
        · show k < a; omega
        · exact hc.1 kv h'

/-- A write of consecutive cells keeps the canonical form. -/
theorem cellSetMany_wf {m : List (Nat × α)} (a : Nat) (vs : List α) (h : cellsWf m = true) :
    cellsWf (cellSetMany m a vs) = true := by
  induction vs generalizing m a with
  | nil => exact h
  | cons v vs ih => exact ih (a + 1) (cellSet_wf a v h)

/-- A write at an address that a bound accepts keeps the bound. -/
theorem cellSet_within {p : Nat → Bool} {m : List (Nat × α)} {a : Nat} (v : α) (ha : p a = true)
    (h : cellsWithin p m = true) : cellsWithin p (cellSet m a v) = true := by
  simp only [cellsWithin, List.all_eq_true] at *
  intro kv hkv
  rcases mem_cellSet hkv with rfl | h'
  · exact ha
  · exact h kv h'

/-- A write of consecutive cells at addresses that a bound accepts keeps the bound. -/
theorem cellSetMany_within {p : Nat → Bool} {m : List (Nat × α)} {a : Nat} (vs : List α)
    (ha : ∀ k, a ≤ k → k < a + vs.length → p k = true) (h : cellsWithin p m = true) :
    cellsWithin p (cellSetMany m a vs) = true := by
  induction vs generalizing m a with
  | nil => exact h
  | cons v vs ih =>
    refine ih (fun k h1 h2 => ha k (by omega) (by simp only [List.length_cons]; omega)) ?_
    exact cellSet_within v (ha a le_rfl (by simp)) h

/-- A memory in canonical form is determined by what its cells hold, so that equal memories are equal data. -/
theorem cells_ext {m n : List (Nat × α)} (hm : cellsWf m = true) (hn : cellsWf n = true)
    (h : ∀ a, cellGet m a = cellGet n a) : m = n := by
  have none_of_lt : ∀ {l : List (Nat × α)} {a : Nat}, (∀ kv ∈ l, a < kv.1) → cellGet l a = none := by
    intro l a hl
    induction l with
    | nil => rfl
    | cons kw l ih =>
      obtain ⟨k, w⟩ := kw
      have hk : k ≠ a := by have := hl (k, w) (by simp); simp at this; omega
      simp only [cellGet, hk, if_false]
      exact ih fun kv hkv => hl kv (by simp [hkv])
  induction m generalizing n with
  | nil =>
    cases n with
    | nil => rfl
    | cons kw n => simpa [cellGet] using h kw.1
  | cons kw m ih =>
    obtain ⟨k, w⟩ := kw
    cases n with
    | nil => simpa [cellGet] using h k
    | cons lx n =>
      obtain ⟨l, x⟩ := lx
      have hm' := (cellsWf_cons k w m).1 hm
      have hn' := (cellsWf_cons l x n).1 hn
      have hkl : k = l := by
        rcases Nat.lt_trichotomy k l with hlt | heq | hgt
        · have h1 : cellGet ((l, x) :: n) k = none := none_of_lt (by
            intro kv hkv
            rcases List.mem_cons.1 hkv with rfl | h'
            · exact hlt
            · exact lt_trans hlt (hn'.1 kv h'))
          have := h k; rw [h1] at this; simp [cellGet] at this
        · exact heq
        · have h1 : cellGet ((k, w) :: m) l = none := none_of_lt (by
            intro kv hkv
            rcases List.mem_cons.1 hkv with rfl | h'
            · exact hgt
            · exact lt_trans hgt (hm'.1 kv h'))
          have := h l; rw [h1] at this; simp [cellGet] at this
      subst hkl
      have hwx : w = x := by have := h k; simpa [cellGet] using this
      subst hwx
      have : m = n := ih hm'.2 hn'.2 (fun a => by
        by_cases ha : k = a
        · subst ha; rw [none_of_lt hm'.1, none_of_lt hn'.1]
        · have := h a; simpa [cellGet, ha] using this)
      rw [this]

/-! ## Loads and stores -/

/-- A store is seen by a load of its own cell and by no other load of a byte cell. -/
theorem load_store (sp : Space) (a : Nat) (v : Byte) (s : State) (sp' : Space) (a' : Nat) :
    load sp' a' (store sp a v s) = if sp' = sp ∧ a' = a then v else load sp' a' s := by
  by_cases h : sp' = sp
  · subst h
    by_cases h2 : a' = a
    · simp [load, store, h2]
    · simp [load, store, cellGet_cellSet, h2]
  · simp [load, store, cells_withCells_other h, h]

/-- What a byte cell reads after a store of consecutive cells. -/
theorem load_storeMany (sp : Space) (a : Nat) (vs : List Byte) (s : State) (sp' : Space) (a' : Nat) :
    load sp' a' (storeMany sp a vs s)
      = if sp' = sp ∧ a ≤ a' ∧ a' < a + vs.length then vs.getD (a' - a) 0 else load sp' a' s := by
  by_cases h : sp' = sp
  · subst h
    by_cases h2 : a ≤ a' ∧ a' < a + vs.length
    · have h3 : a' - a < vs.length := by omega
      simp [load, storeMany, cellGet_cellSetMany, h2, h3]
    · simp [load, storeMany, cellGet_cellSetMany, h2]
  · simp [load, storeMany, cells_withCells_other h, h]

@[simp] theorem loadBit_store (sp : Space) (a : Nat) (v : Byte) (s : State) (k : Nat) :
    loadBit k (store sp a v s) = loadBit k s := by
  simp [loadBit, store]

@[simp] theorem loadBit_storeMany (sp : Space) (a : Nat) (vs : List Byte) (s : State) (k : Nat) :
    loadBit k (storeMany sp a vs s) = loadBit k s := by
  simp [loadBit, storeMany]

/-! ## The canonical form of the whole state -/

/-- Every memory of the state is in canonical form. -/
def State.memoriesWf (s : State) : Prop := cellsWf s.bsf.bits = true ∧ ∀ sp, cellsWf (s.cells sp) = true

/-- The reset state's memories are in canonical form. -/
theorem resetWith_memoriesWf (c : Config) (epoch : Nat) : (State.resetWith c epoch).memoriesWf :=
  ⟨rfl, fun sp => by cases sp <;> rfl⟩

/-- The reset state's memories are in canonical form. -/
theorem reset_memoriesWf : State.reset.memoriesWf := resetWith_memoriesWf _ _

/-- Replacing a memory by one in canonical form keeps the form. -/
theorem withCells_memoriesWf {s : State} (sp : Space) {m : Mem} (hm : cellsWf m = true) (h : s.memoriesWf) :
    (s.withCells sp m).memoriesWf := by
  refine ⟨by simpa using h.1, fun sp' => ?_⟩
  by_cases h2 : sp' = sp
  · subst h2; simpa using hm
  · rw [cells_withCells_other h2]; exact h.2 sp'

/-- A store keeps the canonical form. -/
theorem store_memoriesWf {s : State} (sp : Space) (a : Nat) (v : Byte) (h : s.memoriesWf) :
    (store sp a v s).memoriesWf :=
  withCells_memoriesWf sp (cellSet_wf a v (h.2 sp)) h

/-- A store of consecutive cells keeps the canonical form. -/
theorem storeMany_memoriesWf {s : State} (sp : Space) (a : Nat) (vs : List Byte) (h : s.memoriesWf) :
    (storeMany sp a vs s).memoriesWf :=
  withCells_memoriesWf sp (cellSetMany_wf a vs (h.2 sp)) h

/-- An answer keeps the canonical form. -/
theorem answer_memoriesWf {s : State} (v : Value) (h : s.memoriesWf) : (answer v s).memoriesWf :=
  ⟨h.1, fun sp => by simpa using h.2 sp⟩

/-- A refusal keeps the canonical form. -/
theorem raise_memoriesWf {s : State} (st : Status) (h : s.memoriesWf) : (raise st s).memoriesWf :=
  ⟨h.1, fun sp => by simpa using h.2 sp⟩

end Sys2Proof.Machine
end

