-- ==== Sys2Proof/Laws/Bsf.lean ====
section
/-! SUPPORT. What the primitives of unit BSF do, said once: a run of appends, and stuffed bytes as one run of appends with
the accumulator and the run length computed beside it. -/

namespace Sys2Proof.Machine

/-- Several appends. -/
def appendAll (cap : Nat) (b : Bsf) (v : List Bool) : Bsf := v.foldl (append cap) b

@[simp] theorem appendAll_nil (cap : Nat) (b : Bsf) : appendAll cap b [] = b := rfl

theorem appendAll_cons (cap : Nat) (b : Bsf) (x : Bool) (v : List Bool) :
    appendAll cap b (x :: v) = appendAll cap (append cap b x) v := rfl

theorem appendAll_append (cap : Nat) (b : Bsf) (v w : List Bool) :
    appendAll cap b (v ++ w) = appendAll cap (appendAll cap b v) w := List.foldl_append

/-- The accumulator and the run length pass through an append. -/
theorem append_with (cap : Nat) (b : Bsf) (c : BitVec 16) (n : BitVec 3) (x : Bool) :
    append cap { b with crc := c, ones := n } x = { append cap b x with crc := c, ones := n } := by
  simp only [append]; split <;> rfl

/-- The accumulator and the run length pass through a run of appends. -/
theorem appendAll_with (cap : Nat) (b : Bsf) (c : BitVec 16) (n : BitVec 3) (v : List Bool) :
    appendAll cap { b with crc := c, ones := n } v = { appendAll cap b v with crc := c, ones := n } := by
  induction v generalizing b with
  | nil => rfl
  | cons x v ih => rw [appendAll_cons, append_with, ih, appendAll_cons]

@[simp] theorem append_crc (cap : Nat) (b : Bsf) (x : Bool) : (append cap b x).crc = b.crc := by
  simp only [append]; split <;> rfl

@[simp] theorem append_ones (cap : Nat) (b : Bsf) (x : Bool) : (append cap b x).ones = b.ones := by
  simp only [append]; split <;> rfl

/-- What a run of appends does: the bits that fit are written after the sequence, the length stops at the capacity, the
overflow flag is set when some do not fit, and nothing else changes. -/
theorem appendAll_spec (cap : Nat) (b : Bsf) (v : List Bool) (hc : cap ≤ 65535) (hb : b.bitlen.toNat ≤ cap) :
    (appendAll cap b v).bitlen.toNat = min cap (b.bitlen.toNat + v.length)
      ∧ (∀ k, cellGet (appendAll cap b v).bits k =
          if b.bitlen.toNat ≤ k ∧ k < min cap (b.bitlen.toNat + v.length) then v[k - b.bitlen.toNat]?
          else cellGet b.bits k)
      ∧ appendAll cap b v = { b with
          bits := (appendAll cap b v).bits, bitlen := (appendAll cap b v).bitlen
          ovf := b.ovf || decide (cap < b.bitlen.toNat + v.length) } := by
  induction v generalizing b with
  | nil =>
    refine ⟨?_, ?_, ?_⟩
    · simp only [appendAll_nil, List.length_nil]; omega
    · intro k
      have : ¬ (b.bitlen.toNat ≤ k ∧ k < min cap (b.bitlen.toNat + ([] : List Bool).length)) := by
        simp only [List.length_nil]; omega
      rw [if_neg this, appendAll_nil]
    · have : ¬ (cap < b.bitlen.toNat + ([] : List Bool).length) := by simp only [List.length_nil]; omega
      simp only [appendAll_nil, this, decide_false, Bool.or_false]
  | cons x v ih =>
    rw [appendAll_cons]
    by_cases hlt : b.bitlen.toNat < cap
    · have e : append cap b x
          = { b with bits := cellSet b.bits b.bitlen.toNat x, bitlen := b.bitlen + 1 } := by
        simp [append, hlt]
      have hl : (b.bitlen + 1).toNat = b.bitlen.toNat + 1 := by
        rw [BitVec.toNat_add]; simp; omega
      obtain ⟨h1, h2, h3⟩ := ih { b with bits := cellSet b.bits b.bitlen.toNat x, bitlen := b.bitlen + 1 }
        (by simp only [hl]; omega)
      rw [← e] at h1 h2 h3
      simp only [e] at h1 h2 h3 ⊢
      rw [hl] at h1 h2 h3
      refine ⟨?_, ?_, ?_⟩
      · rw [h1]; simp only [List.length_cons]; omega
      · intro k
        rw [h2 k, cellGet_cellSet]
        simp only [List.length_cons]
        by_cases hk : k = b.bitlen.toNat
        · subst hk
          have a1 : ¬ (b.bitlen.toNat + 1 ≤ b.bitlen.toNat
              ∧ b.bitlen.toNat < min cap (b.bitlen.toNat + 1 + v.length)) := by omega
          have a2 : b.bitlen.toNat ≤ b.bitlen.toNat
              ∧ b.bitlen.toNat < min cap (b.bitlen.toNat + (v.length + 1)) := by omega
          rw [if_neg a1, if_pos a2]; simp
        · by_cases hk2 : b.bitlen.toNat + 1 ≤ k ∧ k < min cap (b.bitlen.toNat + 1 + v.length)
          · have a2 : b.bitlen.toNat ≤ k ∧ k < min cap (b.bitlen.toNat + (v.length + 1)) := by omega
            have a3 : k - b.bitlen.toNat = (k - (b.bitlen.toNat + 1)) + 1 := by omega
            rw [if_pos hk2, if_pos a2, a3]; simp
          · have a2 : ¬ (b.bitlen.toNat ≤ k ∧ k < min cap (b.bitlen.toNat + (v.length + 1))) := by omega
            rw [if_neg hk2, if_neg a2, if_neg hk]
      · rw [h3]
        have : (cap < b.bitlen.toNat + 1 + v.length) ↔ (cap < b.bitlen.toNat + (x :: v).length) := by
          simp only [List.length_cons]; omega
        simp only [this]
    · have hcap : b.bitlen.toNat = cap := by omega
      have e : append cap b x = { b with ovf := true } := by simp [append, hlt]
      obtain ⟨h1, h2, h3⟩ := ih { b with ovf := true } (by simpa using hb)
      rw [← e] at h1 h2 h3
      simp only [e] at h1 h2 h3 ⊢
      refine ⟨?_, ?_, ?_⟩
      · rw [h1]; simp only [List.length_cons]; omega
      · intro k
        rw [h2 k]
        have a1 : ¬ (b.bitlen.toNat ≤ k ∧ k < min cap (b.bitlen.toNat + v.length)) := by omega
        have a2 : ¬ (b.bitlen.toNat ≤ k ∧ k < min cap (b.bitlen.toNat + (x :: v).length)) := by omega
        rw [if_neg a1, if_neg a2]
      · rw [h3]
        have : cap < b.bitlen.toNat + (x :: v).length := by simp only [List.length_cons]; omega
        simp only [this, decide_true, Bool.true_or, Bool.or_true]

/-- A run of appends keeps the canonical form of the bit memory. -/
theorem appendAll_bits_wf (cap : Nat) (b : Bsf) (v : List Bool) (h : cellsWf b.bits = true) :
    cellsWf (appendAll cap b v).bits = true := by
  induction v generalizing b with
  | nil => exact h
  | cons x v ih =>
    rw [appendAll_cons]
    refine ih _ ?_
    simp only [append]; split
    · exact cellSet_wf _ _ h
    · exact h

/-- A run of appends writes below the capacity only. -/
theorem appendAll_bits_within (cap : Nat) (b : Bsf) (v : List Bool)
    (h : cellsWithin (fun k => decide (k < cap)) b.bits = true) :
    cellsWithin (fun k => decide (k < cap)) (appendAll cap b v).bits = true := by
  induction v generalizing b with
  | nil => exact h
  | cons x v ih =>
    rw [appendAll_cons]
    refine ih _ ?_
    simp only [append]; split
    · rename_i hlt; exact cellSet_within _ (by simpa using hlt) h
    · exact h

/-! ## Stuffed bytes -/

/-- One turn of the loop of `addByte`, as a run of appends with the accumulator and the run length beside it. -/
theorem addBit_eq (cap : Nat) (b : Bsf) (x : Bool) (h : b.ones.toNat ≤ 4) :
    addBit cap b x = { appendAll cap b (stuff b.ones.toNat [x]) with
      crc := crcBit b.crc x, ones := BitVec.ofNat 3 (runAfter b.ones.toNat [x]) } := by
  cases x with
  | false => simp [addBit, stuff, runAfter, appendAll_cons]
  | true =>
    have h5 : b.ones + 1 = 5 ↔ b.ones.toNat = 4 := by
      constructor
      · intro h1
        have := congrArg BitVec.toNat h1
        rw [BitVec.toNat_add] at this; simp at this; omega
      · intro h1
        apply BitVec.eq_of_toNat_eq
        rw [BitVec.toNat_add, h1]; rfl
    have h1 : addBit cap b true
        = if b.ones + 1 = 5 then { append cap (append cap b true) false with crc := crcBit b.crc true, ones := 0 }
          else { append cap b true with crc := crcBit b.crc true, ones := b.ones + 1 } := by
      simp only [addBit, append_crc, append_ones, append_with, if_true]
    rw [h1]
    by_cases h4 : b.ones.toNat = 4
    · rw [if_pos (h5.2 h4)]; simp [stuff, runAfter, appendAll_cons, h4]
    · rw [if_neg (fun h => h4 (h5.1 h))]
      have h6 : b.ones + 1 = BitVec.ofNat 3 (b.ones.toNat + 1) := by
        apply BitVec.eq_of_toNat_eq; simp [BitVec.toNat_add]
      simp only [stuff, runAfter, if_neg h4, appendAll_cons, appendAll_nil, h6]

/-- The run length stays below five. -/
theorem runAfter_le (n : Nat) (v : List Bool) (h : n ≤ 4) : runAfter n v ≤ 4 := by
  induction v generalizing n with
  | nil => exact h
  | cons x v ih =>
    cases x with
    | false => exact ih 0 (by omega)
    | true =>
      simp only [runAfter]; split
      · exact ih 0 (by omega)
      · exact ih (n + 1) (by omega)

theorem runAfter_append (n : Nat) (v w : List Bool) : runAfter n (v ++ w) = runAfter (runAfter n v) w := by
  induction v generalizing n with
  | nil => rfl
  | cons x v ih =>
    cases x with
    | false => exact ih 0
    | true => simp only [List.cons_append, runAfter]; split <;> exact ih _

theorem stuff_append (n : Nat) (v w : List Bool) : stuff n (v ++ w) = stuff n v ++ stuff (runAfter n v) w := by
  induction v generalizing n with
  | nil => rfl
  | cons x v ih =>
    cases x with
    | false => simp [stuff, runAfter, ih]
    | true => simp only [List.cons_append, stuff, runAfter]; split <;> simp [ih]

theorem crcOver_append (c : BitVec 16) (v w : List Bool) : crcOver c (v ++ w) = crcOver (crcOver c v) w :=
  List.foldl_append

/-- Several turns of the loop of `addByte`. -/
theorem addBits_eq (cap : Nat) (b : Bsf) (v : List Bool) (h : b.ones.toNat ≤ 4) :
    v.foldl (addBit cap) b = { appendAll cap b (stuff b.ones.toNat v) with
      crc := crcOver b.crc v, ones := BitVec.ofNat 3 (runAfter b.ones.toNat v) } := by
  induction v generalizing b with
  | nil => simp [stuff, runAfter, crcOver]
  | cons x v ih =>
    have hle : runAfter b.ones.toNat [x] ≤ 4 := runAfter_le _ _ h
    have hmod : runAfter b.ones.toNat [x] % 8 = runAfter b.ones.toNat [x] := by omega
    have e1 : stuff b.ones.toNat (x :: v)
        = stuff b.ones.toNat [x] ++ stuff (runAfter b.ones.toNat [x]) v := stuff_append _ [x] v
    have e2 : runAfter b.ones.toNat (x :: v) = runAfter (runAfter b.ones.toNat [x]) v := runAfter_append _ [x] v
    rw [List.foldl_cons, addBit_eq cap b x h, ih _ (by simpa [hmod] using hle)]
    simp only [BitVec.toNat_ofNat, Nat.reducePow, hmod, appendAll_with, e1, e2, appendAll_append]
    rfl

theorem bitsOf_cons (x : Byte) (xs : List Byte) : bitsOf (x :: xs) = byteBits x ++ bitsOf xs := rfl

theorem bitsOf_append (xs ys : List Byte) : bitsOf (xs ++ ys) = bitsOf xs ++ bitsOf ys := by
  simp [bitsOf]

@[simp] theorem byteBits_length (x : Byte) : (byteBits x).length = 8 := by simp [byteBits]

theorem bitsOf_length (xs : List Byte) : (bitsOf xs).length = 8 * xs.length := by
  induction xs with
  | nil => rfl
  | cons x xs ih => rw [bitsOf_cons, List.length_append, ih]; simp; omega

theorem addBytes_eq_foldl (cap : Nat) (b : Bsf) (xs : List Byte) :
    addBytes cap b xs = (bitsOf xs).foldl (addBit cap) b := by
  induction xs generalizing b with
  | nil => rfl
  | cons x xs ih => rw [bitsOf_cons, List.foldl_append, ← ih]; rfl

/-- What `addByte` of several bytes does: one run of appends of the stuffed bits, with the accumulator and the run
length of the bits themselves. -/
theorem addBytes_eq (cap : Nat) (b : Bsf) (xs : List Byte) (h : b.ones.toNat ≤ 4) :
    addBytes cap b xs = { appendAll cap b (stuff b.ones.toNat (bitsOf xs)) with
      crc := crcOver b.crc (bitsOf xs), ones := BitVec.ofNat 3 (runAfter b.ones.toNat (bitsOf xs)) } := by
  rw [addBytes_eq_foldl, addBits_eq cap b _ h]

/-- What `addByte` does. -/
theorem addByte_eq (cap : Nat) (b : Bsf) (x : Byte) (h : b.ones.toNat ≤ 4) :
    addByte cap b x = { appendAll cap b (stuff b.ones.toNat (bitsOf [x])) with
      crc := crcOver b.crc (bitsOf [x]), ones := BitVec.ofNat 3 (runAfter b.ones.toNat (bitsOf [x])) } :=
  addBytes_eq cap b [x] h

/-- What `rawByte` does: a run of appends, and neither accumulator nor run length. -/
theorem rawByte_eq (cap : Nat) (b : Bsf) (x : Byte) : rawByte cap b x = appendAll cap b (byteBits x) := rfl

/-- What `rawByte` of one byte several times does. -/
theorem rawBytes_eq (cap : Nat) (b : Bsf) (n : Nat) (x : Byte) :
    rawBytes cap b n x = appendAll cap b (List.replicate n (byteBits x)).flatten := by
  induction n generalizing b with
  | zero => rfl
  | succ n ih =>
    have : rawBytes cap b (n + 1) x = rawBytes cap (rawByte cap b x) n x := rfl
    rw [this, ih, rawByte_eq, List.replicate_succ, List.flatten_cons, appendAll_append]

/-- The bits of a flag byte. -/
theorem byteBits_flag : byteBits flagByteValue = flagBits := by decide

/-! ## The frame of a bit-writing operation -/

/-- What a bit-writing operation does while Transmitting. -/
theorem bitWriting_busy {body : Bsf → Bsf} {value : Bsf → Value} {s : State} (h : s.afsk.state = .transmitting) :
    bitWriting body value s = raise .busy s := by
  simp [bitWriting, h]

/-- What a bit-writing operation does while Idle. -/
theorem bitWriting_idle {body : Bsf → Bsf} {value : Bsf → Value} {s : State} (h : s.afsk.state = .idle) :
    bitWriting body value s =
      (if (body { s.bsf with ovf := false }).ovf then
        raise .ovf { s with bsf := { body { s.bsf with ovf := false } with
          ovf := s.bsf.ovf || (body { s.bsf with ovf := false }).ovf } }
      else answer (value (body { s.bsf with ovf := false })) { s with bsf := { body { s.bsf with ovf := false } with
          ovf := s.bsf.ovf || (body { s.bsf with ovf := false }).ovf } }) := by
  simp [bitWriting, h]

/-! What a bit-writing operation leaves alone: everything outside BSF, `sys.err` and the response, and in BSF the operands
as its body leaves them. -/

@[simp] theorem bitWriting_cfg (body : Bsf → Bsf) (value : Bsf → Value) (s : State) :
    (bitWriting body value s).cfg = s.cfg := by
  unfold bitWriting; split
  · rfl
  · simp only; split <;> rfl

@[simp] theorem bitWriting_mice (body : Bsf → Bsf) (value : Bsf → Value) (s : State) :
    (bitWriting body value s).mice = s.mice := by
  unfold bitWriting; split
  · rfl
  · simp only; split <;> rfl

@[simp] theorem bitWriting_afsk (body : Bsf → Bsf) (value : Bsf → Value) (s : State) :
    (bitWriting body value s).afsk = s.afsk := by
  unfold bitWriting; split
  · rfl
  · simp only; split <;> rfl

@[simp] theorem bitWriting_frt (body : Bsf → Bsf) (value : Bsf → Value) (s : State) :
    (bitWriting body value s).frt = s.frt := by
  unfold bitWriting; split
  · rfl
  · simp only; split <;> rfl

@[simp] theorem bitWriting_cpf (body : Bsf → Bsf) (value : Bsf → Value) (s : State) :
    (bitWriting body value s).cpf = s.cpf := by
  unfold bitWriting; split
  · rfl
  · simp only; split <;> rfl

@[simp] theorem bitWriting_inputs (body : Bsf → Bsf) (value : Bsf → Value) (s : State) :
    (bitWriting body value s).inputs = s.inputs := by
  unfold bitWriting; split
  · rfl
  · simp only; split <;> rfl

@[simp] theorem bitWriting_epoch (body : Bsf → Bsf) (value : Bsf → Value) (s : State) :
    (bitWriting body value s).epoch = s.epoch := by
  unfold bitWriting; split
  · rfl
  · simp only; split <;> rfl

end Sys2Proof.Machine
end

