-- ==== Sys2Proof/Laws/Cpf.lean ====
section
/-! SUPPORT. What a pushed byte leaves alone in each stage of unit CPF, and what it writes. -/

namespace Sys2Proof.Machine

@[simp] theorem pushSize_cfg (x : Byte) (s : State) : (pushSize x s).cfg = s.cfg := by unfold pushSize; split <;> rfl
@[simp] theorem pushSize_bsf (x : Byte) (s : State) : (pushSize x s).bsf = s.bsf := by unfold pushSize; split <;> rfl
@[simp] theorem pushSize_mice (x : Byte) (s : State) : (pushSize x s).mice = s.mice := by unfold pushSize; split <;> rfl
@[simp] theorem pushSize_afsk (x : Byte) (s : State) : (pushSize x s).afsk = s.afsk := by unfold pushSize; split <;> rfl
@[simp] theorem pushSize_frt (x : Byte) (s : State) : (pushSize x s).frt = s.frt := by unfold pushSize; split <;> rfl
@[simp] theorem pushSize_sys (x : Byte) (s : State) : (pushSize x s).sys = s.sys := by unfold pushSize; split <;> rfl
@[simp] theorem pushSize_inputs (x : Byte) (s : State) : (pushSize x s).inputs = s.inputs := by unfold pushSize; split <;> rfl
@[simp] theorem pushSize_epoch (x : Byte) (s : State) : (pushSize x s).epoch = s.epoch := by unfold pushSize; split <;> rfl

@[simp] theorem pushData_cfg (x : Byte) (s : State) : (pushData x s).cfg = s.cfg := rfl
@[simp] theorem pushData_bsf (x : Byte) (s : State) : (pushData x s).bsf = s.bsf := rfl
@[simp] theorem pushData_mice (x : Byte) (s : State) : (pushData x s).mice = s.mice := rfl
@[simp] theorem pushData_afsk (x : Byte) (s : State) : (pushData x s).afsk = s.afsk := rfl
@[simp] theorem pushData_frt (x : Byte) (s : State) : (pushData x s).frt = s.frt := rfl
@[simp] theorem pushData_sys (x : Byte) (s : State) : (pushData x s).sys = s.sys := rfl
@[simp] theorem pushData_inputs (x : Byte) (s : State) : (pushData x s).inputs = s.inputs := rfl
@[simp] theorem pushData_epoch (x : Byte) (s : State) : (pushData x s).epoch = s.epoch := rfl

@[simp] theorem pushXor_cfg (x : Byte) (s : State) : (pushXor x s).cfg = s.cfg := rfl
@[simp] theorem pushXor_bsf (x : Byte) (s : State) : (pushXor x s).bsf = s.bsf := rfl
@[simp] theorem pushXor_mice (x : Byte) (s : State) : (pushXor x s).mice = s.mice := rfl
@[simp] theorem pushXor_afsk (x : Byte) (s : State) : (pushXor x s).afsk = s.afsk := rfl
@[simp] theorem pushXor_frt (x : Byte) (s : State) : (pushXor x s).frt = s.frt := rfl
@[simp] theorem pushXor_sys (x : Byte) (s : State) : (pushXor x s).sys = s.sys := rfl
@[simp] theorem pushXor_inputs (x : Byte) (s : State) : (pushXor x s).inputs = s.inputs := rfl
@[simp] theorem pushXor_epoch (x : Byte) (s : State) : (pushXor x s).epoch = s.epoch := rfl

@[simp] theorem pushCrc32_cfg (x : Byte) (s : State) : (pushCrc32 x s).cfg = s.cfg := by unfold pushCrc32; simp only; split <;> rfl
@[simp] theorem pushCrc32_bsf (x : Byte) (s : State) : (pushCrc32 x s).bsf = s.bsf := by unfold pushCrc32; simp only; split <;> rfl
@[simp] theorem pushCrc32_mice (x : Byte) (s : State) : (pushCrc32 x s).mice = s.mice := by unfold pushCrc32; simp only; split <;> rfl
@[simp] theorem pushCrc32_afsk (x : Byte) (s : State) : (pushCrc32 x s).afsk = s.afsk := by unfold pushCrc32; simp only; split <;> rfl
@[simp] theorem pushCrc32_frt (x : Byte) (s : State) : (pushCrc32 x s).frt = s.frt := by unfold pushCrc32; simp only; split <;> rfl
@[simp] theorem pushCrc32_sys (x : Byte) (s : State) : (pushCrc32 x s).sys = s.sys := by unfold pushCrc32; simp only; split <;> rfl
@[simp] theorem pushCrc32_inputs (x : Byte) (s : State) : (pushCrc32 x s).inputs = s.inputs := by unfold pushCrc32; simp only; split <;> rfl
@[simp] theorem pushCrc32_epoch (x : Byte) (s : State) : (pushCrc32 x s).epoch = s.epoch := by unfold pushCrc32; simp only; split <;> rfl

/-- A pushed byte always answers OK. -/
theorem pushSize_status (x : Byte) (s : State) : (pushSize x s).resp.status = .ok := by
  unfold pushSize; split <;> rfl

theorem pushData_status (x : Byte) (s : State) : (pushData x s).resp.status = .ok := rfl

theorem pushXor_status (x : Byte) (s : State) : (pushXor x s).resp.status = .ok := rfl

theorem pushCrc32_status (x : Byte) (s : State) : (pushCrc32 x s).resp.status = .ok := by
  unfold pushCrc32; simp only; split <;> rfl

/-- What the Data stage writes (44 R313). -/
theorem load_pushData (x : Byte) (s : State) (sp : Space) (a : Nat) :
    load sp a (pushData x s) = if sp = .cpfBuf ∧ a = s.cpf.count.toNat then x else load sp a s := by
  rw [← load_store]
  cases sp <;> rfl

/-- What the Integrity stage of the CRC32 variant writes (44 R315). -/
theorem load_pushCrc32 (x : Byte) (s : State) (sp : Space) (a : Nat) :
    load sp a (pushCrc32 x s)
      = if sp = .cpfBuf ∧ a = s.cpf.size.toNat + s.cpf.icnt.toNat then x else load sp a s := by
  rw [← load_store]
  unfold pushCrc32; simp only; split <;> cases sp <;> rfl

end Sys2Proof.Machine
end

