-- ==== Sys2Proof/Laws/Decode.lean ====
section
/-! SUPPORT. The fields of a command word, the word its fields make, and what the decoder answers unit by unit. -/

namespace Sys2Proof

/-- Field `W[23:20]` of a word made of its fields. -/
@[simp] theorem fieldUnit_cmdWord (u o : BitVec 4) (a b : Byte) : fieldUnit (cmdWord u o a b) = u := by
  unfold fieldUnit cmdWord
  apply BitVec.eq_of_getLsbD_eq
  intro i hi
  simp only [BitVec.getLsbD_extractLsb', BitVec.getLsbD_append]
  have h1 : ¬ (20 + i < 8) := by omega
  have h2 : ¬ (20 + i - 8 < 8) := by omega
  have h3 : ¬ (20 + i - 8 - 8 < 4) := by omega
  have h4 : 20 + i - 8 - 8 - 4 = i := by omega
  simp [h1, h2, h3, h4, hi]

/-- Field `W[19:16]` of a word made of its fields. -/
@[simp] theorem fieldOp_cmdWord (u o : BitVec 4) (a b : Byte) : fieldOp (cmdWord u o a b) = o := by
  unfold fieldOp cmdWord
  apply BitVec.eq_of_getLsbD_eq
  intro i hi
  simp only [BitVec.getLsbD_extractLsb', BitVec.getLsbD_append]
  have h1 : ¬ (16 + i < 8) := by omega
  have h2 : ¬ (16 + i - 8 < 8) := by omega
  have h3 : 16 + i - 8 - 8 = i := by omega
  simp [h1, h2, h3, hi]

/-- Field `W[15:8]` of a word made of its fields. -/
@[simp] theorem fieldA_cmdWord (u o : BitVec 4) (a b : Byte) : fieldA (cmdWord u o a b) = a := by
  unfold fieldA cmdWord
  apply BitVec.eq_of_getLsbD_eq
  intro i hi
  simp only [BitVec.getLsbD_extractLsb', BitVec.getLsbD_append]
  have h1 : ¬ (8 + i < 8) := by omega
  have h2 : 8 + i - 8 = i := by omega
  simp [h1, h2, hi]

/-- Field `W[7:0]` of a word made of its fields. -/
@[simp] theorem fieldB_cmdWord (u o : BitVec 4) (a b : Byte) : fieldB (cmdWord u o a b) = b := by
  unfold fieldB cmdWord
  apply BitVec.eq_of_getLsbD_eq
  intro i hi
  simp only [BitVec.getLsbD_extractLsb', BitVec.getLsbD_append]
  simp [hi]

/-- Every word is made of its fields. -/
theorem cmdWord_fields (w : CmdWord) : cmdWord (fieldUnit w) (fieldOp w) (fieldA w) (fieldB w) = w := by
  unfold fieldUnit fieldOp fieldA fieldB cmdWord
  apply BitVec.eq_of_getLsbD_eq
  intro i hi
  simp only [BitVec.getLsbD_append, BitVec.getLsbD_extractLsb']
  by_cases h1 : i < 8
  · simp [h1]
  · by_cases h2 : i - 8 < 8
    · have e : 8 + (i - 8) = i := by omega
      simp [h1, h2, e]
    · by_cases h3 : i - 8 - 8 < 4
      · have e : 16 + (i - 8 - 8) = i := by omega
        simp [h1, h2, h3, e]
      · have e : 20 + (i - 8 - 8 - 4) = i := by omega
        have h4 : i - 8 - 8 - 4 < 4 := by omega
        simp [h1, h2, h3, h4, e]

/-- Masking a word masks each field. -/
theorem cmdWord_and (u o u' o' : BitVec 4) (a b a' b' : Byte) :
    cmdWord u o a b &&& cmdWord u' o' a' b' = cmdWord (u &&& u') (o &&& o') (a &&& a') (b &&& b') := by
  unfold cmdWord
  apply BitVec.eq_of_getLsbD_eq
  intro i hi
  simp only [BitVec.getLsbD_and, BitVec.getLsbD_append]
  split
  · rfl
  · split
    · rfl
    · split <;> rfl

/-- The decoder on a word made of its fields. -/
theorem decode_cmdWord (u o : BitVec 4) (a b : Byte) :
    decode (cmdWord u o a b) =
      match u.toNat with
      | 0 => decodeBsf o.toNat a b
      | 1 => decodeMice o.toNat a b
      | 2 => decodeAfsk o.toNat a b
      | 3 => decodeFrt o.toNat a b
      | 4 => decodeCpf o.toNat a b
      | 15 => decodeSys o.toNat a b
      | n => .error (.unit n) := by
  simp only [decode, fieldUnit_cmdWord, fieldOp_cmdWord, fieldA_cmdWord, fieldB_cmdWord] <;> rfl

/-! ## The operand forms undo what the encoder makes of them -/

@[simp] theorem formLast_flagByte (v : Bool) : formLast (flagByte v) = v := by cases v <;> rfl

@[simp] theorem formSlot_append (s : BitVec 5) (i : BitVec 3) : formSlot (s ++ i) = s := by
  unfold formSlot
  apply BitVec.eq_of_getLsbD_eq
  intro k hk
  simp only [BitVec.getLsbD_extractLsb', BitVec.getLsbD_append]
  have h1 : ¬ (3 + k < 3) := by omega
  have h2 : 3 + k - 3 = k := by omega
  simp [h1, h2, hk]

@[simp] theorem formIndex_append (s : BitVec 5) (i : BitVec 3) : formIndex (s ++ i) = i := by
  unfold formIndex
  apply BitVec.eq_of_getLsbD_eq
  intro k hk
  simp only [BitVec.getLsbD_extractLsb', BitVec.getLsbD_append]
  simp [hk]

@[simp] theorem formLen9_len9 (n : BitVec 9) : formLen9 (len9Hi n) (len9Lo n) = n := by
  unfold formLen9 len9Hi len9Lo
  apply BitVec.eq_of_getLsbD_eq
  intro k hk
  simp only [BitVec.getLsbD_extractLsb', BitVec.getLsbD_append]
  by_cases h : k < 8
  · simp [h]
  · have h2 : 8 + (k - 8) = k := by omega
    have h3 : k - 8 = 0 := by omega
    have h4 : k = 8 := by omega
    subst h4; simp

@[simp] theorem formAb16_ab16 (n : BitVec 16) : formAb16 (ab16Hi n) (ab16Lo n) = n := by
  unfold formAb16 ab16Hi ab16Lo
  apply BitVec.eq_of_getLsbD_eq
  intro k hk
  simp only [BitVec.getLsbD_extractLsb', BitVec.getLsbD_append]
  by_cases h : k < 8
  · simp [h]
  · have h2 : 8 + (k - 8) = k := by omega
    have h3 : k - 8 < 8 := by omega
    simp [h, h2, h3]

@[simp] theorem formMask_maskByte (m : BitVec 6) : formMask (maskByte m) = m := by
  unfold formMask maskByte
  apply BitVec.eq_of_getLsbD_eq
  intro k hk
  simp only [BitVec.getLsbD_extractLsb', BitVec.getLsbD_append]
  simp [hk]

end Sys2Proof
end

