-- ==== Sys2Proof/Laws/Frt.lean ====
section
/-! SUPPORT. How a POLL is put together from its turns, and what it leaves alone in unit FRT. -/

namespace Sys2Proof.Machine

@[simp] theorem andThen_goOn (f : Frt) (k : Frt → PollEnd) : (Turn.goOn f).andThen k = k f := rfl

@[simp] theorem andThen_done (f : Frt) (v : Value) (k : Frt → PollEnd) :
    (Turn.done f v).andThen k = { frt := f, value := v } := rfl

/-- The unit after a turn. -/
def Turn.frt (t : Turn) : Frt :=
  match t with
  | .goOn f => f
  | .done f _ => f

/-- `g` has the encoder half of `f` (43 R260: the two halves share no state). -/
def SameEncoder (f g : Frt) : Prop :=
  g.dst = f.dst ∧ g.opt = f.opt ∧ g.txbuf = f.txbuf ∧ g.txlog = f.txlog

theorem SameEncoder.rfl' {f : Frt} : SameEncoder f f := ⟨rfl, rfl, rfl, rfl⟩

theorem SameEncoder.trans' {f g h : Frt} (h1 : SameEncoder f g) (h2 : SameEncoder g h) : SameEncoder f h :=
  ⟨h2.1.trans h1.1, h2.2.1.trans h1.2.1, h2.2.2.1.trans h1.2.2.1, h2.2.2.2.trans h1.2.2.2⟩

/-- No turn touches the encoder half. -/
theorem pollTurn_sameEncoder (c : Config) (f : Frt) : SameEncoder f (pollTurn c f).frt := by
  unfold pollTurn stageAwaitStart stageLength stageApiId stageHeader stagePayload stageChecksum stageFailure blocked
  repeat' first | split | (simp only; split)
  all_goals exact ⟨rfl, rfl, rfl, rfl⟩

/-- A verdict is never 0, the answer of a blocked POLL (43 R263). -/
theorem verdict_ne_zero (r : FrtResult) : verdict r ≠ 0 := by cases r <;> decide

@[simp] theorem verdict_frame : verdict .frame = 0x13 := by decide
@[simp] theorem verdict_badsum : verdict .badsum = 0x21 := by decide
@[simp] theorem verdict_failLen : verdict .failLen = 0x31 := by decide
@[simp] theorem verdict_failApi : verdict .failApi = 0x41 := by decide
@[simp] theorem verdict_failCap : verdict .failCap = 0x51 := by decide

/-- The sum of bytes (43 R278) is the sum of their values modulo 256. -/
theorem sumBytes_toNat (t : Byte) (xs : List Byte) :
    (sumBytes t xs).toNat = (t.toNat + (xs.map BitVec.toNat).sum) % 256 := by
  induction xs generalizing t with
  | nil => simp [sumBytes]; have := t.isLt; omega
  | cons x xs ih =>
    have : sumBytes t (x :: xs) = sumBytes (t + x) xs := rfl
    rw [this, ih, BitVec.toNat_add]
    simp only [List.map_cons, List.sum_cons]
    omega

theorem sumBytes_append (t : Byte) (xs ys : List Byte) : sumBytes t (xs ++ ys) = sumBytes (sumBytes t xs) ys :=
  List.foldl_append

/-- The checksum of a sum (43 R278). -/
theorem checksumOf_toNat (t : Byte) : (checksumOf t).toNat = 255 - t.toNat := by
  have := t.isLt
  simp [checksumOf, BitVec.toNat_sub]; omega

end Sys2Proof.Machine
end

