-- ==== Sys2Proof/Laws/PerInstr.lean ====
section
/-! SUPPORT. Facts about each operation as syntax, one lemma per constructor: the command word of an operation sets no
bit that the operation does not name (30 R103, R118: bits not named are 0). -/

namespace Sys2Proof.Laws.EncodeUsesItsBits

/-- Every bit set in the command word of `i` is one that `i` names. -/
def Statement (i : Instr) : Prop := encode i &&& usedBits i = encode i

theorem byte_and_mask (b : Byte) : b &&& 0xFF#8 = b := by
  simpa using BitVec.and_allOnes (x := b)

theorem flagByte_and (v : Bool) : flagByte v &&& 0x01#8 = flagByte v := by cases v <;> rfl

theorem len9Hi_and (n : BitVec 9) : len9Hi n &&& 0x01#8 = len9Hi n := by
  unfold len9Hi
  generalize n.extractLsb' 8 1 = x
  revert x; decide

theorem maskByte_and (m : BitVec 6) : maskByte m &&& 0x3F#8 = maskByte m := by
  revert m; decide

/-- Masking with a mask written as a word is masking each field. -/
theorem and_word (u o : BitVec 4) (a b ma mb : Byte) (m : CmdWord) (hm : m = cmdWord 0xF 0xF ma mb)
    (ha : a &&& ma = a) (hb : b &&& mb = b) : cmdWord u o a b &&& m = cmdWord u o a b := by
  have hu : ∀ x : BitVec 4, x &&& 0xF = x := by decide
  rw [hm, cmdWord_and, ha, hb, hu, hu]

theorem bsfRst : Statement (.bsfRst) :=
  and_word _ _ _ _ 0x00 0x00 _ rfl (by decide) (by decide)

theorem bsfSync : Statement (.bsfSync) :=
  and_word _ _ _ _ 0x00 0x00 _ rfl (by decide) (by decide)

theorem bsfFlag : Statement (.bsfFlag) :=
  and_word _ _ _ _ 0x00 0x00 _ rfl (by decide) (by decide)

theorem bsfByte (b : BitVec 8) : Statement (.bsfByte b) :=
  and_word _ _ _ _ 0x00 0xFF _ rfl (by decide) (byte_and_mask _)

theorem bsfAddr (s : BitVec 8) (last : Bool) : Statement (.bsfAddr s last) :=
  and_word _ _ _ _ 0xFF 0x01 _ rfl (byte_and_mask _) (flagByte_and _)

theorem bsfFcs : Statement (.bsfFcs) :=
  and_word _ _ _ _ 0x00 0x00 _ rfl (by decide) (by decide)

theorem bsfBuild : Statement (.bsfBuild) :=
  and_word _ _ _ _ 0x00 0x00 _ rfl (by decide) (by decide)

theorem bsfWaddr (s : BitVec 5) (i : BitVec 3) (b : BitVec 8) : Statement (.bsfWaddr s i b) :=
  and_word _ _ _ _ 0xFF 0xFF _ rfl (byte_and_mask _) (byte_and_mask _)

theorem bsfWmsg (i : BitVec 8) (b : BitVec 8) : Statement (.bsfWmsg i b) :=
  and_word _ _ _ _ 0xFF 0xFF _ rfl (byte_and_mask _) (byte_and_mask _)

theorem bsfSetlen (n : BitVec 9) : Statement (.bsfSetlen n) :=
  and_word _ _ _ _ 0x01 0xFF _ rfl (len9Hi_and _) (byte_and_mask _)

theorem bsfSetpath (n : BitVec 8) : Statement (.bsfSetpath n) :=
  and_word _ _ _ _ 0x00 0xFF _ rfl (by decide) (byte_and_mask _)

theorem bsfRbit (i : BitVec 16) : Statement (.bsfRbit i) :=
  and_word _ _ _ _ 0xFF 0xFF _ rfl (byte_and_mask _) (byte_and_mask _)

theorem bsfRlen : Statement (.bsfRlen) :=
  and_word _ _ _ _ 0x00 0x00 _ rfl (by decide) (by decide)

theorem bsfRcrc : Statement (.bsfRcrc) :=
  and_word _ _ _ _ 0x00 0x00 _ rfl (by decide) (by decide)

theorem bsfRaddr (s : BitVec 5) (i : BitVec 3) : Statement (.bsfRaddr s i) :=
  and_word _ _ _ _ 0xFF 0x00 _ rfl (byte_and_mask _) (by decide)

theorem bsfRmsg (i : BitVec 8) : Statement (.bsfRmsg i) :=
  and_word _ _ _ _ 0xFF 0x00 _ rfl (byte_and_mask _) (by decide)

theorem miceWin (a : BitVec 8) (b : BitVec 8) : Statement (.miceWin a b) :=
  and_word _ _ _ _ 0xFF 0xFF _ rfl (byte_and_mask _) (byte_and_mask _)

theorem miceEnc : Statement (.miceEnc) :=
  and_word _ _ _ _ 0x00 0x00 _ rfl (by decide) (by decide)

theorem micePut : Statement (.micePut) :=
  and_word _ _ _ _ 0x00 0x00 _ rfl (by decide) (by decide)

theorem miceRout (a : BitVec 8) : Statement (.miceRout a) :=
  and_word _ _ _ _ 0xFF 0x00 _ rfl (byte_and_mask _) (by decide)

theorem miceRin (a : BitVec 8) : Statement (.miceRin a) :=
  and_word _ _ _ _ 0xFF 0x00 _ rfl (byte_and_mask _) (by decide)

theorem afskTx : Statement (.afskTx) :=
  and_word _ _ _ _ 0x00 0x00 _ rfl (by decide) (by decide)

theorem afskEnd : Statement (.afskEnd) :=
  and_word _ _ _ _ 0x00 0x00 _ rfl (by decide) (by decide)

theorem afskStat : Statement (.afskStat) :=
  and_word _ _ _ _ 0x00 0x00 _ rfl (by decide) (by decide)

theorem afskTime : Statement (.afskTime) :=
  and_word _ _ _ _ 0x00 0x00 _ rfl (by decide) (by decide)

theorem afskRout (sel : BitVec 8) : Statement (.afskRout sel) :=
  and_word _ _ _ _ 0xFF 0x00 _ rfl (byte_and_mask _) (by decide)

theorem afskTick : Statement (.afskTick) :=
  and_word _ _ _ _ 0x00 0x00 _ rfl (by decide) (by decide)

theorem frtPoll : Statement (.frtPoll) :=
  and_word _ _ _ _ 0x00 0x00 _ rfl (by decide) (by decide)

theorem frtRfrm (a : BitVec 8) : Statement (.frtRfrm a) :=
  and_word _ _ _ _ 0xFF 0x00 _ rfl (byte_and_mask _) (by decide)

theorem frtWdst (i : BitVec 8) (b : BitVec 8) : Statement (.frtWdst i b) :=
  and_word _ _ _ _ 0xFF 0xFF _ rfl (byte_and_mask _) (byte_and_mask _)

theorem frtWopt (b : BitVec 8) : Statement (.frtWopt b) :=
  and_word _ _ _ _ 0x00 0xFF _ rfl (by decide) (byte_and_mask _)

theorem frtWpay (i : BitVec 8) (b : BitVec 8) : Statement (.frtWpay i b) :=
  and_word _ _ _ _ 0xFF 0xFF _ rfl (byte_and_mask _) (byte_and_mask _)

theorem frtSend (n : BitVec 9) : Statement (.frtSend n) :=
  and_word _ _ _ _ 0x01 0xFF _ rfl (len9Hi_and _) (byte_and_mask _)

theorem frtRstg : Statement (.frtRstg) :=
  and_word _ _ _ _ 0x00 0x00 _ rfl (by decide) (by decide)

theorem frtRst : Statement (.frtRst) :=
  and_word _ _ _ _ 0x00 0x00 _ rfl (by decide) (by decide)

theorem frtRpay (i : BitVec 8) : Statement (.frtRpay i) :=
  and_word _ _ _ _ 0xFF 0x00 _ rfl (byte_and_mask _) (by decide)

theorem frtRxb (b : BitVec 8) : Statement (.frtRxb b) :=
  and_word _ _ _ _ 0x00 0xFF _ rfl (by decide) (byte_and_mask _)

theorem cpfPush (b : BitVec 8) : Statement (.cpfPush b) :=
  and_word _ _ _ _ 0x00 0xFF _ rfl (by decide) (byte_and_mask _)

theorem cpfRsize : Statement (.cpfRsize) :=
  and_word _ _ _ _ 0x00 0x00 _ rfl (by decide) (by decide)

theorem cpfRbuf (i : BitVec 8) : Statement (.cpfRbuf i) :=
  and_word _ _ _ _ 0xFF 0x00 _ rfl (byte_and_mask _) (by decide)

theorem cpfWpay (i : BitVec 8) (b : BitVec 8) : Statement (.cpfWpay i b) :=
  and_word _ _ _ _ 0xFF 0xFF _ rfl (byte_and_mask _) (byte_and_mask _)

theorem cpfEnc (n : BitVec 8) : Statement (.cpfEnc n) :=
  and_word _ _ _ _ 0x00 0xFF _ rfl (by decide) (byte_and_mask _)

theorem cpfRst : Statement (.cpfRst) :=
  and_word _ _ _ _ 0x00 0x00 _ rfl (by decide) (by decide)

theorem cpfRstg : Statement (.cpfRstg) :=
  and_word _ _ _ _ 0x00 0x00 _ rfl (by decide) (by decide)

theorem sysNop : Statement (.sysNop) :=
  and_word _ _ _ _ 0x00 0x00 _ rfl (by decide) (by decide)

theorem sysReset : Statement (.sysReset) :=
  and_word _ _ _ _ 0x00 0x00 _ rfl (by decide) (by decide)

theorem sysRerr : Statement (.sysRerr) :=
  and_word _ _ _ _ 0x00 0x00 _ rfl (by decide) (by decide)

theorem sysClrerr (m : BitVec 6) : Statement (.sysClrerr m) :=
  and_word _ _ _ _ 0x00 0x3F _ rfl (by decide) (maskByte_and _)

theorem sysId : Statement (.sysId) :=
  and_word _ _ _ _ 0x00 0x00 _ rfl (by decide) (by decide)

end Sys2Proof.Laws.EncodeUsesItsBits
end

