-- ==== Sys2Proof/Tests/Slice0.lean ====
section
/-! SUPPORT. Our own tests: the well-formedness checks each refuse an ill-formed configuration, every operation decodes
from a word written out from the tables of spec 30, one step of operations on small states with the results the spec's
examples give, and a witness for the hypotheses of every statement that has some. Expected values are the spec's; the
rule is named beside each. -/

open Sys2Proof Sys2Proof.Machine

namespace Sys2Proof.Tests

/-! ## Well-formedness of a configuration (70 R393): one ill-formed record for each check -/

theorem test_wf_t0 : Config.t0.wf = true := by decide

theorem test_wf_path : { Config.t0 with maxPath := 16 }.wf = false ∧ { Config.t0 with maxPath := 16 }.pathOk = false := by
  decide

/-- The lower bound of MAXPATH is the model's choice (notes/assumptions/20.md). -/
theorem test_wf_noPath : { Config.t0 with maxPath := 0 }.wf = true := by decide

theorem test_wf_bitCap_small : { Config.t0 with bitCap := 3207 }.bitCapOk = false := by decide

theorem test_wf_bitCap_large : { Config.t0 with bitCap := 65536 }.wf = false ∧ { Config.t0 with bitCap := 65535 }.wf = true := by
  decide

theorem test_wf_tone : { Config.t0 with tMark := 834 }.wf = false ∧ { Config.t0 with tMark := 0 }.wf = false
    ∧ { Config.t0 with tSpace := 834 }.wf = false ∧ { Config.t0 with tSpace := 26 }.wf = false
    ∧ { Config.t0 with tMark := 833 }.wf = true := by decide

theorem test_wf_sine : { Config.t0 with res := 7 }.wf = false ∧ { Config.t0 with res := 17 }.wf = false := by decide

theorem test_wf_mice : { Config.t0 with lSc := 4 }.wf = false
    ∧ { Config.t0 with lSc := 2, miceSc := .platform, altTerm := false }.wf = false
    ∧ { Config.t0 with lSc := 2, miceSc := .platform }.wf = true := by decide

theorem test_wf_speedCourse : { Config.t0 with lSc := 2 }.speedCourseOk = false ∧ { Config.t0 with lSc := 2 }.wf = false := by
  decide

theorem test_wf_variant : { Config.t0 with srcW := 9 }.wf = false ∧ { Config.t0 with extraW := 9 }.wf = false
    ∧ { Config.t0 with dstW := 0 }.wf = false ∧ { Config.t0 with dstW := 9 }.wf = false
    ∧ { Config.t0 with txMid := [0, 0, 0, 0, 0, 0, 0, 0, 0] }.wf = false := by decide

theorem test_wf_payload : { Config.t0 with payloadCap := 0 }.wf = false
    ∧ { Config.t0 with payloadCap := 257, rxDepth := 257 }.wf = false := by decide

theorem test_wf_rxDepth : { Config.t0 with rxDepth := 99 }.wf = false ∧ { Config.t0 with rxDepth := 100 }.wf = true
    ∧ { Config.t0 with rxDepth := 3, payloadCap := 1 }.wf = false := by decide

/-! ## Decoding: words written out from 30 R100 and the tables of R104 to R109 -/

/-- One word of each unit bit by bit: unit, operation, field A, field B. -/
theorem test_decode_bits :
    decode 0b0000_0111_00001110_00110001 = .ok (.bsfWaddr 1 6 0x31)
      ∧ decode 0b0001_0000_00010010_00001001 = .ok (.miceWin 0x12 0x09)
      ∧ decode 0b0010_0100_00000011_00000000 = .ok (.afskRout 3)
      ∧ decode 0b0011_0101_00000001_00000000 = .ok (.frtSend 256)
      ∧ decode 0b0100_0011_00011111_10101010 = .ok (.cpfWpay 31 0xAA)
      ∧ decode 0b1111_0011_00000000_11000010 = .ok (.sysClrerr 0b000010) := by decide

/-- 30 R104; the operand bits that an operation does not name are set, and ignored (R103). -/
theorem test_decode_bsf :
    decode 0x00FFFF = .ok .bsfRst ∧ decode 0x010000 = .ok .bsfSync ∧ decode 0x02A5A5 = .ok .bsfFlag
      ∧ decode 0x03FF7E = .ok (.bsfByte 0x7E) ∧ decode 0x0411FE = .ok (.bsfAddr 17 false)
      ∧ decode 0x040001 = .ok (.bsfAddr 0 true) ∧ decode 0x05FFFF = .ok .bsfFcs ∧ decode 0x060000 = .ok .bsfBuild
      ∧ decode 0x07FFC3 = .ok (.bsfWaddr 31 7 0xC3) ∧ decode 0x088055 = .ok (.bsfWmsg 0x80 0x55)
      ∧ decode 0x09FF2C = .ok (.bsfSetlen 300) ∧ decode 0x0AFF02 = .ok (.bsfSetpath 2)
      ∧ decode 0x0B012C = .ok (.bsfRbit 300) ∧ decode 0x0CFFFF = .ok .bsfRlen ∧ decode 0x0D0000 = .ok .bsfRcrc
      ∧ decode 0x0E0EFF = .ok (.bsfRaddr 1 6) ∧ decode 0x0FFF00 = .ok (.bsfRmsg 255) := by decide

/-- 30 R105. -/
theorem test_decode_mice :
    decode 0x100CFE = .ok (.miceWin 0x0C 0xFE) ∧ decode 0x11FFFF = .ok .miceEnc ∧ decode 0x120000 = .ok .micePut
      ∧ decode 0x1314FF = .ok (.miceRout 20) ∧ decode 0x140500 = .ok (.miceRin 5)
      ∧ decode 0x150000 = .error (.op 1 5) ∧ decode 0x1F0000 = .error (.op 1 15) := by decide

/-- 30 R106. -/
theorem test_decode_afsk :
    decode 0x200000 = .ok .afskTx ∧ decode 0x21FFFF = .ok .afskEnd ∧ decode 0x220000 = .ok .afskStat
      ∧ decode 0x230000 = .ok .afskTime ∧ decode 0x2402FF = .ok (.afskRout 2) ∧ decode 0x2FFFFF = .ok .afskTick
      ∧ decode 0x250000 = .error (.op 2 5) ∧ decode 0x2E0000 = .error (.op 2 14) := by decide

/-- 30 R107. -/
theorem test_decode_frt :
    decode 0x30FFFF = .ok .frtPoll ∧ decode 0x311100 = .ok (.frtRfrm 17) ∧ decode 0x320169 = .ok (.frtWdst 1 0x69)
      ∧ decode 0x33FF01 = .ok (.frtWopt 1) ∧ decode 0x340203 = .ok (.frtWpay 2 3)
      ∧ decode 0x35FEFF = .ok (.frtSend 255) ∧ decode 0x35FFFF = .ok (.frtSend 511) ∧ decode 0x360000 = .ok .frtRstg
      ∧ decode 0x370000 = .ok .frtRst ∧ decode 0x3801FF = .ok (.frtRpay 1) ∧ decode 0x3FFF7E = .ok (.frtRxb 0x7E)
      ∧ decode 0x390000 = .error (.op 3 9) ∧ decode 0x3E0000 = .error (.op 3 14) := by decide

/-- 30 R108. -/
theorem test_decode_cpf :
    decode 0x40FF20 = .ok (.cpfPush 0x20) ∧ decode 0x410000 = .ok .cpfRsize ∧ decode 0x422300 = .ok (.cpfRbuf 35)
      ∧ decode 0x430010 = .ok (.cpfWpay 0 0x10) ∧ decode 0x440003 = .ok (.cpfEnc 3) ∧ decode 0x450000 = .ok .cpfRst
      ∧ decode 0x460000 = .ok .cpfRstg ∧ decode 0x470000 = .error (.op 4 7) := by decide

/-- 30 R109, and the reserved units. -/
theorem test_decode_sys :
    decode 0xF00000 = .ok .sysNop ∧ decode 0xF10000 = .ok .sysReset ∧ decode 0xF20000 = .ok .sysRerr
      ∧ decode 0xF300FF = .ok (.sysClrerr 0x3F) ∧ decode 0xF40000 = .ok .sysId ∧ decode 0xF50000 = .error (.op 15 5)
      ∧ decode 0x500000 = .error (.unit 5) ∧ decode 0xE40000 = .error (.unit 14) := by decide

/-- The words of `encode` for the examples of 30 R118. -/
theorem test_encode :
    encode (.bsfByte 0x7E) = 0x03007E ∧ encode (.bsfRbit 300) = 0x0B012C ∧ encode (.bsfSetlen 256) = 0x090100
      ∧ encode .afskTick = 0x2F0000 ∧ encode (.frtRxb 0x7E) = 0x3F007E ∧ encode .sysId = 0xF40000 := by decide

theorem test_decodeTableWord : decodeTableWord 24 0x03007E = some (.bsfByte 0x7E)
    ∧ decodeTableWord 24 0x500000 = none := by decide

/-! ## Ports (30 R102, R111) -/

/-- AFSK.TICK on HOST is reserved: ILLEGAL, `sys.err` bit 0. -/
theorem test_port_tick_on_host :
    step { State.reset with inputs := [{ port := .host, word := 0x2F0000 }] }
      = .next { State.reset with sys := { err := 1 }, resp := { status := .illegal, value := 0 } } := rfl

/-- FRT.RXB on STREAM runs: R262's example answers 1. -/
theorem test_port_rxb_on_stream :
    step { State.reset with inputs := [{ port := .stream, word := 0x3F007E }] } = exec (.frtRxb 0x7E) State.reset := rfl

/-- A reserved unit (30 R111). -/
theorem test_reserved_unit :
    step { State.reset with inputs := [{ port := .host, word := 0x500000 }] }
      = .next { State.reset with sys := { err := 1 }, resp := { status := .illegal, value := 0 } } := rfl

/-! ## One step of an operation -/

/-- The state after an operation. -/
def after (i : Instr) (s : State) : State :=
  match exec i s with
  | .next t => t
  | .fault _ => s
  | .refused _ => s

/-- The response of an operation: status and value. -/
def answered (i : Instr) (s : State) : Status × Value := ((after i s).resp.status, (after i s).resp.value)

/-- The registers that the BSF examples state: `bitlen`, `crc`, `ones`. -/
def bsfRegs (s : State) : Value × BitVec 16 × BitVec 3 := (s.bsf.bitlen, s.bsf.crc, s.bsf.ones)

/-- A state with bytes at the first addresses of a space. -/
def holding (sp : Space) (a : Nat) (bytes : List Byte) (s : State) : State := storeMany sp a bytes s

/-- The reset state, transmitting. -/
def sending : State := { State.reset with afsk := { State.reset.afsk with state := .transmitting, ptt := true } }

/-- The reset state under the XOR variant of CPF. -/
def xorReset : State := State.resetWith { Config.t0 with cpfVariant := .xor } 0

/-- 40 R144, example. -/
theorem test_bsfRst :
    bsfRegs (after .bsfRst { State.reset with bsf := { State.reset.bsf with bitlen := 9, crc := 0x00FF, ones := 3 } })
      = (0, 0xFFFF, 0) := by decide

/-- 40 R145, example. -/
theorem test_bsfSync : bsfRegs (after .bsfSync State.reset) = (8, 0xFFFF, 0)
    ∧ bitSequence (after .bsfSync State.reset) = [false, false, false, false, false, false, false, false] := by decide

/-- 40 R146, example; a flag leaves the run count (corner case). -/
theorem test_bsfFlag :
    bitSequence (after .bsfFlag State.reset) = [false, true, true, true, true, true, true, false]
      ∧ bsfRegs (after .bsfFlag { State.reset with bsf := { State.reset.bsf with ones := 4 } }) = (8, 0xFFFF, 4) := by
  decide

/-- 40 R147, row 0xF8: the run completes on the last data bit and the inserted 0 still follows. -/
theorem test_bsfByte_stuff_last : bsfRegs (after (.bsfByte 0xF8) State.reset) = (9, 0x7440, 0)
    ∧ bitSequence (after (.bsfByte 0xF8) State.reset)
      = [false, false, false, true, true, true, true, true, false] := by decide

/-- 40 R147, second byte of the row `0xFF then 0xFF`: ten bits. -/
theorem test_bsfByte_run_carries :
    bsfRegs (after (.bsfByte 0xFF) { State.reset with bsf := { State.reset.bsf with crc := 0x00FF, ones := 3 } })
      = (10, 0x0000, 1) := by decide

/-- 40 R148, second example: `mkaddr("AB", 15)` in slot 0. -/
theorem test_bsfAddr :
    bsfRegs (after (.bsfAddr 0 false) (holding .addr 0 [0x41, 0x42, 0x20, 0x20, 0x20, 0x20, 0x3F] State.reset))
      = (57, 0xDA5B, 0) := by
  decide +kernel

/-- 60 R362: RANGE before BUSY. -/
theorem test_bsfAddr_range : answered (.bsfAddr 10 false) sending = (.range, 0) := by decide

/-- 40 R149, examples: from reset; and after 0x41, whose accumulator is 0x5C0A. -/
theorem test_bsfFcs : answered .bsfFcs State.reset = (.ok, 0x0000) ∧ bsfRegs (after .bsfFcs State.reset) = (16, 0xF0B8, 0)
    ∧ answered .bsfFcs { State.reset with bsf := { State.reset.bsf with crc := 0x5C0A, ones := 1 } } = (.ok, 0xA3F5) := by
  decide +kernel

/-- The operands of V-BSF-26 (95): source N0CALL-1, destination APRS-0, empty message, no path. -/
def vector26 : State :=
  holding .addr 8 [0x4E, 0x30, 0x43, 0x41, 0x4C, 0x4C, 0x31]
    (holding .addr 0 [0x41, 0x50, 0x52, 0x53, 0x20, 0x20, 0x30] State.reset)

/-- 95 V-BSF-26: 185 bits, final accumulator 0xF0B8, run length 0. -/
theorem test_bsfBuild : bsfRegs (after .bsfBuild vector26) = (185, 0xF0B8, 0) := by decide +kernel

/-- 95 V-BSF-26: the bytes between the flags, before the frame check sequence. -/
theorem test_bsfBuild_bytes :
    frameBytes vector26
      = [0x82, 0xA0, 0xA4, 0xA6, 0x40, 0x40, 0x60, 0x9C, 0x60, 0x86, 0x82, 0x98, 0x98, 0x63, 0x03, 0xF0] := by decide

/-- 40 R149: after the nine bytes of `123456789` the accumulator is 0x6F91. -/
theorem test_crcOver : crcOver 0xFFFF (bitsOf [0x31, 0x32, 0x33, 0x34, 0x35, 0x36, 0x37, 0x38, 0x39]) = 0x6F91 := by
  decide +kernel

/-- 40 R150: BUSY while transmitting, and nothing but `sys.err` bit 2 changes. -/
theorem test_bsfBuild_busy :
    exec .bsfBuild sending = .next { sending with sys := { err := 4 }, resp := { status := .busy, value := 0 } } := rfl

/-- 40 R151, example: the SSID character of slot 1. -/
theorem test_bsfWaddr : load .addr 14 (after (.bsfWaddr 1 6 0x31) State.reset) = 0x31
    ∧ answered (.bsfWaddr 1 7 0x31) State.reset = (.range, 0) := by decide

/-- 40 R152, example. -/
theorem test_bsfWmsg : load .msg 0 (after (.bsfWmsg 0 0x48) State.reset) = 0x48 := by decide

/-- 40 R153: 256 is legal, 300 is not, and is not truncated to 44. -/
theorem test_bsfSetlen : (after (.bsfSetlen 256) State.reset).bsf.msglen = 256
    ∧ (after (.bsfSetlen 300) State.reset).bsf.msglen = 0 ∧ answered (.bsfSetlen 300) State.reset = (.range, 0) := by decide

/-- 40 R154. -/
theorem test_bsfSetpath : (after (.bsfSetpath 2) State.reset).bsf.pathcount = 2
    ∧ answered (.bsfSetpath 9) State.reset = (.range, 0) := by decide

/-- The bits of BSF.FLAG from reset. -/
def flagSent : State :=
  { State.reset with bsf := { State.reset.bsf with bits := cellSetMany [] 0 flagBits, bitlen := 8 } }

/-- 40 R155, example: after BSF.FLAG. -/
theorem test_bsfRbit : answered (.bsfRbit 0) flagSent = (.ok, 0) ∧ answered (.bsfRbit 1) flagSent = (.ok, 1)
    ∧ answered (.bsfRbit 8) flagSent = (.range, 0) := by decide

/-- 40 R156, R157. -/
theorem test_bsfRlen_bsfRcrc : answered .bsfRlen flagSent = (.ok, 8) ∧ answered .bsfRcrc State.reset = (.ok, 0xFFFF) := by
  decide

/-- 40 R158, R159. -/
theorem test_bsfRaddr_bsfRmsg : answered (.bsfRaddr 1 6) vector26 = (.ok, 0x31)
    ∧ answered (.bsfRmsg 3) (holding .msg 3 [0x69] State.reset) = (.ok, 0x69) := by decide

/-- 41 R181 and R198, examples. -/
theorem test_miceWin_miceRin : load .micIn 0x12 (after (.miceWin 0x12 0x09) State.reset) = 0x09
    ∧ answered (.miceWin 0x13 0) State.reset = (.range, 0)
    ∧ answered (.miceRin 0x12) (holding .micIn 0x12 [0x09] State.reset) = (.ok, 0x09) := by decide

/-- The inputs of the example of 41 R182: 200564, -672774, 61, 20, 251, `j`, `/`, 0x09. -/
def fixExample : State :=
  holding .micIn 0 [0x74, 0x0F, 0x03, 0x00, 0xFA, 0xBB, 0xF5, 0xFF, 0x3D, 0x00, 0x00, 0x00, 0x14, 0x00, 0xFB, 0x00, 0x6A,
    0x2F, 0x09] State.reset

/-- 41 R182, example. -/
theorem test_miceEnc :
    loadMany .micDest 0 7 (after .miceEnc fixExample) = [0x53, 0x33, 0x32, 0x55, 0x56, 0x54, 0x30]
      ∧ loadMany .micInfo 0 13 (after .miceEnc fixExample)
        = [0x60, 0x28, 0x5F, 0x66, 0x6E, 0x22, 0x4F, 0x6A, 0x2F, 0x22, 0x34, 0x54, 0x7D]
      ∧ answered .miceEnc fixExample = (.ok, 13) := by decide

/-- 41 R182: latitude 540000 is out of range, and nothing is encoded. -/
theorem test_miceEnc_range :
    answered .miceEnc (holding .micIn 0 [0x60, 0x3D, 0x08, 0x00] fixExample) = (.range, 0)
      ∧ (after .miceEnc (holding .micIn 0 [0x60, 0x3D, 0x08, 0x00] fixExample)).mice.ok = false := by decide

/-- 41 R196, example: after the encoding of R182's fix. -/
theorem test_micePut :
    loadMany .addr 0 7 (after .micePut (after .miceEnc fixExample)) = [0x53, 0x33, 0x32, 0x55, 0x56, 0x54, 0x30]
      ∧ (after .micePut (after .miceEnc fixExample)).bsf.msglen = 13 ∧ answered .micePut State.reset = (.busy, 0) := by
  decide

/-- 41 R197, example. -/
theorem test_miceRout : answered (.miceRout 0) (after .miceEnc fixExample) = (.ok, 0x53)
    ∧ answered (.miceRout 8) (after .miceEnc fixExample) = (.ok, 0x60)
    ∧ answered (.miceRout 20) (after .miceEnc fixExample) = (.ok, 0x7D)
    ∧ answered (.miceRout 7) (after .miceEnc fixExample) = (.range, 0) := by decide

/-- 42 R221: the state a transmission starts in; BUSY the second time; OVF for a truncated sequence. -/
theorem test_afskTx : (after .afskTx State.reset).afsk = { sending.afsk with tone := .mark }
    ∧ answered .afskTx sending = (.busy, 0)
    ∧ answered .afskTx { State.reset with bsf := { State.reset.bsf with ovf := true } } = (.ovf, 0) := by decide

/-- The sequence `0`, transmitting, after the ticks of 42 R224 that the registers tell. -/
def keyed (tone : Tone) (sidx : BitVec 5) (elapsed bitpos : BitVec 16) : State :=
  { State.reset with
    bsf := { State.reset.bsf with bits := [(0, false)], bitlen := 1 }
    afsk := { state := .transmitting, tone := tone, sidx := sidx, elapsed := elapsed, bitpos := bitpos, dac := 103,
              ptt := true } }

/-- 42 R224, tick 33 of the sequence `0`: 832 + 26 = 858, the bit is 0, the tone toggles. -/
theorem test_afskTick_boundary :
    (after .afskTick (keyed .mark 0 832 0)).afsk
      = { state := .transmitting, tone := .space, sidx := 1, elapsed := 25, bitpos := 1, dac := 128, ptt := true } := by
  decide

/-- 42 R224, tick 91: 823 + 14 = 837, the stream is exhausted. -/
theorem test_afskTick_end :
    (after .afskTick (keyed .space 26 823 1)).afsk
      = { state := .idle, tone := .space, sidx := 0, elapsed := 0, bitpos := 1, dac := 10, ptt := false }
    ∧ answered .afskTick (keyed .space 26 823 1) = (.ok, 0) := by decide

/-- 42 R226: the stream is forced to its end. -/
theorem test_afskEnd : (after .afskEnd (keyed .mark 3 78 0)).afsk.bitpos = 1
    ∧ after .afskEnd State.reset = State.reset := by decide

/-- 42 R227. -/
theorem test_afskStat : answered .afskStat State.reset = (.ok, 0) ∧ answered .afskStat sending = (.ok, 1) := by decide

/-- 42 R228, examples 326 and 3168. -/
theorem test_afskTime :
    answered .afskTime { State.reset with bsf := { State.reset.bsf with bitlen := 326 } } = (.ok, 271)
      ∧ answered .afskTime { State.reset with bsf := { State.reset.bsf with bitlen := 3168 } } = (.ok, 2640) := by decide

/-- 42 R229, example: after tick 33. -/
theorem test_afskRout :
    answered (.afskRout 0) (after .afskTick (keyed .mark 0 832 0)) = (.ok, 128)
      ∧ answered (.afskRout 1) (after .afskTick (keyed .mark 0 832 0)) = (.ok, 0x61)
      ∧ answered (.afskRout 2) (after .afskTick (keyed .mark 0 832 0)) = (.ok, 25)
      ∧ answered (.afskRout 3) (after .afskTick (keyed .mark 0 832 0)) = (.ok, 1)
      ∧ answered (.afskRout 4) State.reset = (.range, 0) := by decide

/-- The reset state with bytes in the receive queue. -/
def queued (bytes : List Byte) : State := { State.reset with frt := { State.reset.frt with rxfifo := bytes } }

/-- 43 R263, example: the eleven bytes before a single POLL. -/
theorem test_frtPoll :
    answered .frtPoll (queued [0x7E, 0x00, 0x07, 0x81, 0x12, 0x34, 0x28, 0x00, 0x48, 0x69, 0x5F]) = (.ok, 0x13)
      ∧ loadMany .frtPayload 0 2
          (after .frtPoll (queued [0x7E, 0x00, 0x07, 0x81, 0x12, 0x34, 0x28, 0x00, 0x48, 0x69, 0x5F])) = [0x48, 0x69] := by
  decide

/-- 43 R270, example: FAIL_LEN, and the rest of the queue is left. -/
theorem test_frtPoll_fail : answered .frtPoll (queued [0x7E, 0x00, 0x04, 0x81, 0x7E, 0x00, 0x05]) = (.ok, 0x31)
    ∧ (after .frtPoll (queued [0x7E, 0x00, 0x04, 0x81, 0x7E, 0x00, 0x05])).frt.rxfifo = [0x81, 0x7E, 0x00, 0x05] := by
  decide

/-- 43 R272 and R273, examples: after R263's frame. -/
theorem test_frtRfrm_frtRpay :
    answered (.frtRfrm 0)
        (after .frtPoll (queued [0x7E, 0x00, 0x07, 0x81, 0x12, 0x34, 0x28, 0x00, 0x48, 0x69, 0x5F])) = (.ok, 1)
      ∧ answered (.frtRfrm 17)
        (after .frtPoll (queued [0x7E, 0x00, 0x07, 0x81, 0x12, 0x34, 0x28, 0x00, 0x48, 0x69, 0x5F])) = (.ok, 0x00)
      ∧ answered (.frtRfrm 5) State.reset = (.range, 0)
      ∧ answered (.frtRpay 1)
        (after .frtPoll (queued [0x7E, 0x00, 0x07, 0x81, 0x12, 0x34, 0x28, 0x00, 0x48, 0x69, 0x5F])) = (.ok, 0x69) := by
  decide

/-- 43 R262: the queue at its depth drops the byte, CAP and RXOVR. -/
theorem test_frtRxb : answered (.frtRxb 0x7E) State.reset = (.ok, 1)
    ∧ (after (.frtRxb 0x7E) (queued (List.replicate 128 0))).sys.err = 0b110000 := by
  decide +kernel

/-- 43 R274, example: destination 0x6905. -/
theorem test_frtWdst :
    (after (.frtWdst 1 0x69) { State.reset with frt := { State.reset.frt with dst := 0xFF05 } }).frt.dst = 0x6905
      ∧ answered (.frtWdst 2 0) State.reset = (.range, 0) := by decide

/-- 43 R275 and R276, examples. -/
theorem test_frtWopt_frtWpay : (after (.frtWopt 1) State.reset).frt.opt = 1
    ∧ load .frtTx 2 (after (.frtWpay 2 3) State.reset) = 3 ∧ answered (.frtWpay 100 3) State.reset = (.range, 0) := by decide

/-- The operands of the example of 43 R277. -/
def sendExample : State :=
  holding .frtTx 0 [1, 2, 3] { State.reset with frt := { State.reset.frt with dst := 0x6905, opt := 1 } }

/-- 43 R277, example, the source's own. -/
theorem test_frtSend :
    (after (.frtSend 3) sendExample).frt.txlog
        = [0x7E, 0x00, 0x08, 0x01, 0x00, 0x69, 0x05, 0x01, 0x01, 0x02, 0x03, 0x89]
      ∧ answered (.frtSend 3) sendExample = (.ok, 8) ∧ answered (.frtSend 101) sendExample = (.cap, 0) := by decide

/-- 43 R279 and R280. -/
theorem test_frtRstg_frtRst :
    answered .frtRstg { State.reset with frt := { State.reset.frt with stage := .payload } } = (.ok, 4)
      ∧ (after .frtRst { queued [1] with frt := { (queued [1]).frt with stage := .payload, opt := 7 } }).frt
        = { State.reset.frt with opt := 7 } := by decide

/-- 44 R314, example `01 AA AB`, last byte, XOR variant. -/
theorem test_cpfPush_xor :
    answered (.cpfPush 0xAB)
        { xorReset with cpf := { xorReset.cpf with stage := .integrity, size := 1, count := 1, chk := 0xAB } } = (.ok, 1)
      ∧ answered (.cpfPush 0x21) xorReset = (.ok, 0) ∧ (after (.cpfPush 0x21) xorReset).cpf.stage = .awaitSize := by decide

/-- The CRC32 example of 44 R315 before its last byte. -/
def crcExample (second : Byte) : State :=
  holding .cpfBuf 0 [0x10, second, 0x33, 0x36, 0x96, 0x83]
    { State.reset with cpf := { State.reset.cpf with stage := .integrity, size := 3, count := 3, icnt := 3 } }

/-- 44 R315, examples: the packet `03 10 20 33 36 96 83 05`, and with one payload bit flipped. -/
theorem test_cpfPush_crc32 : answered (.cpfPush 0x05) (crcExample 0x20) = (.ok, 1)
    ∧ answered (.cpfPush 0x05) (crcExample 0x21) = (.ok, 0) := by
  decide +kernel

/-- 44 R316: the check value of `123456789`. -/
theorem test_crc32 : crc32 [0x31, 0x32, 0x33, 0x34, 0x35, 0x36, 0x37, 0x38, 0x39] = 0xCBF43926 := by
  decide +kernel

/-- 44 R318, R319, R323. -/
theorem test_cpf_reads :
    answered .cpfRsize { State.reset with cpf := { State.reset.cpf with size := 1, valid := true } } = (.ok, 0x8001)
      ∧ answered (.cpfRbuf 3) (crcExample 0x20) = (.ok, 0x36) ∧ answered (.cpfRbuf 36) State.reset = (.range, 0)
      ∧ answered .cpfRstg (crcExample 0x20) = (.ok, 2) := by decide

/-- 44 R320 and R322. -/
theorem test_cpfWpay_cpfRst : load .cpfTx 0 (after (.cpfWpay 0 0x10) State.reset) = 0x10
    ∧ answered (.cpfWpay 32 0) State.reset = (.range, 0) ∧ (after .cpfRst (crcExample 0x20)).cpf.stage = .awaitSize := by
  decide

/-- 44 R321, examples, both variants. -/
theorem test_cpfEnc :
    (after (.cpfEnc 3) (holding .cpfTx 0 [0x10, 0x20, 0x33] State.reset)).cpf.txlog
        = [0x03, 0x10, 0x20, 0x33, 0x36, 0x96, 0x83, 0x05]
      ∧ (after (.cpfEnc 1) (holding .cpfTx 0 [0xAA] xorReset)).cpf.txlog = [0x01, 0xAA, 0xAB] := by
  decide +kernel

/-- 45 R340 to R344; R343's example. -/
theorem test_sys : after .sysNop State.reset = State.reset ∧ answered .sysId State.reset = (.ok, 0x4F53)
    ∧ answered .sysRerr { State.reset with sys := { err := 6 } } = (.ok, 6)
    ∧ answered (.sysClrerr 2) { State.reset with sys := { err := 6 } } = (.ok, 4)
    ∧ (after .sysReset sending).afsk = State.reset.afsk := by decide

/-! ## Witnesses: concrete states and operands that meet the hypotheses of the statements, for each clause, at the bounds
of its range -/

/-- T0 after `n` zero bits have been sent as data since power-on. -/
def filled (n : Nat) : State :=
  { State.reset with
    bsf := { State.reset.bsf with bits := cellSetMany [] 0 (List.replicate n false), bitlen := BitVec.ofNat 16 n } }

/-- The invariant holds with any number of bits sent, up to the capacity. -/
theorem inv_filled (n : Nat) (h : n ≤ 3340) : Inv (filled n) := by
  have hl : (BitVec.ofNat 16 n).toNat = n := by simp; omega
  refine ⟨(by decide : Config.t0.wf = true), ?_, ?_, ?_, ?_, ?_, fun _ => rfl⟩
  · refine ⟨cellSetMany_wf 0 _ rfl, cellSetMany_within _ (fun k _ hk => ?_) rfl, ?_, ?_, ?_, (fun h => nomatch h),
      rfl, rfl, rfl, rfl, ?_, ?_⟩
    · simp only [List.length_replicate] at hk
      show decide (k < 3340) = true
      simp; omega
    · intro k hk
      change k < (BitVec.ofNat 16 n).toNat at hk
      change (cellGet (cellSetMany [] 0 (List.replicate n false)) k).isSome = true
      rw [hl] at hk
      have h1 : 0 ≤ k ∧ k < 0 + (List.replicate n false).length := by simp; omega
      rw [cellGet_cellSetMany, if_pos h1]; simp [hk]
    · show (BitVec.ofNat 16 n).toNat ≤ 3340
      omega
    · show (0#3).toNat ≤ 4
      decide
    · show (0#9).toNat ≤ 256
      decide
    · show (0#8).toNat ≤ 8
      decide
  · constructor <;> simp [filled, State.reset, State.resetWith, cellsWf, cellsWithin]
  · constructor <;> simp [filled, State.reset, State.resetWith]
  · constructor <;> simp [filled, State.reset, State.resetWith, cellsWf, cellsWithin, FrtStage.inFrame,
      FrtStage.pastLength, FrtStage.pastApiId]
  · constructor <;> simp [filled, State.reset, State.resetWith, cellsWf, cellsWithin]

/-- A transmission of eight zero bits that has just started. -/
def onAir : State :=
  { filled 8 with afsk := { (filled 8).afsk with state := .transmitting, ptt := true } }

theorem inv_onAir : Inv onAir := by
  obtain ⟨h1, h2, h3, h4, h5, h6, h7⟩ := inv_filled 8 (by decide)
  refine ⟨h1, h2, h3, ?_, h5, h6, h7⟩
  constructor <;> simp [onAir, filled, State.reset, State.resetWith, Config.t0]

theorem witness_StepRunsTheDecodedCommand :
    { filled 8 with inputs := [{ port := .timer, word := 0x2F0000 }] }.inputs = { port := .timer, word := 0x2F0000 } :: []
      ∧ decode 0x2F0000 = .ok .afskTick ∧ Instr.port .afskTick = .timer ∧ (filled 8).inputs = [] := by decide

/-- The last defined and the first reserved operation of each table, and the ports that admit one operation each. -/
theorem witness_EveryWordRunsOrIsIllegal :
    { filled 8 with inputs := [{ port := .host, word := 0x140000 }] }.inputs = { port := .host, word := 0x140000 } :: []
      ∧ tableHas 0 15 = true ∧ tableHas 1 4 = true ∧ tableHas 1 5 = false ∧ tableHas 2 4 = true ∧ tableHas 2 5 = false
      ∧ tableHas 2 14 = false ∧ tableHas 2 15 = true ∧ tableHas 3 8 = true ∧ tableHas 3 9 = false
      ∧ tableHas 3 14 = false ∧ tableHas 3 15 = true ∧ tableHas 4 6 = true ∧ tableHas 4 7 = false
      ∧ tableHas 5 0 = false ∧ tableHas 14 15 = false ∧ tableHas 15 4 = true ∧ tableHas 15 5 = false
      ∧ portAdmits .host 1 4 = true ∧ portAdmits .host 2 15 = false ∧ portAdmits .timer 2 15 = true
      ∧ portAdmits .timer 2 4 = false ∧ portAdmits .stream 3 15 = true ∧ portAdmits .host 3 15 = false := by decide

theorem witness_EncodeOfDecodeKeepsTheUsedBits : decode 0x09FF2C = .ok (.bsfSetlen 300) := by decide

theorem witness_UnnamedOperandBitsAreIgnored :
    decode 0x09FF2C = .ok (.bsfSetlen 300)
      ∧ 0x09012C#24 &&& usedBits (.bsfSetlen 300) = 0x09FF2C#24 &&& usedBits (.bsfSetlen 300) := by decide

theorem witness_SysResetKeepsConfigurationAndCommands : ∃ t, exec .sysReset onAir = .next t := ⟨_, rfl⟩

theorem witness_InvariantHoldsAfterReset : Config.t0.wf = true := by decide

theorem witness_InvariantKeptByEveryStep : Inv onAir ∧ step onAir = .next onAir := ⟨inv_onAir, rfl⟩

theorem witness_ConfigurationNeverChanges : step onAir = .next onAir := rfl

/-- Refused for its state; refused for an overflow, which keeps the bookkeeping; refused for a full queue. -/
theorem witness_RefusalsArePrecise :
    (∃ t, exec .bsfBuild onAir = .next t ∧ t.resp.status ≠ .ok
        ∧ ¬ (appendsBits .bsfBuild = true ∧ t.resp.status = .ovf))
      ∧ (∃ t, exec .bsfFlag (filled 3340) = .next t ∧ appendsBits .bsfFlag = true ∧ t.resp.status = .ovf)
      ∧ ∃ t, exec (.frtRxb 1) (queued (List.replicate 128 0)) = .next t ∧ t.resp.status ≠ .ok := by
  refine ⟨⟨_, rfl, by decide, by decide⟩, ⟨_, rfl, rfl, ?_⟩, ⟨_, rfl, by decide +kernel⟩⟩
  have h := (appendAll_spec 3340 { (filled 3340).bsf with ovf := false } flagBits (by decide) (by decide)).2.2
  have h2 : (rawByte (filled 3340).cfg.bitCap { (filled 3340).bsf with ovf := false } flagByteValue).ovf = true := by
    rw [rawByte_eq, byteBits_flag]
    show (appendAll 3340 { (filled 3340).bsf with ovf := false } flagBits).ovf = true
    rw [h]; rfl
  rw [bitWriting_idle rfl, if_pos h2]; rfl

theorem witness_StatusesAreThoseOfTheTable : ∃ t, exec .bsfBuild onAir = .next t := ⟨_, rfl⟩

theorem witness_StickyBitsChangeOnlyAsStated :
    ∃ t, exec .bsfBuild onAir = .next t ∧ Instr.bsfBuild ≠ .sysReset ∧ ∀ m, Instr.bsfBuild ≠ .sysClrerr m :=
  ⟨_, rfl, by decide, fun _ h => by cases h⟩

theorem witness_LoadsHaveNoSideEffect :
    (∃ t, isLoad (.bsfRbit 7) = true ∧ exec (.bsfRbit 7) onAir = .next t ∧ t.resp.status = .ok)
      ∧ ∃ t, isLoad (.bsfRbit 8) = true ∧ exec (.bsfRbit 8) onAir = .next t ∧ t.resp.status = .range :=
  ⟨⟨_, rfl, rfl, by decide⟩, ⟨_, rfl, rfl, by decide⟩⟩

theorem witness_BitSequenceIsReadOnlyDuringTransmission :
    onAir.afsk.state = .transmitting ∧ appendsBits (.bsfAddr 9 true) = true ∧ (9#8).toNat ≤ 1 + onAir.cfg.maxPath
      ∧ ∃ t, Instr.afskTick ≠ .sysReset ∧ exec .afskTick onAir = .next t :=
  ⟨rfl, rfl, by decide, _, by decide, rfl⟩

theorem witness_UnitsWriteOnlyTheirOwnState :
    (∃ t, exec .micePut onAir = .next t) ∧ Instr.micePut ≠ .sysReset ∧ unitOf .micePut = .mice ∧ unitOf .bsfRst = .bsf
      ∧ unitOf .afskTick = .afsk ∧ unitOf (.frtRxb 0) = .frt ∧ unitOf (.cpfPush 0) = .cpf ∧ unitOf .sysId = .sys :=
  ⟨⟨_, rfl⟩, by decide, by decide, by decide, by decide, by decide, by decide, by decide⟩

theorem witness_MemoryChangesOnlyInTheCellsNamed :
    Inv (filled 8) ∧ (∃ t, exec .bsfFlag (filled 8) = .next t) ∧ ¬ mayWriteBit .bsfFlag (filled 8) 7
      ∧ mayWriteBit .bsfFlag (filled 8) 8 ∧ ¬ mayWrite (.bsfWmsg 3 1) (filled 8) .msg 2
      ∧ mayWrite (.bsfWmsg 3 1) (filled 8) .msg 3 :=
  ⟨inv_filled 8 (by decide), ⟨_, rfl⟩, fun h => absurd h.2.1 (by decide), ⟨rfl, by decide, by decide⟩,
    fun h => absurd h.2 (by decide), ⟨rfl, rfl⟩⟩

theorem witness_BsfRstResetsTheSequence : onAir.afsk.state = .transmitting ∧ (filled 9).afsk.state = .idle := by decide

/-- Eight bits that just fit, and one bit short. -/
theorem witness_SyncAndFlagAppendRawBits :
    onAir.afsk.state = .transmitting ∧ Inv (filled 3332) ∧ (filled 3332).afsk.state = .idle
      ∧ (filled 3332).bsf.bitlen.toNat + 8 ≤ (filled 3332).cfg.bitCap ∧ Inv (filled 3333)
      ∧ (filled 3333).cfg.bitCap < (filled 3333).bsf.bitlen.toNat + 8 :=
  ⟨rfl, inv_filled _ (by decide), rfl, by decide, inv_filled _ (by decide), by decide⟩

/-- 0xFF sends nine bits after a zero: they just fit, and are one short. -/
theorem witness_ByteAppendsStuffedBits :
    onAir.afsk.state = .transmitting ∧ Inv (filled 3331) ∧ (filled 3331).afsk.state = .idle
      ∧ (filled 3331).bsf.bitlen.toNat + (stuff 0 (bitsOf [0xFF])).length ≤ (filled 3331).cfg.bitCap ∧ Inv (filled 3332)
      ∧ (filled 3332).cfg.bitCap < (filled 3332).bsf.bitlen.toNat + (stuff 0 (bitsOf [0xFF])).length :=
  ⟨rfl, inv_filled _ (by decide), rfl, by decide, inv_filled _ (by decide), by decide⟩

/-- `mkaddr("AB", 15)`: the largest SSID, with the OR masks of T0. -/
theorem witness_AddressFieldEncoding :
    15 ≤ 15 ∧ (holding .addr 6 [0x3F] State.reset).cfg.addrOrSsid = 0
      ∧ load .addr (8 * 0 + 6) (holding .addr 6 [0x3F] State.reset) = BitVec.ofNat 8 (0x30 + 15) := by decide

/-- The last slot, and the first that does not exist; an address that fits, and one that does not. -/
theorem witness_AddrAppendsTheAddressField :
    1 + (filled 8).cfg.maxPath < (10#8).toNat ∧ (9#8).toNat ≤ 1 + onAir.cfg.maxPath ∧ onAir.afsk.state = .transmitting
      ∧ Inv (filled 8) ∧ (filled 8).afsk.state = .idle ∧ Inv (filled 3340) ∧ (filled 3340).afsk.state = .idle :=
  ⟨by decide, by decide, rfl, inv_filled _ (by decide), rfl, inv_filled _ (by decide), rfl⟩

/-- From the accumulator 0xFFFF the two check bytes are zero: sixteen bits that just fit, and one short. -/
theorem witness_FcsAppendsTheCheckSequence :
    onAir.afsk.state = .transmitting ∧ Inv (filled 3324) ∧ (filled 3324).afsk.state = .idle
      ∧ (filled 3324).bsf.bitlen.toNat
        + (stuff 0 (bitsOf [(~~~(filled 3324).bsf.crc).extractLsb' 0 8, (~~~(filled 3324).bsf.crc).extractLsb' 8 8])).length
        ≤ (filled 3324).cfg.bitCap
      ∧ Inv (filled 3325)
      ∧ (filled 3325).cfg.bitCap < (filled 3325).bsf.bitlen.toNat
        + (stuff 0 (bitsOf [(~~~(filled 3325).bsf.crc).extractLsb' 0 8, (~~~(filled 3325).bsf.crc).extractLsb' 8 8])).length :=
  ⟨rfl, inv_filled _ (by decide), rfl, by decide, inv_filled _ (by decide), by decide⟩

theorem witness_BuildIsItsSequenceOfOperations :
    onAir.afsk.state = .transmitting ∧ Inv (filled 3340) ∧ (filled 3340).afsk.state = .idle :=
  ⟨rfl, inv_filled _ (by decide), rfl⟩

theorem witness_BuiltFrameHasTheFrameLayout : Inv (filled 8) ∧ (filled 8).afsk.state = .idle :=
  ⟨inv_filled _ (by decide), rfl⟩

theorem witness_StuffedBytesHoldNoSixOnes :
    Inv (filled 8) ∧ (filled 8).afsk.state = .idle ∧ (filled 8).bsf.ones = 0
      ∧ (∃ t, runOps ([0xFF#8].map .bsfByte) (filled 8) = some t ∧ (filled 8).bsf.bitlen.toNat ≤ 11
        ∧ 11 + 6 ≤ t.bsf.bitlen.toNat) :=
  ⟨inv_filled _ (by decide), rfl, rfl, _, rfl, by decide, by decide +kernel⟩

theorem witness_ReceiverRecoversTheBuiltFrame :
    Inv (filled 8) ∧ (filled 8).afsk.state = .idle ∧ ∃ t, exec .bsfBuild (filled 8) = .next t :=
  ⟨inv_filled _ (by decide), rfl, _, rfl⟩

/-- The last slot and byte, the first slot and the byte that do not exist, lengths 256 and 257, path counts 8 and 9. -/
theorem witness_BsfOperandStores :
    (9#5).toNat ≤ 1 + (filled 8).cfg.maxPath ∧ (6#3).toNat ≠ 7 ∧ 1 + (filled 8).cfg.maxPath < (10#5).toNat
      ∧ (7#3).toNat = 7 ∧ (256#9).toNat ≤ 256 ∧ 256 < (257#9).toNat ∧ (8#8).toNat ≤ (filled 8).cfg.maxPath
      ∧ (filled 8).cfg.maxPath < (9#8).toNat := by decide

theorem witness_BsfLoads :
    (7#16).toNat < (filled 8).bsf.bitlen.toNat ∧ (filled 8).bsf.bitlen.toNat ≤ (8#16).toNat
      ∧ (9#5).toNat ≤ 1 + (filled 8).cfg.maxPath ∧ (6#3).toNat ≠ 7 ∧ 1 + (filled 8).cfg.maxPath < (10#5).toNat := by
  decide

theorem witness_MiceInputBytes : (0x12#8).toNat ≤ 0x12 ∧ 0x12 < (0x13#8).toNat := by decide

/-- A fix at the bounds: latitude 539999, longitude -1079999, altitude 743570, speed 799, course 360. -/
def fixAtBounds : State :=
  holding .micIn 0 [0x5F, 0x3D, 0x08, 0x00, 0x41, 0x85, 0xEF, 0xFF, 0x92, 0x58, 0x0B, 0x00, 0x1F, 0x03, 0x68, 0x01, 0x6A,
    0x2F, 0x00] State.reset

/-- The inputs at the bounds are in range, and a latitude one higher is not. -/
theorem witness_MiceEncWritesTheStrings :
    fixAtBounds.cfg.wf = true
      ∧ (load .micIn 3 fixAtBounds ++ load .micIn 2 fixAtBounds ++ load .micIn 1 fixAtBounds ++ load .micIn 0 fixAtBounds
        : BitVec 32).toInt = 539999
      ∧ (load .micIn 7 fixAtBounds ++ load .micIn 6 fixAtBounds ++ load .micIn 5 fixAtBounds ++ load .micIn 4 fixAtBounds
        : BitVec 32).toInt = -1079999
      ∧ (load .micIn 11 fixAtBounds ++ load .micIn 10 fixAtBounds ++ load .micIn 9 fixAtBounds ++ load .micIn 8 fixAtBounds
        : BitVec 32).toInt = 743570
      ∧ (load .micIn 13 fixAtBounds ++ load .micIn 12 fixAtBounds : BitVec 16).toNat = 799
      ∧ (load .micIn 15 fixAtBounds ++ load .micIn 14 fixAtBounds : BitVec 16).toNat = 360
      ∧ (load .micIn 3 (holding .micIn 0 [0x60] fixAtBounds) ++ load .micIn 2 (holding .micIn 0 [0x60] fixAtBounds)
        ++ load .micIn 1 (holding .micIn 0 [0x60] fixAtBounds) ++ load .micIn 0 (holding .micIn 0 [0x60] fixAtBounds)
        : BitVec 32).toInt = 540000 := by decide

/-- The fix at the bounds under a two-character speed and course field of the platform's. -/
theorem witness_MicePlatformSpeedCourse :
    { Config.t0 with lSc := 2, miceSc := .platform }.wf = true
      ∧ ∃ t, exec .miceEnc { fixAtBounds with cfg := { Config.t0 with lSc := 2, miceSc := .platform } } = .next t
        ∧ t.resp.status = .ok ∧ (1 : Nat) < 2 := ⟨by decide, _, rfl, by decide, by decide⟩

theorem witness_MiceStringsDecodeToTheFix :
    fixAtBounds.cfg.wf = true ∧ ∃ t, exec .miceEnc fixAtBounds = .next t ∧ t.resp.status = .ok :=
  ⟨by decide, _, rfl, by decide⟩

theorem witness_MicePutHandsOverToBsf :
    State.reset.mice.ok = false ∧ (after .miceEnc fixExample).mice.ok = true := by decide

theorem witness_MiceRoutReadsTheStrings :
    (6#8).toNat ≤ 6 ∧ (7#8).toNat = 7 ∧ 8 ≤ (8#8).toNat ∧ (20#8).toNat ≤ 20 ∧ 20 < (21#8).toNat := by decide

theorem witness_AfskTxStartsATransmission :
    onAir.afsk.state = .transmitting ∧ (filled 8).afsk.state = .idle ∧ (filled 8).bsf.ovf = false
      ∧ { filled 8 with bsf := { (filled 8).bsf with ovf := true } }.bsf.ovf = true := by decide

/-- 806 + 26 = 832 is within a bit period, 807 + 26 = 833 is a boundary; before and at the end of the stream. -/
theorem witness_AfskTickAdvancesTheModulator :
    (filled 8).afsk.state = .idle ∧ (keyed .mark 31 806 0).afsk.state = .transmitting
      ∧ (keyed .mark 31 806 0).cfg.sine.toList[31]? = some 103
      ∧ (keyed .mark 31 806 0).afsk.elapsed.toNat + (keyed .mark 31 806 0).cfg.tMark = 832
      ∧ (keyed .mark 31 807 0).afsk.elapsed.toNat + (keyed .mark 31 807 0).cfg.tMark = 833
      ∧ (keyed .mark 31 807 0).afsk.bitpos.toNat < (keyed .mark 31 807 0).bsf.bitlen.toNat
      ∧ (keyed .mark 31 807 1).bsf.bitlen.toNat ≤ (keyed .mark 31 807 1).afsk.bitpos.toNat := by decide

theorem witness_AfskEndAndReads :
    onAir.afsk.state = .transmitting ∧ (filled 8).afsk.state = .idle ∧ 3 < (4#8).toNat := by decide

theorem witness_TransmissionEndsWithOneToneChangePerZeroBit :
    Inv (filled 8) ∧ (filled 8).afsk.state = .idle ∧ (filled 8).bsf.ovf = false ∧ ∃ t, exec .afskTx (filled 8) = .next t :=
  ⟨inv_filled _ (by decide), rfl, rfl, _, rfl⟩

theorem witness_FrtRxbQueuesAByte :
    (queued (List.replicate 127 0)).frt.rxfifo.length < (queued (List.replicate 127 0)).cfg.rxDepth
      ∧ (queued (List.replicate 128 0)).frt.rxfifo.length = (queued (List.replicate 128 0)).cfg.rxDepth := by decide +kernel

/-- A unit FRT in a given stage, with declared length and queue. -/
def frtAt (g : FrtStage) (len : BitVec 16) (queue : List Byte) : Frt :=
  { State.reset.frt with stage := g, len := len, rxfifo := queue }

/-- Each stage with too few bytes and with just enough; payloads of 100 bytes (accepted) and 101 (refused). -/
theorem witness_FrtStageRules :
    (frtAt .awaitStart 0 []).rxfifo = [] ∧ (frtAt .awaitStart 0 [0x7E]).rxfifo = 0x7E :: []
      ∧ (frtAt .length 0 [0]).rxfifo.length < 2 ∧ (frtAt .length 0 [0, 4]).rxfifo = 0 :: 4 :: []
      ∧ (frtAt .apiId 7 []).rxfifo = [] ∧ (frtAt .apiId 7 [0x81]).rxfifo = 0x81 :: []
      ∧ (frtAt .header 7 [1, 2, 3]).rxfifo.length < Config.t0.srcW + Config.t0.extraW
      ∧ (frtAt .header 7 [1, 2, 3, 4]).rxfifo = [1, 2] ++ [3, 4] ++ []
      ∧ Config.t0.payloadCap < (frtAt .payload 106 []).len.toNat - (1 + Config.t0.srcW + Config.t0.extraW)
      ∧ (frtAt .payload 105 []).len.toNat - (1 + Config.t0.srcW + Config.t0.extraW) ≤ Config.t0.payloadCap
      ∧ (frtAt .payload 105 []).rxfifo.length
        < (frtAt .payload 105 []).len.toNat - (1 + Config.t0.srcW + Config.t0.extraW)
      ∧ (frtAt .payload 6 [9]).rxfifo = [9] ++ []
      ∧ [9#8].length = (frtAt .payload 6 [9]).len.toNat - (1 + Config.t0.srcW + Config.t0.extraW)
      ∧ (frtAt .checksum 7 []).rxfifo = [] ∧ (frtAt .checksum 7 [5]).rxfifo = 5 :: []
      ∧ { frtAt .failure 7 [] with result := .failLen }.result = .failLen := by decide

theorem witness_BlockedPollLosesNoProgress :
    ∃ t, exec .frtPoll (queued [0x7E, 0x00]) = .next t ∧ t.resp.value = 0 := ⟨_, rfl, by decide⟩

theorem witness_PollAnswersAVerdictOrZero :
    (queued [0x7E, 0x00]).frt.stage ≠ .failure ∧ ∃ t, exec .frtPoll (queued [0x7E, 0x00]) = .next t :=
  ⟨by decide, _, rfl⟩

/-- The frame of R263's example, and the empty payload. -/
theorem witness_DecoderReceivesEveryFrame :
    State.reset.cfg.wf = true ∧ State.reset.frt.stage = .awaitStart ∧ State.reset.frt.rxfifo = []
      ∧ [0x12#8, 0x34].length = State.reset.cfg.srcW ∧ [0x28#8, 0x00].length = State.reset.cfg.extraW
      ∧ [0x48#8, 0x69].length ≤ State.reset.cfg.payloadCap ∧ ([] : List Byte).length ≤ State.reset.cfg.payloadCap
      ∧ rxFrame State.reset.cfg [0x12, 0x34] [0x28, 0x00] [0x48, 0x69]
        = [0x7E, 0x00, 0x07, 0x81, 0x12, 0x34, 0x28, 0x00, 0x48, 0x69, 0x5F] := by decide

/-- The identifier, and the checksum byte, of that frame changed. -/
theorem witness_DecoderRejectsEveryChangedByte :
    State.reset.cfg.wf = true
      ∧ rxFrame State.reset.cfg [0x12, 0x34] [0x28, 0x00] [0x48, 0x69]
        = [0x7E, 0x00, 0x07, 0x81, 0x12, 0x34, 0x28, 0x00, 0x48, 0x69, 0x5F]
      ∧ (queued [0x7E, 0x00, 0x07, 0x80, 0x12, 0x34, 0x28, 0x00, 0x48, 0x69, 0x5F]).frt.rxfifo
        = [0x7E#8, 0x00, 0x07, 0x81, 0x12, 0x34, 0x28, 0x00, 0x48, 0x69, 0x5F].set 3 0x80
      ∧ (queued [0x7E, 0x00, 0x07, 0x81, 0x12, 0x34, 0x28, 0x00, 0x48, 0x69, 0x5E]).frt.rxfifo
        = [0x7E#8, 0x00, 0x07, 0x81, 0x12, 0x34, 0x28, 0x00, 0x48, 0x69, 0x5F].set 10 0x5E
      ∧ [0x7E#8, 0x00, 0x07, 0x81, 0x12, 0x34, 0x28, 0x00, 0x48, 0x69, 0x5F][10]? ≠ some 0x5E := by decide

/-- Registers 8 and 9 are the source, 16 and 17 the extra bytes; 5, 7, 10, 15 and 18 are none. -/
theorem witness_FrtReads :
    State.reset.cfg.srcW ≤ 8 ∧ 8 ≤ (8#8).toNat ∧ (9#8).toNat < 8 + State.reset.cfg.srcW ∧ 16 ≤ (16#8).toNat
      ∧ (17#8).toNat < 16 + State.reset.cfg.extraW ∧ 5 ≤ (5#8).toNat ∧ (7#8).toNat < 8
      ∧ 8 + State.reset.cfg.srcW ≤ (10#8).toNat ∧ (15#8).toNat < 16 ∧ 16 + State.reset.cfg.extraW ≤ (18#8).toNat
      ∧ (99#8).toNat < State.reset.cfg.payloadCap ∧ State.reset.cfg.payloadCap ≤ (100#8).toNat := by decide

theorem witness_FrtEncoderStores :
    (1#8).toNat < State.reset.cfg.dstW ∧ State.reset.cfg.dstW ≤ 8 ∧ State.reset.cfg.dstW ≤ (2#8).toNat
      ∧ (99#8).toNat < State.reset.cfg.payloadCap ∧ State.reset.cfg.payloadCap ≤ (100#8).toNat := by decide

theorem witness_FrtSendEmitsTheFrame :
    (100#9).toNat ≤ State.reset.cfg.payloadCap ∧ State.reset.cfg.payloadCap < (101#9).toNat := by decide

/-- A unit CPF in a given stage, with size, count and integrity count. -/
def cpfAt (c : Config) (g : CpfStage) (size count : BitVec 6) (icnt : BitVec 2) : State :=
  { State.resetWith c 0 with
    cpf := { State.reset.cpf with stage := g, size := size, count := count, icnt := icnt } }

/-- Each stage, and the bounds of a size byte. -/
theorem witness_CpfPushDecodesOneByte :
    State.reset.cpf.stage = .awaitSize ∧ 1 ≤ (1#8).toNat ∧ (32#8).toNat ≤ 32 ∧ (0#8).toNat = 0 ∧ 32 < (33#8).toNat
      ∧ (cpfAt Config.t0 .data 32 31 0).cpf.stage = .data
      ∧ (cpfAt xorReset.cfg .integrity 1 1 0).cpf.stage = .integrity ∧ xorReset.cfg.cpfVariant = .xor
      ∧ (cpfAt Config.t0 .integrity 1 1 2).cpf.stage = .integrity ∧ Config.t0.cpfVariant = .crc32
      ∧ (cpfAt Config.t0 .integrity 1 1 2).cpf.icnt.toNat < 3 ∧ (cpfAt Config.t0 .integrity 1 1 3).cpf.icnt.toNat = 3 := by
  decide

theorem witness_CpfReadsAndReset : (35#8).toNat ≤ 35 ∧ 35 < (36#8).toNat := by decide

theorem witness_CpfEncoder :
    (31#8).toNat < 32 ∧ 32 ≤ (32#8).toNat ∧ (0#8).toNat = 0 ∧ 32 < (33#8).toNat ∧ 1 ≤ (1#8).toNat ∧ (32#8).toNat ≤ 32
      ∧ xorReset.cfg.cpfVariant = .xor ∧ Config.t0.cpfVariant = .crc32 := by decide

/-- The packet of one byte 0xAA (44 R321), encoded and decoded under the XOR variant. -/
theorem witness_PacketRoundTrip :
    ∃ t, exec (.cpfEnc 1) (holding .cpfTx 0 [0xAA] xorReset) = .next t ∧ t.resp.status = .ok
      ∧ t.cpf.txlog = (holding .cpfTx 0 [0xAA] xorReset).cpf.txlog ++ [0x01, 0xAA, 0xAB]
      ∧ xorReset.cfg.cpfVariant = (holding .cpfTx 0 [0xAA] xorReset).cfg.cpfVariant
      ∧ xorReset.cpf.stage = .awaitSize :=
  ⟨_, rfl, by decide, by decide, rfl, rfl⟩

/-- The same payload under the CRC32 variant: the packet of 44 R321's example. -/
theorem witness_PacketRoundTrip_crc32 :
    ∃ t, exec (.cpfEnc 1) (holding .cpfTx 0 [0xAA] State.reset) = .next t ∧ t.resp.status = .ok
      ∧ t.cpf.txlog = (holding .cpfTx 0 [0xAA] State.reset).cpf.txlog ++ [0x01, 0xAA, 0x48, 0x69, 0xC1, 0x6E]
      ∧ State.reset.cfg.cpfVariant = (holding .cpfTx 0 [0xAA] State.reset).cfg.cpfVariant
      ∧ State.reset.cpf.stage = .awaitSize :=
  ⟨_, rfl, rfl, by decide +kernel, rfl, rfl⟩

/-- That packet with its payload byte changed to 0xAB. -/
theorem witness_ChangedPacketIsRejected_crc32 :
    ∃ t, exec (.cpfEnc 1) (holding .cpfTx 0 [0xAA] State.reset) = .next t ∧ t.resp.status = .ok
      ∧ t.cpf.txlog = (holding .cpfTx 0 [0xAA] State.reset).cpf.txlog ++ [0x01, 0xAA, 0x48, 0x69, 0xC1, 0x6E]
      ∧ State.reset.cpf.stage = .awaitSize ∧ 1 ≤ (1#8).toNat
      ∧ [0x01#8, 0xAA, 0x48, 0x69, 0xC1, 0x6E][1]? ≠ some 0xAB :=
  ⟨_, rfl, rfl, by decide +kernel, rfl, by decide, by decide⟩

/-- The XOR packet with its payload byte, the first and the last, changed to 0xAB. -/
theorem witness_ChangedPacketIsRejected :
    ∃ t, exec (.cpfEnc 1) (holding .cpfTx 0 [0xAA] xorReset) = .next t ∧ t.resp.status = .ok
      ∧ t.cpf.txlog = (holding .cpfTx 0 [0xAA] xorReset).cpf.txlog ++ [0x01, 0xAA, 0xAB]
      ∧ xorReset.cfg.cpfVariant = (holding .cpfTx 0 [0xAA] xorReset).cfg.cpfVariant
      ∧ xorReset.cpf.stage = .awaitSize ∧ 1 ≤ (1#8).toNat ∧ [0x01#8, 0xAA, 0xAB][1]? ≠ some 0xAB
      ∧ 3 ≤ [0x01#8, 0xAA, 0xAB].length :=
  ⟨_, rfl, by decide, by decide, rfl, rfl, by decide, by decide, by decide⟩

end Sys2Proof.Tests
end

section
/-! SUPPORT. The state after reset has the reset values and the invariant; and, said once for all 49 operations, how an
operation ends: with an answer or a refusal, from a state that differs from the one before in at most one unit. The rules
about the sticky bits and about the units are read off that. -/

namespace Sys2Proof.Machine

/-! ## The state after reset -/

/-- Every register at its value of 10 R44, and no cell written. -/
theorem resetWith_resetValues (c : Config) (epoch : Nat) : ResetValues (State.resetWith c epoch) := by
  constructor
  case cells => intro sp a; cases sp <;> rfl
  all_goals intros; rfl

/-- Neither the issued commands nor the response are among the values of 10 R44. -/
theorem ResetValues.answer_withInputs {s : State} (h : ResetValues s) (is : List Command) (v : Value) :
    ResetValues (answer v { s with inputs := is }) :=
  { h with cells := fun sp a => by rw [← h.cells sp a]; cases sp <;> rfl }

theorem bsfInv_resetWith (c : Config) (epoch : Nat) : BsfInv c (State.resetWith c epoch).bsf := by
  constructor <;> simp [State.resetWith, cellsWf, cellsWithin]

theorem miceInv_resetWith (c : Config) (epoch : Nat) : MiceInv c (State.resetWith c epoch).mice := by
  constructor <;> simp [State.resetWith, cellsWf, cellsWithin]

theorem afskInv_resetWith (c : Config) (epoch : Nat) :
    AfskInv c (State.resetWith c epoch).bsf (State.resetWith c epoch).afsk := by
  constructor <;> simp [State.resetWith]

theorem frtInv_resetWith (c : Config) (epoch : Nat) : FrtInv c (State.resetWith c epoch).frt := by
  constructor <;> simp [State.resetWith, cellsWf, cellsWithin, FrtStage.inFrame, FrtStage.pastLength,
    FrtStage.pastApiId]

theorem cpfInv_resetWith (c : Config) (epoch : Nat) : CpfInv c (State.resetWith c epoch).cpf := by
  constructor <;> simp [State.resetWith, cellsWf, cellsWithin]

/-- Reset meets the invariant, unit by unit. -/
theorem inv_resetWith {c : Config} (epoch : Nat) (h : c.wf = true) : Inv (State.resetWith c epoch) where
  cfg := h
  bsf := bsfInv_resetWith c epoch
  mice := miceInv_resetWith c epoch
  afsk := afskInv_resetWith c epoch
  frt := frtInv_resetWith c epoch
  cpf := cpfInv_resetWith c epoch
  refusal_value := fun _ => rfl

/-! ## The frame of one unit -/

/-- `u` is `s` but for unit `w`, the sticky bits and the response. -/
structure SameUnits (w : CoreUnit) (s u : State) : Prop where
  bsf : w ≠ .bsf → u.bsf = s.bsf
  mice : w ≠ .mice → u.mice = s.mice
  afsk : w ≠ .afsk → u.afsk = s.afsk
  frt : w ≠ .frt → u.frt = s.frt
  cpf : w ≠ .cpf → u.cpf = s.cpf
  cfg : u.cfg = s.cfg
  inputs : u.inputs = s.inputs
  epoch : u.epoch = s.epoch

namespace SameUnits

variable {w : CoreUnit} {s u : State}

theorem refl (w : CoreUnit) (s : State) : SameUnits w s s := by constructor <;> simp

theorem withBsf (b : Bsf) : SameUnits .bsf s { s with bsf := b } := by constructor <;> simp

theorem withMice (m : Mice) : SameUnits .mice s { s with mice := m } := by constructor <;> simp

theorem withAfsk (a : Afsk) : SameUnits .afsk s { s with afsk := a } := by constructor <;> simp

theorem withFrt (f : Frt) : SameUnits .frt s { s with frt := f } := by constructor <;> simp

theorem withCpf (p : Cpf) : SameUnits .cpf s { s with cpf := p } := by constructor <;> simp

theorem withSys (h : SameUnits w s u) (e : Sys) : SameUnits w s { u with sys := e } := { h with }

theorem answer (h : SameUnits w s u) (v : Value) : SameUnits w s (answer v u) := { h with }

theorem raise (h : SameUnits w s u) (st : Status) : SameUnits w s (raise st u) := { h with }

end SameUnits

/-! ## How an operation of one unit ends -/

/-- Or-ing bits in clears none. -/
theorem and_or_cancel {n : Nat} (x y : BitVec n) : x &&& (x ||| y) = x := by
  ext k; simp +contextual

/-- The state is answered, or refused with a status that is no OK, from one that differs from `s` in unit `w` at most
and has the sticky bits of `s`. -/
inductive EndsWithin (w : CoreUnit) (s : State) : State → Prop
  | answered {u : State} (v : Value) (h : SameUnits w s u) (herr : u.sys = s.sys) : EndsWithin w s (answer v u)
  | refused {u : State} (st : Status) (hst : st ≠ .ok) (h : SameUnits w s u) (herr : u.sys = s.sys) :
      EndsWithin w s (raise st u)

namespace EndsWithin

variable {w : CoreUnit} {s t : State}

/-- An answer that changes nothing else. -/
theorem answer_same (v : Value) : EndsWithin w s (answer v s) := .answered v (.refl w s) rfl

/-- A precise refusal (60 R360). -/
theorem raise_same (st : Status) (hst : st ≠ .ok) : EndsWithin w s (raise st s) := .refused st hst (.refl w s) rfl

theorem ite {p : Prop} [Decidable p] {t' : State} (h : EndsWithin w s t) (h' : EndsWithin w s t') :
    EndsWithin w s (if p then t else t') := by
  split
  · exact h
  · exact h'

theorem sameUnits (h : EndsWithin w s t) : SameUnits w s t := by
  cases h with
  | answered v h _ => exact h.answer v
  | refused st _ h _ => exact h.raise st

/-- A refusal adds its sticky bit, an answer none. -/
theorem sticky (h : EndsWithin w s t) :
    s.sys.err &&& t.sys.err = s.sys.err ∧ (t.resp.status = .ok → t.sys.err = s.sys.err) := by
  cases h with
  | answered v _ herr => simp [herr]
  | refused st hst _ herr => simp [herr, hst, and_or_cancel]

end EndsWithin

/-! ### The shared parts of the operations -/

theorem bitWriting_endsWithin (body : Bsf → Bsf) (value : Bsf → Value) (s : State) :
    EndsWithin .bsf s (bitWriting body value s) := by
  cases h : s.afsk.state with
  | transmitting => rw [bitWriting_busy h]; exact .raise_same .busy nofun
  | idle => rw [bitWriting_idle h]; exact .ite (.refused .ovf nofun (.withBsf _) rfl) (.answered _ (.withBsf _) rfl)

theorem pushSize_endsWithin (x : Byte) (s : State) (p : Cpf) : EndsWithin .cpf s (pushSize x { s with cpf := p }) :=
  .ite (.answered 0 (.withCpf _) rfl) (.answered 0 (.withCpf _) rfl)

theorem pushCrc32_endsWithin (x : Byte) (s : State) (p : Cpf) : EndsWithin .cpf s (pushCrc32 x { s with cpf := p }) :=
  .ite (.answered 0 (.withCpf _) rfl) (.answered _ (.withCpf _) rfl)

/-! ### Operations whose rule looks at a state or a stage -/

theorem execBsfRst_endsWithin (s : State) : ∃ t, execBsfRst s = .next t ∧ EndsWithin .bsf s t := by
  refine ⟨_, rfl, ?_⟩
  cases s.afsk.state with
  | idle => exact .answered 0 (.withBsf _) rfl
  | transmitting => exact .raise_same .busy nofun

theorem execBsfBuild_endsWithin (s : State) : ∃ t, execBsfBuild s = .next t ∧ EndsWithin .bsf s t := by
  refine ⟨_, rfl, ?_⟩
  cases s.afsk.state with
  | idle => exact .ite (.refused .ovf nofun (.withBsf _) rfl) (.answered _ (.withBsf _) rfl)
  | transmitting => exact .raise_same .busy nofun

theorem execAfskTx_endsWithin (s : State) : ∃ t, execAfskTx s = .next t ∧ EndsWithin .afsk s t := by
  refine ⟨_, rfl, ?_⟩
  cases s.afsk.state with
  | idle => exact .ite (.raise_same .ovf nofun) (.answered 0 (.withAfsk _) rfl)
  | transmitting => exact .raise_same .busy nofun

theorem execAfskEnd_endsWithin (s : State) : ∃ t, execAfskEnd s = .next t ∧ EndsWithin .afsk s t := by
  refine ⟨_, rfl, ?_⟩
  cases s.afsk.state with
  | idle => exact .answer_same 0
  | transmitting => exact .answered 0 (.withAfsk _) rfl

theorem execAfskTick_endsWithin (s : State) : ∃ t, execAfskTick s = .next t ∧ EndsWithin .afsk s t := by
  refine ⟨_, rfl, ?_⟩
  cases s.afsk.state with
  | idle => exact .answer_same 0
  | transmitting => exact .answered _ (.withAfsk _) rfl

theorem execFrtRfrm_endsWithin (a : Byte) (s : State) : ∃ t, execFrtRfrm a s = .next t ∧ EndsWithin .frt s t := by
  refine ⟨_, rfl, ?_⟩
  cases fhdrReg s.cfg a.toNat with
  | some r => exact .answer_same _
  | none => exact .raise_same .range nofun

/-- Each stage starts from the state whose last verdict is gone, which differs in unit CPF alone (44 R311). -/
theorem execCpfPush_endsWithin (x : Byte) (s : State) : ∃ t, execCpfPush x s = .next t ∧ EndsWithin .cpf s t := by
  refine ⟨_, rfl, ?_⟩
  cases s.cpf.stage with
  | awaitSize => exact pushSize_endsWithin x s _
  | data => exact .answered 0 (.withCpf _) rfl
  | integrity =>
    cases s.cfg.cpfVariant with
    | xor => exact .answered _ (.withCpf _) rfl
    | crc32 => exact pushCrc32_endsWithin x s _

/-! ## How every operation ends -/

/-- The unit whose state an operation may write: its own, but that MICE.PUT writes the operands of BSF (41 R196). -/
def writtenUnit (i : Instr) : CoreUnit := if i = .micePut then .bsf else unitOf i

@[simp] theorem writtenUnit_micePut : writtenUnit .micePut = .bsf := rfl

theorem writtenUnit_of_ne {i : Instr} (h : i ≠ .micePut) : writtenUnit i = unitOf i := if_neg h

/-- The ways in which operation `i` can end from state `s`: within the unit it writes, and the three ways that touch
`sys.err` otherwise. The unit is read off the operation's command word. -/
inductive OpEnds (i : Instr) (s : State) : State → Prop
  | own {w : CoreUnit} {t : State} (h : EndsWithin w s t)
      (hw : writtenUnit i = w := by simp [writtenUnit, unitOf, encode]) : OpEnds i s t
  /-- a byte that finds the receive queue full (43 R262) -/
  | dropped (x : Byte) (hi : i = .frtRxb x) :
      OpEnds i s (raise .cap { s with sys := { err := s.sys.err ||| rxovrBit } })
  /-- sticky bits cleared by command (45 R343) -/
  | cleared (m : BitVec 6) (hi : i = .sysClrerr m) :
      OpEnds i s (answer ((s.sys.err &&& ~~~m).setWidth 16) { s with sys := { err := s.sys.err &&& ~~~m } })
  /-- the reset of the whole core (45 R341) -/
  | reset (hi : i = .sysReset) :
      OpEnds i s (answer 0 { State.resetWith s.cfg (s.epoch + 1) with inputs := s.inputs })

theorem opEnds_of_unit {i : Instr} {s : State} {w : CoreUnit} (h : ∃ t, exec i s = .next t ∧ EndsWithin w s t)
    (hw : writtenUnit i = w := by simp [writtenUnit, unitOf, encode]) : ∃ t, exec i s = .next t ∧ OpEnds i s t := by
  obtain ⟨t, ht, hends⟩ := h
  exact ⟨t, ht, .own hends hw⟩

/-- A byte for the receive queue is dropped when the queue is full, and otherwise queued (43 R262). -/
theorem execFrtRxb_opEnds (x : Byte) (s : State) : ∃ t, execFrtRxb x s = .next t ∧ OpEnds (.frtRxb x) s t := by
  refine ⟨_, rfl, ?_⟩
  split
  · exact .dropped x rfl
  · exact .own (.answered _ (.withFrt _) rfl)

/-- Every operation answers, in one of these ways. -/
theorem exec_opEnds (i : Instr) (s : State) : ∃ t, exec i s = .next t ∧ OpEnds i s t := by
  cases i with
  | bsfRst => exact opEnds_of_unit (execBsfRst_endsWithin s)
  | bsfSync => exact ⟨_, rfl, .own (bitWriting_endsWithin ..)⟩
  | bsfFlag => exact ⟨_, rfl, .own (bitWriting_endsWithin ..)⟩
  | bsfByte x => exact ⟨_, rfl, .own (bitWriting_endsWithin ..)⟩
  | bsfAddr slot last => exact ⟨_, rfl, .own (.ite (.raise_same .range nofun) (bitWriting_endsWithin ..))⟩
  | bsfFcs => exact ⟨_, rfl, .own (bitWriting_endsWithin ..)⟩
  | bsfBuild => exact opEnds_of_unit (execBsfBuild_endsWithin s)
  | bsfWaddr slot k x =>
    exact ⟨_, rfl, .own (.ite (.answered 0 (.withBsf _) rfl) (.raise_same .range nofun))⟩
  | bsfWmsg k x => exact ⟨_, rfl, .own (.answered 0 (.withBsf _) rfl)⟩
  | bsfSetlen n => exact ⟨_, rfl, .own (.ite (.raise_same .range nofun) (.answered 0 (.withBsf _) rfl))⟩
  | bsfSetpath n => exact ⟨_, rfl, .own (.ite (.raise_same .range nofun) (.answered 0 (.withBsf _) rfl))⟩
  | bsfRbit k => exact ⟨_, rfl, .own (.ite (.raise_same .range nofun) (.answer_same _)) rfl⟩
  | bsfRlen => exact ⟨_, rfl, .own (.answer_same _) rfl⟩
  | bsfRcrc => exact ⟨_, rfl, .own (.answer_same _) rfl⟩
  | bsfRaddr slot k => exact ⟨_, rfl, .own (.ite (.answer_same _) (.raise_same .range nofun)) rfl⟩
  | bsfRmsg k => exact ⟨_, rfl, .own (.answer_same _) rfl⟩
  | miceWin a x => exact ⟨_, rfl, .own (.ite (.raise_same .range nofun) (.answered 0 (.withMice _) rfl))⟩
  | miceEnc => exact ⟨_, rfl, .own (.ite (.answered _ (.withMice _) rfl) (.raise_same .range nofun))⟩
  | micePut => exact ⟨_, rfl, .own (.ite (.answered _ (.withBsf _) rfl) (.raise_same .busy nofun))⟩
  | miceRout a =>
    exact ⟨_, rfl, .own (.ite (.raise_same .range nofun) (.ite (.answer_same _) (.answer_same _))) rfl⟩
  | miceRin a => exact ⟨_, rfl, .own (.ite (.raise_same .range nofun) (.answer_same _)) rfl⟩
  | afskTx => exact opEnds_of_unit (execAfskTx_endsWithin s)
  | afskEnd => exact opEnds_of_unit (execAfskEnd_endsWithin s)
  | afskStat => exact ⟨_, rfl, .own (.answer_same _) rfl⟩
  | afskTime => exact ⟨_, rfl, .own (.answer_same _) rfl⟩
  | afskRout sel =>
    exact ⟨_, rfl, .own (.ite (.answer_same _) (.ite (.answer_same _) (.ite (.answer_same _)
      (.ite (.answer_same _) (.raise_same .range nofun))))) rfl⟩
  | afskTick => exact opEnds_of_unit (execAfskTick_endsWithin s)
  | frtPoll => exact ⟨_, rfl, .own (.answered _ (.withFrt _) rfl)⟩
  | frtRfrm a => exact opEnds_of_unit (execFrtRfrm_endsWithin a s)
  | frtWdst k x => exact ⟨_, rfl, .own (.ite (.raise_same .range nofun) (.answered 0 (.withFrt _) rfl))⟩
  | frtWopt x => exact ⟨_, rfl, .own (.answered 0 (.withFrt _) rfl)⟩
  | frtWpay k x => exact ⟨_, rfl, .own (.ite (.raise_same .range nofun) (.answered 0 (.withFrt _) rfl))⟩
  | frtSend n => exact ⟨_, rfl, .own (.ite (.raise_same .cap nofun) (.answered _ (.withFrt _) rfl))⟩
  | frtRstg => exact ⟨_, rfl, .own (.answer_same _) rfl⟩
  | frtRst => exact ⟨_, rfl, .own (.answered 0 (.withFrt _) rfl)⟩
  | frtRpay k => exact ⟨_, rfl, .own (.ite (.raise_same .range nofun) (.answer_same _)) rfl⟩
  | frtRxb x => exact execFrtRxb_opEnds x s
  | cpfPush x => exact opEnds_of_unit (execCpfPush_endsWithin x s)
  | cpfRsize => exact ⟨_, rfl, .own (.answer_same _) rfl⟩
  | cpfRbuf k => exact ⟨_, rfl, .own (.ite (.raise_same .range nofun) (.answer_same _)) rfl⟩
  | cpfWpay k x => exact ⟨_, rfl, .own (.ite (.raise_same .range nofun) (.answered 0 (.withCpf _) rfl))⟩
  | cpfEnc n => exact ⟨_, rfl, .own (.ite (.raise_same .range nofun) (.answered _ (.withCpf _) rfl))⟩
  | cpfRst => exact ⟨_, rfl, .own (.answered 0 (.withCpf _) rfl)⟩
  | cpfRstg => exact ⟨_, rfl, .own (.answer_same _) rfl⟩
  | sysNop => exact ⟨_, rfl, .own (.answer_same _) rfl⟩
  | sysReset => exact ⟨_, rfl, .reset rfl⟩
  | sysRerr => exact ⟨_, rfl, .own (.answer_same _) rfl⟩
  | sysClrerr m => exact ⟨_, rfl, .cleared m rfl⟩
  | sysId => exact ⟨_, rfl, .own (.answer_same _) rfl⟩

/-- What a next state of an operation can be. -/
theorem opEnds_of_exec {i : Instr} {s t : State} (h : exec i s = .next t) : OpEnds i s t := by
  obtain ⟨t', ht', hends⟩ := exec_opEnds i s
  obtain rfl : t' = t := Host.Outcome.next.inj (ht'.symm.trans h)
  exact hends

/-- MICE.PUT writes the operand memories and the message length of BSF, and nothing else of it (41 R196). -/
theorem execMicePut_bsf {s t : State} (h : execMicePut s = .next t) :
    t.bsf = { s.bsf with addr := t.bsf.addr, msg := t.bsf.msg, msglen := t.bsf.msglen } := by
  obtain rfl := Host.Outcome.next.inj h
  split <;> rfl

/-- Apart from SYS.RESET an operation leaves every unit but the one it writes. -/
theorem OpEnds.sameUnits {i : Instr} {s t : State} (h : OpEnds i s t) (hi : i ≠ .sysReset) :
    SameUnits (writtenUnit i) s t := by
  cases h with
  | own h hw => exact hw ▸ h.sameUnits
  | dropped x _ => exact ((SameUnits.refl _ s).withSys _).raise .cap
  | cleared m _ => exact ((SameUnits.refl _ s).withSys _).answer _
  | reset hr => exact absurd hr hi

/-- Apart from SYS.RESET and SYS.CLRERR an operation clears no sticky bit, and sets one only when it refuses. -/
theorem OpEnds.sticky {i : Instr} {s t : State} (h : OpEnds i s t) (hi : i ≠ .sysReset)
    (hc : ∀ m, i ≠ .sysClrerr m) :
    s.sys.err &&& t.sys.err = s.sys.err ∧ (t.resp.status = .ok → t.sys.err = s.sys.err) := by
  cases h with
  | own h _ => exact h.sticky
  | dropped x _ => exact ⟨by simp [BitVec.or_assoc, and_or_cancel], nofun⟩
  | cleared m hm => exact absurd hm (hc m)
  | reset hr => exact absurd hr hi

/-! ## The statements -/

/-- Settles O17, from the ways an operation can end. -/
theorem stickyBitsChangeOnlyAsStated : Obligations.StickyBitsChangeOnlyAsStated :=
  fun _ _ _ h hi hc => (opEnds_of_exec h).sticky hi hc

/-- Settles O20: the unit written is the operation's own, or BSF for MICE.PUT. -/
theorem unitsWriteOnlyTheirOwnState : Obligations.UnitsWriteOnlyTheirOwnState := by
  intro i s t h hi
  have same := (opEnds_of_exec h).sameUnits hi
  by_cases hp : i = .micePut
  · subst hp
    rw [writtenUnit_micePut] at same
    exact ⟨fun _ hne => absurd rfl hne, fun _ => execMicePut_bsf h, fun _ => same.mice nofun, fun _ => same.afsk nofun,
      fun _ => same.frt nofun, fun _ => same.cpf nofun, same.cfg, same.inputs, same.epoch⟩
  · rw [writtenUnit_of_ne hp] at same
    exact ⟨fun hu _ => same.bsf hu, fun h => absurd h hp, fun hu => same.mice (hu.resolve_right hp), same.afsk, same.frt,
      same.cpf, same.cfg, same.inputs, same.epoch⟩

/-- The word of SYS.RESET, whatever its operand fields hold (30 R109). -/
theorem commandIs_sysReset : commandIs .host 15 1 (fun _ _ => .sysReset) :=
  fun a b => ⟨decode_cmdWord 15 1 a b, rfl⟩

/-- Settles O10, register by register for `State.resetWith`, of which both resets are cases. -/
theorem resetGivesEveryRegisterItsValue : Obligations.ResetGivesEveryRegisterItsValue :=
  ⟨commandIs_sysReset, resetWith_resetValues, fun s =>
    ⟨_, rfl, (resetWith_resetValues s.cfg (s.epoch + 1)).answer_withInputs s.inputs 0, rfl⟩⟩

/-- Settles O12; the record of `State.reset` is the test configuration, which is well formed. -/
theorem invariantHoldsAfterReset : Obligations.InvariantHoldsAfterReset :=
  ⟨inv_resetWith 0 (by decide), fun _ epoch h => inv_resetWith epoch h⟩

end Sys2Proof.Machine
end

section
/-! SUPPORT. The laws of the operations that the rules about memory rest on: how a load ends, what the bit-writing
operations do to unit BSF, and a POLL as the chain of its turns. -/

namespace Sys2Proof.Machine

/-! ## Loads (20 R75) -/

/-- A load `f` answers or is refused with RANGE in state `s`, and does the same again in the state it leaves. -/
inductive LoadEnds (f : State → State) (s : State) : Prop
  | answered (v : Value) (now : f s = answer v s) (again : f (answer v s) = answer v (answer v s))
  | refused (now : f s = raise .range s) (again : f (raise .range s) = raise .range (raise .range s))

/-- A test that looks at neither the response nor the sticky bits decides the same way again. -/
theorem LoadEnds.ite {f g : State → State} {s : State} {p : State → Prop} [∀ s, Decidable (p s)]
    (hf : LoadEnds f s) (hg : LoadEnds g s) (ha : ∀ v, p (answer v s) = p s := by intro _; rfl)
    (hr : p (raise .range s) = p s := by rfl) : LoadEnds (fun s => if p s then f s else g s) s := by
  by_cases hp : p s
  · cases hf with
    | answered v now again => exact .answered v (by simp [hp, now]) (by simp [ha, hp, again])
    | refused now again => exact .refused (by simp [hp, now]) (by simp [hr, hp, again])
  · cases hg with
    | answered v now again => exact .answered v (by simp [hp, now]) (by simp [ha, hp, again])
    | refused now again => exact .refused (by simp [hp, now]) (by simp [hr, hp, again])

theorem LoadEnds.raise {s : State} : LoadEnds (raise .range) s := .refused rfl rfl

/-- An answer whose value is computed from neither the response nor the sticky bits. -/
theorem LoadEnds.value (f : State → Value) {s : State} (hf : ∀ v, f (Machine.answer v s) = f s := by intro _; rfl) :
    LoadEnds (fun s => Machine.answer (f s) s) s := .answered (f s) rfl (by simp [hf])

/-- FRT.RFRM looks at the configuration alone to find the register, and then reads it (43 R272). -/
theorem execFrtRfrm_loadEnds (a : Byte) :
    ∃ f, (∀ s, execFrtRfrm a s = .next (f s)) ∧ ∀ s, LoadEnds f s := by
  refine ⟨_, fun _ => rfl, fun s => ?_⟩
  cases h : fhdrReg s.cfg a.toNat with
  | some r => exact .answered (readFhdr r s) (by simp [h]) (by cases r <;> simp [h, readFhdr])
  | none => exact .refused (by simp [h]) (by simp [h])

/-- How every load ends. -/
theorem exec_loadEnds {i : Instr} (hi : isLoad i = true) :
    ∃ f, (∀ s, exec i s = .next (f s)) ∧ ∀ s, LoadEnds f s := by
  cases i with
  | bsfRbit k => exact ⟨_, fun _ => rfl, fun s => .ite .raise (.value _)⟩
  | bsfRlen => exact ⟨_, fun _ => rfl, fun s => .value _⟩
  | bsfRcrc => exact ⟨_, fun _ => rfl, fun s => .value _⟩
  | bsfRaddr slot k => exact ⟨_, fun _ => rfl, fun s => .ite (.value _) .raise⟩
  | bsfRmsg k => exact ⟨_, fun _ => rfl, fun s => .value _⟩
  | miceRin a => exact ⟨_, fun _ => rfl, fun s => .ite .raise (.value _)⟩
  | miceRout a => exact ⟨_, fun _ => rfl, fun s => .ite .raise (.ite (.value _) (.value _))⟩
  | afskStat => exact ⟨_, fun _ => rfl, fun s => .value _⟩
  | afskTime => exact ⟨_, fun _ => rfl, fun s => .value _⟩
  | afskRout sel =>
    exact ⟨_, fun _ => rfl, fun s => .ite (.value _) (.ite (.value _) (.ite (.value _) (.ite (.value _) .raise)))⟩
  | frtRfrm a => exact execFrtRfrm_loadEnds a
  | frtRpay k => exact ⟨_, fun _ => rfl, fun s => .ite .raise (.value _)⟩
  | frtRstg => exact ⟨_, fun _ => rfl, fun s => .value _⟩
  | cpfRsize => exact ⟨_, fun _ => rfl, fun s => .value _⟩
  | cpfRbuf k => exact ⟨_, fun _ => rfl, fun s => .ite .raise (.value _)⟩
  | cpfRstg => exact ⟨_, fun _ => rfl, fun s => .value _⟩
  | sysRerr => exact ⟨_, fun _ => rfl, fun s => .value _⟩
  | sysId => exact ⟨_, fun _ => rfl, fun s => .value _⟩
  | _ => cases hi

/-- A load leaves its state answered or refused, and nothing else. -/
theorem exec_load {i : Instr} (hi : isLoad i = true) (s : State) :
    (∃ v, exec i s = .next (answer v s)) ∨ exec i s = .next (raise .range s) := by
  obtain ⟨f, hexec, hends⟩ := exec_loadEnds hi
  rw [hexec]
  cases hends s with
  | answered v now _ => exact .inl ⟨v, now ▸ rfl⟩
  | refused now _ => exact .inr (now ▸ rfl)

/-- Refusing twice leaves what refusing once leaves. -/
theorem raise_raise (st : Status) (s : State) : raise st (raise st s) = raise st s := by
  simp [raise, BitVec.or_assoc]

/-- Settles O18, from the ways a load can end. -/
theorem loadsHaveNoSideEffect : Obligations.LoadsHaveNoSideEffect := by
  intro i s t hi ht
  obtain ⟨f, hexec, hends⟩ := exec_loadEnds hi
  obtain rfl : f s = t := Host.Outcome.next.inj ((hexec s).symm.trans ht)
  rw [hexec]
  cases hends s with
  | answered v now again => rw [now, again]; exact ⟨fun _ => rfl, rfl⟩
  | refused now again => rw [now, again, raise_raise]; exact ⟨nofun, rfl⟩

/-- Settles O9: an answer or a refusal is a next state. -/
theorem everyOperationAnswersInItsStep : Obligations.EveryOperationAnswersInItsStep :=
  fun i s => (exec_opEnds i s).imp fun _ h => h.1

end Sys2Proof.Machine
end

section
/-! SUPPORT. What the bit-writing operations do to unit BSF, and FRT.POLL as the chain of its turns: said once, for the
invariant and for the frame over memory. -/

namespace Sys2Proof.Machine

/-! ## The bounds of a well-formed configuration (70 R393) -/

theorem bitCap_le {c : Config} (h : c.wf = true) : c.bitCap ≤ 65535 := by
  simp_all [Config.wf, Config.bitCapOk]

theorem maxPath_le {c : Config} (h : c.wf = true) : c.maxPath ≤ 15 := by
  simp_all [Config.wf, Config.pathOk]

theorem payloadCap_le {c : Config} (h : c.wf = true) : c.payloadCap ≤ 256 := by
  simp_all [Config.wf, Config.payloadOk]

theorem tonePeriod_le {c : Config} (h : c.wf = true) (t : Tone) : tonePeriod c t ≤ 833 := by
  cases t <;> simp_all [Config.wf, Config.toneOk, tonePeriod]

/-- Every sample fits the tone output. -/
theorem sineSample_lt {c : Config} (h : c.wf = true) (i : BitVec 5) : (sineSample c i).toNat < 2 ^ c.res := by
  have hall : ∀ (k : Nat) (_ : k < 32), c.sine[k].toNat < 2 ^ c.res := by simp_all [Config.wf, Config.sineOk]
  exact hall i.toNat i.isLt

/-- The Mic-E information field has at most 13 characters (41 R190). -/
theorem infoLength_le {c : Config} (h : c.wf = true) : 9 + c.lSc + c.altTerm.toNat ≤ 13 := by
  have : 9 + c.lSc + c.altTerm.toNat = 12 ∨ 9 + c.lSc + c.altTerm.toNat = 13 := by
    simp_all [Config.wf, Config.miceOk]
  omega

/-- The speed and course field has its configured length, whichever encoder makes it (41 R190, R192). -/
theorem speedCourse_length {c : Config} (h : c.wf = true) (spd crs : Nat) : (speedCourse c spd crs).length = c.lSc := by
  have hsc : c.speedCourseOk = true := by simp_all [Config.wf]
  unfold speedCourse
  split
  · simp_all [Config.speedCourseOk, standardSc]
  · simp

/-- The information field has the length that `mice.infolen` gives (41 R195). -/
theorem infoString_length {c : Config} (h : c.wf = true) (f : Fix) :
    (infoString c f).length = 9 + c.lSc + c.altTerm.toNat := by
  cases ha : c.altTerm <;> simp [infoString, speedCourse_length h, altChars, ha] <;> omega

theorem infoLength_toNat {c : Config} (h : c.wf = true) : (infoLength c).toNat = 9 + c.lSc + c.altTerm.toNat := by
  have := infoLength_le h
  simp only [infoLength, BitVec.toNat_ofNat]
  omega

/-- The destination field has its seven characters (41 R185). -/
theorem destString_length (f : Fix) : (destString f).length = 7 := rfl

@[simp] theorem loadMany_length (sp : Space) (a n : Nat) (s : State) : (loadMany sp a n s).length = n := by
  simp [loadMany]

/-! ## The bit-writing operations -/

/-- Unit BSF after appends to `b`: its invariant, a sequence at least as long, and no cell written but in the room that
was left. -/
structure AppendsTo (c : Config) (b b' : Bsf) : Prop where
  inv : BsfInv c b'
  bitlen_le : b.bitlen.toNat ≤ b'.bitlen.toNat
  bits : ∀ k, k < b.bitlen.toNat ∨ c.bitCap ≤ k → cellGet b'.bits k = cellGet b.bits k
  addr : b'.addr = b.addr
  msg : b'.msg = b.msg

namespace AppendsTo

variable {c : Config} {b b' b'' : Bsf}

theorem refl (h : BsfInv c b) : AppendsTo c b b := ⟨h, le_rfl, fun _ _ => rfl, rfl, rfl⟩

theorem trans (h : AppendsTo c b b') (h' : AppendsTo c b' b'') : AppendsTo c b b'' where
  inv := h'.inv
  bitlen_le := h.bitlen_le.trans h'.bitlen_le
  bits k hk := (h'.bits k (hk.imp_left (lt_of_lt_of_le · h.bitlen_le))).trans (h.bits k hk)
  addr := h'.addr.trans h.addr
  msg := h'.msg.trans h.msg

theorem ofAppendAll (hc : c.wf = true) (h : BsfInv c b) (v : List Bool) : AppendsTo c b (appendAll c.bitCap b v) := by
  obtain ⟨hlen, hcell, hrest⟩ := appendAll_spec c.bitCap b v (bitCap_le hc) h.bitlen_le
  have hle := h.bitlen_le
  rw [hrest]
  refine ⟨{ h with
    bits_canonical := appendAll_bits_wf _ _ _ h.bits_canonical
    bits_within := appendAll_bits_within _ _ _ h.bits_within
    sequence_written := fun k hk => ?written
    bitlen_le := by simp only [hlen]; omega
    overflow_is_full := fun ho => ?full }, by simp only [hlen]; omega, fun k hk => ?frame, rfl, rfl⟩
  case written =>
    simp only [hlen] at hk
    simp only [hcell]
    split
    · have : k - b.bitlen.toNat < v.length := by omega
      simp [this]
    · exact h.sequence_written k (by omega)
  case full =>
    simp only [Bool.or_eq_true, decide_eq_true_eq] at ho
    have hfull : b.bitlen.toNat = c.bitCap ∨ c.bitCap < b.bitlen.toNat + v.length := ho.imp_left h.overflow_is_full
    simp only [hlen]
    omega
  case frame =>
    simp only [hcell]
    exact if_neg (by omega)

/-- The accumulator and the run length are beside the sequence. -/
theorem withCrcOnes (h : AppendsTo c b b') (crc : BitVec 16) {n : Nat} (hn : n ≤ 4) :
    AppendsTo c b { b' with crc := crc, ones := BitVec.ofNat 3 n } :=
  { h with inv := { h.inv with ones_le := by simp; omega } }

theorem addBytes (h : AppendsTo c b b') (hc : c.wf = true) (xs : List Byte) :
    AppendsTo c b (addBytes c.bitCap b' xs) := by
  rw [addBytes_eq _ _ _ h.inv.ones_le]
  exact h.trans ((ofAppendAll hc h.inv _).withCrcOnes _ (runAfter_le _ _ h.inv.ones_le))

theorem rawBytes (h : AppendsTo c b b') (hc : c.wf = true) (n : Nat) (x : Byte) :
    AppendsTo c b (rawBytes c.bitCap b' n x) := by
  rw [rawBytes_eq]
  exact h.trans (ofAppendAll hc h.inv _)

end AppendsTo

/-- The reset of the sequence, which writes no cell (40 R144). -/
theorem bsfInv_bsfClear {c : Config} {b : Bsf} (h : BsfInv c b) : BsfInv c (bsfClear b) :=
  { h with
    sequence_written := nofun
    bitlen_le := Nat.zero_le _
    ones_le := Nat.zero_le _
    overflow_is_full := nofun }

/-- BSF.BUILD appends a frame to the sequence it has cleared (40 R150). -/
theorem appendsTo_buildFrame {s : State} (hc : s.cfg.wf = true) (h : BsfInv s.cfg s.bsf) :
    AppendsTo s.cfg (bsfClear s.bsf) (buildFrame s s.bsf) :=
  have cleared := AppendsTo.refl (bsfInv_bsfClear h)
  (((cleared.rawBytes hc s.cfg.nSync 0x00).rawBytes hc s.cfg.nPreflag flagByteValue).addBytes hc (frameBytes s)
    |>.addBytes hc _).rawBytes hc s.cfg.nPostflag flagByteValue

/-- The flag is cleared for the body of a bit-writing operation. -/
theorem bsfInv_withoutOvf {c : Config} {b : Bsf} (h : BsfInv c b) : BsfInv c { b with ovf := false } :=
  { h with overflow_is_full := nofun }

/-- The flag is sticky over operations: it was set at full capacity, and a sequence does not get shorter by appends. -/
theorem AppendsTo.withStickyOvf {c : Config} {b b' : Bsf} (h : AppendsTo c { b with ovf := false } b')
    (hb : BsfInv c b) : AppendsTo c b { b' with ovf := b.ovf || b'.ovf } where
  inv := { h.inv with
    overflow_is_full := fun ho => by
      have hle : b.bitlen.toNat ≤ b'.bitlen.toNat := h.bitlen_le
      have hcap := h.inv.bitlen_le
      rcases Bool.or_eq_true _ _ ▸ ho with ho | ho
      · have := hb.overflow_is_full ho
        show b'.bitlen.toNat = c.bitCap
        omega
      · exact h.inv.overflow_is_full ho }
  bitlen_le := h.bitlen_le
  bits := h.bits
  addr := h.addr
  msg := h.msg

/-- How a bit-writing operation ends: refused with BUSY, or in a state with bits appended, answered or refused with
OVF. -/
theorem bitWriting_appends {body : Bsf → Bsf} {s : State} (value : Bsf → Value) (hs : BsfInv s.cfg s.bsf)
    (hbody : ∀ b, BsfInv s.cfg b → AppendsTo s.cfg b (body b)) :
    bitWriting body value s = raise .busy s
      ∨ s.afsk.state = .idle ∧ ∃ b, AppendsTo s.cfg s.bsf b ∧
        ((∃ v, bitWriting body value s = answer v { s with bsf := b })
          ∨ bitWriting body value s = raise .ovf { s with bsf := b }) := by
  cases hstate : s.afsk.state with
  | transmitting => exact .inl (bitWriting_busy hstate)
  | idle =>
    refine .inr ⟨rfl, _, (hbody _ (bsfInv_withoutOvf hs)).withStickyOvf hs, ?_⟩
    rw [bitWriting_idle hstate]
    split
    · exact .inr rfl
    · exact .inl ⟨_, rfl⟩

/-! ## FRT.POLL -/

/-- `e` is the end of the loop of FRT.POLL from `f` (43 R263). -/
inductive Polled (c : Config) : Frt → PollEnd → Prop
  | goOn {f g : Frt} {e : PollEnd} (hturn : pollTurn c f = .goOn g) (hrest : Polled c g e) : Polled c f e
  | done {f g : Frt} {v : Value} (hturn : pollTurn c f = .done g v) : Polled c f { frt := g, value := v }

namespace Polled

variable {c : Config} {f : Frt}

/-- One turn, and then what goes on from where it leads. -/
theorem ofTurn {t : Turn} {k : Frt → PollEnd} (hturn : pollTurn c f = t) (hk : ∀ g, t = .goOn g → Polled c g (k g)) :
    Polled c f (t.andThen k) := by
  cases t with
  | goOn g => exact .goOn hturn (hk g rfl)
  | done g v => exact .done hturn

theorem ofFailure (hf : f.stage = .failure) : Polled c f (pollFailure f) :=
  .done (by simp [pollTurn, hf, stageFailure])

theorem ofChecksum (hf : f.stage = .checksum) : Polled c f (pollChecksum f) := by
  refine ofTurn (by simp [pollTurn, hf]) fun _ hg => ?_
  unfold stageChecksum at hg
  split at hg <;> cases hg

/-- After a stage that may fail. -/
theorem orFailure {k : Frt → PollEnd} {g : FrtStage} (hf : f.stage = .failure ∨ f.stage = g)
    (hk : f.stage = g → Polled c f (k f)) : Polled c f (orFailure k f) := by
  unfold Machine.orFailure
  split
  · exact ofFailure ‹_›
  · exact hk (hf.resolve_left ‹_›)

theorem ofPayload (hf : f.stage = .payload) : Polled c f (pollPayload c f) := by
  refine ofTurn (by simp [pollTurn, hf]) fun g hg => orFailure ?_ ofChecksum
  unfold stagePayload at hg
  split at hg
  · exact .inl (Turn.goOn.inj hg ▸ rfl)
  · split at hg
    · cases hg
    · exact .inr (Turn.goOn.inj hg ▸ rfl)

theorem ofHeader (hf : f.stage = .header) : Polled c f (pollHeader c f) := by
  refine ofTurn (by simp [pollTurn, hf]) fun g hg => ofPayload ?_
  unfold stageHeader at hg
  split at hg
  · cases hg
  · exact Turn.goOn.inj hg ▸ rfl

theorem ofApiId (hf : f.stage = .apiId) : Polled c f (pollApiId c f) := by
  refine ofTurn (by simp [pollTurn, hf]) fun g hg => orFailure ?_ ofHeader
  unfold stageApiId at hg
  split at hg
  · cases hg
  · simp only at hg
    split at hg
    · exact .inr (Turn.goOn.inj hg ▸ rfl)
    · exact .inl (Turn.goOn.inj hg ▸ rfl)

theorem ofLength (hf : f.stage = .length) : Polled c f (pollLength c f) := by
  refine ofTurn (by simp [pollTurn, hf]) fun g hg => orFailure ?_ ofApiId
  unfold stageLength at hg
  split at hg
  · simp only at hg
    split at hg
    · exact .inl (Turn.goOn.inj hg ▸ rfl)
    · exact .inr (Turn.goOn.inj hg ▸ rfl)
  · cases hg

theorem ofAwaitStart (hf : f.stage = .awaitStart) (queue : List Byte) :
    Polled c { f with rxfifo := queue } (pollAwaitStart c queue f) := by
  induction queue with
  | nil => exact .done (by simp [pollTurn, hf, stageAwaitStart, blocked])
  | cons b rest ih =>
    by_cases hb : b = flagByteValue
    · rw [pollAwaitStart, if_pos hb]
      exact .goOn (by simp [pollTurn, hf, stageAwaitStart, hb]) (ofLength rfl)
    · rw [pollAwaitStart, if_neg hb]
      exact .goOn (by simp [pollTurn, hf, stageAwaitStart, hb]) ih

/-- A POLL is the loop of its turns. -/
theorem poll (c : Config) (f : Frt) : Polled c f (poll c f) := by
  unfold Machine.poll
  split
  · exact ofAwaitStart ‹_› f.rxfifo
  · exact ofLength ‹_›
  · exact ofApiId ‹_›
  · exact ofHeader ‹_›
  · exact ofPayload ‹_›
  · exact ofChecksum ‹_›
  · exact ofFailure ‹_›

/-- What every turn keeps, the loop keeps. -/
theorem keeps {e : PollEnd} {P : Frt → Prop} (hturn : ∀ f, P f → P (pollTurn c f).frt) (h : Polled c f e) (hf : P f) :
    P e.frt := by
  induction h with
  | goOn ht _ ih => exact ih (by simpa [ht, Turn.frt] using hturn _ hf)
  | done ht => simpa [ht, Turn.frt] using hturn _ hf

end Polled

end Sys2Proof.Machine
end

section
/-! SUPPORT. Every operation keeps the invariant, one unit at a time, and so does every step. -/

namespace Sys2Proof.Machine

/-! ## A new state of one unit -/

namespace Inv

variable {s : State}

theorem answer (h : Inv s) (v : Value) : Inv (answer v s) := { h with refusal_value := fun hne => absurd rfl hne }

theorem raise (h : Inv s) (st : Status) : Inv (raise st s) := { h with refusal_value := fun _ => rfl }

theorem withInputs (h : Inv s) (is : List Command) : Inv { s with inputs := is } := { h with }

theorem withSys (h : Inv s) (e : Sys) : Inv { s with sys := e } := { h with }

theorem withBsf (h : Inv s) {b : Bsf} (hb : BsfInv s.cfg b) (ha : AfskInv s.cfg b s.afsk) : Inv { s with bsf := b } :=
  { h with bsf := hb, afsk := ha }

theorem withMice (h : Inv s) {m : Mice} (hm : MiceInv s.cfg m) : Inv { s with mice := m } := { h with mice := hm }

theorem withAfsk (h : Inv s) {a : Afsk} (ha : AfskInv s.cfg s.bsf a) : Inv { s with afsk := a } := { h with afsk := ha }

theorem withFrt (h : Inv s) {f : Frt} (hf : FrtInv s.cfg f) : Inv { s with frt := f } := { h with frt := hf }

theorem withCpf (h : Inv s) {p : Cpf} (hp : CpfInv s.cfg p) : Inv { s with cpf := p } := { h with cpf := hp }

theorem ite {p : Prop} [Decidable p] {t : State} (hs : p → Inv s) (ht : ¬ p → Inv t) :
    Inv (if p then s else t) := by
  split
  · exact hs ‹_›
  · exact ht ‹_›

end Inv

/-- Of the sequence the modulator looks at its length and its overflow flag. -/
theorem AfskInv.ofBsf {c : Config} {b b' : Bsf} {a : Afsk} (h : AfskInv c b a)
    (hlen : b'.bitlen = b.bitlen := by rfl) (hovf : b'.ovf = b.ovf := by rfl) : AfskInv c b' a :=
  { h with
    transmitting_bitpos := fun ht => hlen ▸ h.transmitting_bitpos ht
    transmitting_whole := fun ht => hovf ▸ h.transmitting_whole ht }

/-- While Idle the modulator does not look at the sequence (notes/assumptions/17.md). -/
theorem AfskInv.ofIdle {c : Config} {b b' : Bsf} {a : Afsk} (h : AfskInv c b a) (hi : a.state = .idle) :
    AfskInv c b' a :=
  { h with
    transmitting_bitpos := fun ht => nomatch hi.symm.trans ht
    transmitting_whole := fun ht => nomatch hi.symm.trans ht }

/-! ## Unit BSF -/

theorem bitWriting_keepsInv {s : State} (h : Inv s) {body : Bsf → Bsf} (value : Bsf → Value)
    (hbody : ∀ b, BsfInv s.cfg b → AppendsTo s.cfg b (body b)) : Inv (bitWriting body value s) := by
  rcases bitWriting_appends value h.bsf hbody with hbusy | ⟨hidle, b, hb, ⟨v, hans⟩ | hovf⟩
  · exact hbusy ▸ h.raise .busy
  · exact hans ▸ (h.withBsf hb.inv (h.afsk.ofIdle hidle)).answer v
  · exact hovf ▸ (h.withBsf hb.inv (h.afsk.ofIdle hidle)).raise .ovf

theorem execBsfRst_keepsInv {s : State} (h : Inv s) : ∃ t, execBsfRst s = .next t ∧ Inv t := by
  refine ⟨_, rfl, ?_⟩
  cases hstate : s.afsk.state with
  | idle => exact (h.withBsf (bsfInv_bsfClear h.bsf) (h.afsk.ofIdle hstate)).answer 0
  | transmitting => exact h.raise .busy

theorem execBsfBuild_keepsInv {s : State} (h : Inv s) : ∃ t, execBsfBuild s = .next t ∧ Inv t := by
  refine ⟨_, rfl, ?_⟩
  cases hstate : s.afsk.state with
  | idle =>
    have hb := h.withBsf (appendsTo_buildFrame h.cfg h.bsf).inv (h.afsk.ofIdle hstate)
    exact .ite (fun _ => hb.raise .ovf) (fun _ => hb.answer _)
  | transmitting => exact h.raise .busy

theorem BsfInv.withMsglen {c : Config} {b : Bsf} (h : BsfInv c b) {n : BitVec 9} (hn : n.toNat ≤ 256) :
    BsfInv c { b with msglen := n } := { h with msglen_le := hn }

theorem BsfInv.withPathcount {c : Config} {b : Bsf} (h : BsfInv c b) {n : BitVec 4} (hn : n.toNat ≤ c.maxPath) :
    BsfInv c { b with pathcount := n } := { h with pathcount_le := hn }

/-- Bytes stored in an address slot (10 R24). -/
theorem BsfInv.storeAddr {c : Config} {b : Bsf} (h : BsfInv c b) (a : Nat) (vs : List Byte)
    (ha : ∀ k, a ≤ k → k < a + vs.length → k / 8 ≤ 1 + c.maxPath ∧ k % 8 ≠ 7) :
    BsfInv c { b with addr := cellSetMany b.addr a vs } :=
  { h with
    addr_canonical := cellSetMany_wf a vs h.addr_canonical
    addr_within := cellSetMany_within vs (by simpa using ha) h.addr_within }

/-- Bytes stored in the message. -/
theorem BsfInv.storeMsg {c : Config} {b : Bsf} (h : BsfInv c b) (a : Nat) (vs : List Byte) (ha : a + vs.length ≤ 256) :
    BsfInv c { b with msg := cellSetMany b.msg a vs } :=
  { h with
    msg_canonical := cellSetMany_wf a vs h.msg_canonical
    msg_within := cellSetMany_within vs (fun k _ hk => by simp; omega) h.msg_within }

theorem execBsfWaddr_keepsInv {s : State} (h : Inv s) (slot : BitVec 5) (k : BitVec 3) (x : Byte) :
    ∃ t, execBsfWaddr slot k x s = .next t ∧ Inv t := by
  refine ⟨_, rfl, .ite (fun hin => ?_) (fun _ => h.raise .range)⟩
  simp only [slotInRange, Bool.and_eq_true, decide_eq_true_eq] at hin
  refine (h.withBsf (h.bsf.storeAddr _ [x] fun a ha1 ha2 => ?_) h.afsk.ofBsf).answer 0
  have : a = 8 * slot.toNat + k.toNat := by simp [slotAddr] at ha1 ha2; omega
  omega

theorem execMicePut_keepsInv {s : State} (h : Inv s) : ∃ t, execMicePut s = .next t ∧ Inv t := by
  refine ⟨_, rfl, .ite (fun _ => ?_) (fun _ => h.raise .busy)⟩
  have hlen : s.mice.infolen.toNat < 16 := s.mice.infolen.isLt
  have haddr := h.bsf.storeAddr (slotAddr 0 0) (loadMany .micDest 0 7 s) fun k _ hk => by
    simp [slotAddr] at hk; omega
  have hmsg := haddr.storeMsg 0 (loadMany .micInfo 0 s.mice.infolen.toNat s) (by simp; omega)
  exact (h.withBsf (hmsg.withMsglen (by simp; omega)) h.afsk.ofBsf).answer _

/-! ## Unit MICE -/

theorem execMiceWin_keepsInv {s : State} (h : Inv s) (a x : Byte) : ∃ t, execMiceWin a x s = .next t ∧ Inv t := by
  refine ⟨_, rfl, .ite (fun _ => h.raise .range) (fun ha => (h.withMice ?_).answer 0)⟩
  exact { h.mice with
    input_canonical := cellSet_wf _ _ h.mice.input_canonical
    input_within := cellSet_within _ (by simpa [minLast] using ha) h.mice.input_within }

/-- Both strings are there, of the length that is reported (41 R182, R195). -/
theorem miceInv_encoded {c : Config} {m : Mice} (hc : c.wf = true) (h : MiceInv c m) (f : Fix) :
    MiceInv c { m with
      dest := cellSetMany m.dest 0 (destString f), info := cellSetMany m.info 0 (infoString c f)
      infolen := infoLength c, ok := true } := by
  have hinfo := infoString_length hc f
  have hle := infoLength_le hc
  have hlen := infoLength_toNat hc
  exact { h with
    dest_canonical := cellSetMany_wf _ _ h.dest_canonical
    dest_within := cellSetMany_within _ (fun k _ hk => by simpa [destString_length] using hk) h.dest_within
    info_canonical := cellSetMany_wf _ _ h.info_canonical
    info_within := cellSetMany_within _ (fun k _ hk => by simp; omega) h.info_within
    infolen_of_ok := fun _ => hlen
    infolen_of_not_ok := nofun
    dest_written := fun _ k hk => by simp [cellGet_cellSetMany, destString_length, hk]
    info_written := fun _ k hk => by
      have hk' : k < 9 + c.lSc + c.altTerm.toNat := hlen ▸ hk
      simp [cellGet_cellSetMany, hinfo, hk'] }

/-! ## Unit AFSK -/

theorem execAfskTx_keepsInv {s : State} (h : Inv s) : ∃ t, execAfskTx s = .next t ∧ Inv t := by
  refine ⟨_, rfl, ?_⟩
  cases hstate : s.afsk.state with
  | idle =>
    refine .ite (fun _ => h.raise .ovf) (fun hovf => (h.withAfsk ?_).answer 0)
    exact { h.afsk with
      elapsed_lt := Nat.zero_lt_succ _
      idle_index := nofun
      idle_elapsed := nofun
      idle_ptt := nofun
      transmitting_ptt := fun _ => by simp [h.afsk.idle_ptt hstate]
      transmitting_bitpos := fun _ => Nat.zero_le _
      transmitting_whole := fun _ => Bool.eq_false_of_not_eq_true hovf }
  | transmitting => exact h.raise .busy

theorem execAfskEnd_keepsInv {s : State} (h : Inv s) : ∃ t, execAfskEnd s = .next t ∧ Inv t := by
  refine ⟨_, rfl, ?_⟩
  cases hstate : s.afsk.state with
  | idle => exact h.answer 0
  | transmitting =>
    refine (h.withAfsk ?_).answer 0
    exact { h.afsk with transmitting_bitpos := fun _ => le_rfl }

/-- A tick adds at most one bit period to a time below one, and takes one away when it is full (42 R223, R224). -/
theorem afskInv_afskAdvance {s : State} (h : Inv s) (hstate : s.afsk.state = .transmitting) :
    AfskInv s.cfg s.bsf (afskAdvance s) := by
  have helapsed := h.afsk.elapsed_lt
  have hperiod := tonePeriod_le h.cfg s.afsk.tone
  have hdac := sineSample_lt h.cfg s.afsk.sidx
  have hlen : s.bsf.bitlen.toNat < 65536 := s.bsf.bitlen.isLt
  have hidle : s.afsk.state ≠ .idle := by simp [hstate]
  have hbit : bitPeriod = 833 := rfl
  unfold afskAdvance
  simp only
  split
  · split
    · exact {
        elapsed_lt := Nat.zero_lt_succ _
        dac_lt := hdac
        idle_index := fun _ => rfl
        idle_elapsed := fun _ => rfl
        idle_ptt := fun _ => rfl
        transmitting_ptt := nofun
        transmitting_bitpos := nofun
        transmitting_whole := nofun }
    next hmore =>
      have hlt : s.afsk.bitpos.toNat < s.bsf.bitlen.toNat := Nat.not_le.1 hmore
      have hnext : (s.afsk.bitpos + 1).toNat = s.afsk.bitpos.toNat + 1 := by
        rw [BitVec.toNat_add]; simp; omega
      exact { h.afsk with
        elapsed_lt := by simp [takeBit]; omega
        dac_lt := hdac
        idle_index := fun hi => absurd hi hidle
        idle_elapsed := fun hi => absurd hi hidle
        transmitting_bitpos := fun _ => hnext.trans_le hlt }
  · exact { h.afsk with
      elapsed_lt := by simp; omega
      dac_lt := hdac
      idle_index := fun hi => absurd hi hidle
      idle_elapsed := fun hi => absurd hi hidle }

theorem execAfskTick_keepsInv {s : State} (h : Inv s) : ∃ t, execAfskTick s = .next t ∧ Inv t := by
  refine ⟨_, rfl, ?_⟩
  cases hstate : s.afsk.state with
  | idle => exact h.answer 0
  | transmitting => exact (h.withAfsk (afskInv_afskAdvance h hstate)).answer _

/-! ## Unit FRT -/

/-- The stage once the verdict of a failed attempt has been given (43 R270). -/
def FrtStage.settled (g : FrtStage) : FrtStage :=
  match g with
  | .failure => .awaitStart
  | .awaitStart => .awaitStart
  | .length => .length
  | .apiId => .apiId
  | .header => .header
  | .payload => .payload
  | .checksum => .checksum

/-- The unit once the verdict of a failed attempt has been given. Within a POLL stage Failure is seen, and it is the
settled unit that meets the invariant. -/
def Frt.settled (f : Frt) : Frt := { f with stage := f.stage.settled }

theorem FrtStage.settled_of_ne {g : FrtStage} (hg : g ≠ .failure) : g.settled = g := by
  cases g with
  | failure => exact absurd rfl hg
  | _ => rfl

theorem settled_of_ne {f : Frt} (hf : f.stage ≠ .failure) : f.settled = f := by
  rw [Frt.settled, FrtStage.settled_of_ne hf]

/-- A unit that awaits a frame, whatever the attempt before it left in the registers. -/
theorem FrtInv.concluded {c : Config} {f : Frt} (h : FrtInv c f) {queue : List Byte} (hq : queue.length ≤ c.rxDepth)
    {n : BitVec 9} (hn : n.toNat ≤ c.payloadCap) (sum : Byte) (len : BitVec 16) (api cks : Byte) (r : FrtResult) :
    FrtInv c { f with
      stage := .awaitStart, rxfifo := queue, paylen := n, sum := sum, len := len, api := api, cks := cks, result := r } :=
  { h with
    no_failure := nofun
    fifo_le := hq
    paylen_le := hn
    no_verdict_yet := nofun
    length_accepted := nofun
    api_accepted := nofun
    payload_read := nofun }

theorem stageAwaitStart_keepsInv {c : Config} {f : Frt} (h : FrtInv c f) :
    FrtInv c (stageAwaitStart f).frt.settled := by
  have hfifo := h.fifo_le
  unfold stageAwaitStart
  split
  · rwa [blocked, Turn.frt, settled_of_ne h.no_failure]
  next b rest heq =>
    rw [heq, List.length_cons] at hfifo
    split
    · exact { h with
        no_failure := nofun
        fifo_le := Nat.le_of_succ_le hfifo
        no_verdict_yet := fun _ => rfl
        length_accepted := nofun
        api_accepted := nofun
        payload_read := nofun }
    · rw [Turn.frt, settled_of_ne (by exact h.no_failure)]
      exact { h with fifo_le := Nat.le_of_succ_le hfifo }

theorem stageLength_keepsInv {c : Config} {f : Frt} (hf : f.stage = .length) (h : FrtInv c f) :
    FrtInv c (stageLength c f).frt.settled := by
  have hfifo := h.fifo_le
  unfold stageLength
  split
  next hi lo rest heq =>
    rw [heq, List.length_cons, List.length_cons] at hfifo
    simp only
    split
    · exact h.concluded ((Nat.le_add_right _ 2).trans hfifo) h.paylen_le ..
    next hlen =>
      exact { h with
        no_failure := nofun
        fifo_le := (Nat.le_add_right _ 2).trans hfifo
        no_verdict_yet := fun _ => h.no_verdict_yet (by simp [hf, FrtStage.inFrame])
        length_accepted := fun _ => Nat.not_lt.1 hlen
        api_accepted := nofun
        payload_read := nofun }
  · rwa [blocked, Turn.frt, settled_of_ne h.no_failure]

theorem stageApiId_keepsInv {c : Config} {f : Frt} (hf : f.stage = .apiId) (h : FrtInv c f) :
    FrtInv c (stageApiId c f).frt.settled := by
  have hfifo := h.fifo_le
  unfold stageApiId
  split
  · rwa [blocked, Turn.frt, settled_of_ne h.no_failure]
  next b rest heq =>
    rw [heq, List.length_cons] at hfifo
    simp only
    split
    next hapi =>
      exact { h with
        no_failure := nofun
        fifo_le := Nat.le_of_succ_le hfifo
        no_verdict_yet := fun _ => h.no_verdict_yet (by simp [hf, FrtStage.inFrame])
        length_accepted := fun _ => h.length_accepted (by simp [hf, FrtStage.pastLength])
        api_accepted := fun _ => hapi
        payload_read := nofun }
    · exact h.concluded (Nat.le_of_succ_le hfifo) h.paylen_le ..

theorem stageHeader_keepsInv {c : Config} {f : Frt} (hf : f.stage = .header) (h : FrtInv c f) :
    FrtInv c (stageHeader c f).frt.settled := by
  have hfifo := h.fifo_le
  unfold stageHeader
  split
  · rwa [blocked, Turn.frt, settled_of_ne h.no_failure]
  · exact { h with
      no_failure := nofun
      fifo_le := by simp [Turn.frt, Frt.settled]; omega
      src_canonical := cellSetMany_wf _ _ h.src_canonical
      src_within := cellSetMany_within _ (fun k _ hk => by simp at hk ⊢; omega) h.src_within
      extra_canonical := cellSetMany_wf _ _ h.extra_canonical
      extra_within := cellSetMany_within _ (fun k _ hk => by simp at hk ⊢; omega) h.extra_within
      no_verdict_yet := fun _ => h.no_verdict_yet (by simp [hf, FrtStage.inFrame])
      length_accepted := fun _ => h.length_accepted (by simp [hf, FrtStage.pastLength])
      api_accepted := fun _ => h.api_accepted (by simp [hf, FrtStage.pastApiId])
      payload_read := nofun }

theorem stagePayload_keepsInv {c : Config} {f : Frt} (hc : c.wf = true) (hf : f.stage = .payload) (h : FrtInv c f) :
    FrtInv c (stagePayload c f).frt.settled := by
  have hfifo := h.fifo_le
  have hcap := payloadCap_le hc
  have hlen := h.length_accepted (by simp [hf, FrtStage.pastLength])
  unfold stagePayload
  split
  · exact h.concluded hfifo h.paylen_le ..
  · split
    · rwa [blocked, Turn.frt, settled_of_ne h.no_failure]
    next hroom _ =>
      have hpaylen : (BitVec.ofNat 9 (remaining c f)).toNat = remaining c f := by simp; omega
      exact { h with
        no_failure := nofun
        fifo_le := by simp [Turn.frt, Frt.settled]; omega
        paylen_le := hpaylen.trans_le (Nat.not_lt.1 hroom)
        payload_canonical := cellSetMany_wf _ _ h.payload_canonical
        payload_within := cellSetMany_within _ (fun k _ hk => by simp at hk ⊢; omega) h.payload_within
        no_verdict_yet := fun _ => h.no_verdict_yet (by simp [hf, FrtStage.inFrame])
        length_accepted := fun _ => hlen
        api_accepted := fun _ => h.api_accepted (by simp [hf, FrtStage.pastApiId])
        payload_read := fun _ => by
          show f.len.toNat = 1 + c.srcW + c.extraW + (BitVec.ofNat 9 (remaining c f)).toNat
          rw [hpaylen, remaining, minLen]
          omega }

theorem stageChecksum_keepsInv {c : Config} {f : Frt} (h : FrtInv c f) :
    FrtInv c (stageChecksum f).frt.settled := by
  have hfifo := h.fifo_le
  unfold stageChecksum
  split
  · rwa [blocked, Turn.frt, settled_of_ne h.no_failure]
  next b rest heq =>
    rw [heq, List.length_cons] at hfifo
    exact h.concluded (Nat.le_of_succ_le hfifo) h.paylen_le ..

/-- Every turn keeps the invariant of the settled unit. -/
theorem pollTurn_keepsInv {c : Config} (hc : c.wf = true) (f : Frt) (h : FrtInv c f.settled) :
    FrtInv c (pollTurn c f).frt.settled := by
  unfold pollTurn
  split
  next hf => exact stageAwaitStart_keepsInv (settled_of_ne (f := f) (by simp [hf]) ▸ h)
  next hf => exact stageLength_keepsInv hf (settled_of_ne (f := f) (by simp [hf]) ▸ h)
  next hf => exact stageApiId_keepsInv hf (settled_of_ne (f := f) (by simp [hf]) ▸ h)
  next hf => exact stageHeader_keepsInv hf (settled_of_ne (f := f) (by simp [hf]) ▸ h)
  next hf => exact stagePayload_keepsInv hc hf (settled_of_ne (f := f) (by simp [hf]) ▸ h)
  next hf => exact stageChecksum_keepsInv (settled_of_ne (f := f) (by simp [hf]) ▸ h)
  next hf => simpa [stageFailure, Turn.frt, Frt.settled, FrtStage.settled, hf] using h

/-- A turn that ends the operation does not leave stage Failure (43 R270). -/
theorem pollTurn_done_stage {c : Config} {f g : Frt} {v : Value} (h : pollTurn c f = .done g v) :
    g.stage ≠ .failure := by
  unfold pollTurn at h
  split at h
  next hf =>
    unfold stageAwaitStart at h
    split at h
    · cases h; simp [hf]
    · split at h <;> cases h
  next hf =>
    unfold stageLength at h
    split at h
    · simp only at h
      split at h <;> cases h
    · cases h; simp [hf]
  next hf =>
    unfold stageApiId at h
    split at h
    · cases h; simp [hf]
    · simp only at h
      split at h <;> cases h
  next hf =>
    unfold stageHeader at h
    split at h
    · cases h; simp [hf]
    · cases h
  next hf =>
    unfold stagePayload at h
    split at h
    · cases h
    · split at h
      · cases h; simp [hf]
      · cases h
  next hf =>
    unfold stageChecksum at h
    split at h
    · cases h; simp [hf]
    · cases h; nofun
  next => cases h; nofun

theorem Polled.stage_ne_failure {c : Config} {f : Frt} {e : PollEnd} (h : Polled c f e) : e.frt.stage ≠ .failure := by
  induction h with
  | goOn _ _ ih => exact ih
  | done ht => exact pollTurn_done_stage ht

theorem poll_keepsInv {c : Config} {f : Frt} (hc : c.wf = true) (h : FrtInv c f) : FrtInv c (poll c f).frt := by
  have hpolled := Polled.poll c f
  have hsettled := hpolled.keeps (P := fun f => FrtInv c f.settled) (pollTurn_keepsInv hc)
    ((settled_of_ne h.no_failure).symm ▸ h)
  exact settled_of_ne hpolled.stage_ne_failure ▸ hsettled

/-- Replacing a byte of the destination leaves it within its bytes (43 R274). -/
theorem setByteAt_lt (v : BitVec 64) {k n : Nat} (x : Byte) (hv : v.toNat < 256 ^ n) (hk : k < n) :
    (setByteAt v k x).toNat < 256 ^ n := by
  have hpow : (256 : Nat) ^ n = 2 ^ (8 * n) := by rw [Nat.pow_mul]
  have hx : x.toNat <<< (8 * k) < 2 ^ (8 * n) := by
    calc x.toNat <<< (8 * k) = x.toNat * 2 ^ (8 * k) := Nat.shiftLeft_eq _ _
      _ < 2 ^ 8 * 2 ^ (8 * k) := Nat.mul_lt_mul_of_pos_right x.isLt (Nat.two_pow_pos _)
      _ = 2 ^ (8 * (k + 1)) := by rw [← Nat.pow_add]; congr 1; omega
      _ ≤ 2 ^ (8 * n) := Nat.pow_le_pow_right (by decide) (by omega)
  rw [hpow] at hv ⊢
  rw [setByteAt, BitVec.toNat_or, BitVec.toNat_and]
  refine Nat.or_lt_two_pow (Nat.lt_of_le_of_lt Nat.and_le_left hv) ?_
  have hx64 : x.toNat % 2 ^ 64 = x.toNat := Nat.mod_eq_of_lt (by omega)
  rw [BitVec.toNat_shiftLeft, BitVec.toNat_setWidth, hx64]
  exact (Nat.mod_le _ _).trans_lt hx

theorem execFrtRxb_keepsInv {s : State} (h : Inv s) (x : Byte) : ∃ t, execFrtRxb x s = .next t ∧ Inv t := by
  refine ⟨_, rfl, .ite (fun _ => (h.withSys _).raise .cap) (fun hroom => ?_)⟩
  have hfifo := h.frt.fifo_le
  refine (h.withFrt ?_).answer _
  exact { h.frt with fifo_le := by simp; omega }

theorem FrtInv.withOpt {c : Config} {f : Frt} (h : FrtInv c f) (x : Byte) : FrtInv c { f with opt := x } := { h with }

theorem FrtInv.withTxlog {c : Config} {f : Frt} (h : FrtInv c f) (log : List Byte) : FrtInv c { f with txlog := log } :=
  { h with }

theorem FrtInv.withDst {c : Config} {f : Frt} (h : FrtInv c f) {v : BitVec 64} (hv : v.toNat < 256 ^ c.dstW) :
    FrtInv c { f with dst := v } := { h with dst_lt := hv }

theorem FrtInv.storeTx {c : Config} {f : Frt} (h : FrtInv c f) {a : Nat} (x : Byte) (ha : a < c.payloadCap) :
    FrtInv c { f with txbuf := cellSet f.txbuf a x } :=
  { h with
    txbuf_canonical := cellSet_wf _ _ h.txbuf_canonical
    txbuf_within := cellSet_within _ (by simpa using ha) h.txbuf_within }

/-! ## Unit CPF -/

/-- Taking back the last verdict (44 R311). -/
theorem CpfInv.withoutVerdict {c : Config} {p : Cpf} (h : CpfInv c p) : CpfInv c { p with valid := false } :=
  { h with valid_stage := nofun }

theorem CpfInv.storeTx {c : Config} {p : Cpf} (h : CpfInv c p) {a : Nat} (x : Byte) (ha : a < 32) :
    CpfInv c { p with txbuf := cellSet p.txbuf a x } :=
  { h with
    txbuf_canonical := cellSet_wf _ _ h.txbuf_canonical
    txbuf_within := cellSet_within _ (by simpa using ha) h.txbuf_within }

theorem CpfInv.withTxlog {c : Config} {p : Cpf} (h : CpfInv c p) (log : List Byte) : CpfInv c { p with txlog := log } :=
  { h with }

theorem execCpfRst_keepsInv {s : State} (h : Inv s) : ∃ t, execCpfRst s = .next t ∧ Inv t := by
  refine ⟨_, rfl, (h.withCpf ?_).answer 0⟩
  exact { h.cpf with
    size_le := Nat.zero_le _
    data_count := nofun
    integrity_count := nofun
    icnt_elsewhere := fun _ => rfl
    icnt_xor := fun _ => rfl
    chk_crc32 := fun _ => rfl
    valid_stage := nofun }

/-- A declared size starts a packet (44 R311). -/
theorem pushSize_keepsInv {s : State} (h : Inv s) (hvalid : s.cpf.valid = false) (x : Byte) : Inv (pushSize x s) := by
  refine .ite (fun hx => (h.withCpf ?_).answer 0) (fun _ => h.answer 0)
  simp only [cpfMax] at hx
  have hsize : (x.setWidth 6).toNat = x.toNat := by simp; omega
  exact { h.cpf with
    size_le := hsize.trans_le hx.2
    data_count := fun _ => hsize.symm ▸ hx.1
    integrity_count := nofun
    icnt_elsewhere := fun _ => rfl
    icnt_xor := fun _ => rfl
    chk_crc32 := fun hv => by simp [hv, h.cpf.chk_crc32 hv]
    valid_stage := fun hv => nomatch hvalid.symm.trans hv }

/-- A payload byte, the last of which ends the stage (44 R313). -/
theorem pushData_keepsInv {s : State} (h : Inv s) (hstage : s.cpf.stage = .data) (hvalid : s.cpf.valid = false)
    (x : Byte) : Inv (pushData x s) := by
  have hsize := h.cpf.size_le
  have hcount := h.cpf.data_count hstage
  have hnext : (s.cpf.count + 1).toNat = s.cpf.count.toNat + 1 := by
    rw [BitVec.toNat_add]; simp; omega
  have hicnt : s.cpf.icnt = 0 := h.cpf.icnt_elsewhere (by simp [hstage])
  refine (h.withCpf ?_).answer 0
  exact { h.cpf with
    data_count := fun hd => by
      have hne : s.cpf.count + 1 ≠ s.cpf.size := fun he => nomatch (if_pos he).symm.trans hd
      have hne' := mt BitVec.eq_of_toNat_eq hne
      show (s.cpf.count + 1).toNat < s.cpf.size.toNat
      omega
    integrity_count := fun hi => ⟨show 1 ≤ s.cpf.size.toNat by omega, by
      by_contra (hne : s.cpf.count + 1 ≠ s.cpf.size)
      exact nomatch (if_neg hne).symm.trans hi⟩
    icnt_elsewhere := fun _ => hicnt
    chk_crc32 := fun hv => by simp [hv, h.cpf.chk_crc32 hv]
    valid_stage := fun hv => nomatch hvalid.symm.trans hv
    buf_canonical := cellSet_wf _ _ h.cpf.buf_canonical
    buf_within := cellSet_within _ (by simp; omega) h.cpf.buf_within }

/-- The check byte of the XOR variant (44 R314). -/
theorem pushXor_keepsInv {s : State} (h : Inv s) (hv : s.cfg.cpfVariant = .xor) (x : Byte) : Inv (pushXor x s) := by
  refine (h.withCpf ?_).answer _
  exact { h.cpf with
    data_count := nofun
    integrity_count := nofun
    icnt_elsewhere := fun _ => h.cpf.icnt_xor hv
    chk_crc32 := fun hv' => nomatch hv.symm.trans hv'
    valid_stage := fun _ => rfl }

/-- A byte of the check sequence of the CRC32 variant, the fourth of which concludes the packet (44 R315). -/
theorem pushCrc32_keepsInv {s : State} (h : Inv s) (hstage : s.cpf.stage = .integrity)
    (hv : s.cfg.cpfVariant = .crc32) (x : Byte) : Inv (pushCrc32 x s) := by
  have hsize := h.cpf.size_le
  have hicnt : s.cpf.icnt.toNat < 4 := s.cpf.icnt.isLt
  have hbuf : CpfInv s.cfg (store .cpfBuf (s.cpf.size.toNat + s.cpf.icnt.toNat) x s).cpf := { h.cpf with
    buf_canonical := cellSet_wf _ _ h.cpf.buf_canonical
    buf_within := cellSet_within _ (by simp; omega) h.cpf.buf_within }
  refine .ite (fun _ => (h.withCpf ?more).answer 0) (fun _ => (h.withCpf ?last).answer _)
  case more => exact { hbuf with
    icnt_elsewhere := fun hne => absurd hstage hne
    icnt_xor := fun hv' => nomatch hv.symm.trans hv' }
  case last => exact { hbuf with
    data_count := nofun
    integrity_count := nofun
    icnt_elsewhere := fun _ => rfl
    icnt_xor := fun _ => rfl
    valid_stage := fun _ => rfl }

theorem execCpfPush_keepsInv {s : State} (h : Inv s) (x : Byte) : ∃ t, execCpfPush x s = .next t ∧ Inv t := by
  have h' := h.withCpf h.cpf.withoutVerdict
  refine ⟨_, rfl, ?_⟩
  cases hstage : s.cpf.stage with
  | awaitSize => exact pushSize_keepsInv h' rfl x
  | data => exact pushData_keepsInv h' hstage rfl x
  | integrity =>
    cases hv : s.cfg.cpfVariant with
    | xor => exact pushXor_keepsInv h' hv x
    | crc32 => exact pushCrc32_keepsInv h' hstage hv x

/-! ## Every operation, every step -/

theorem load_keepsInv {i : Instr} {s : State} (h : Inv s) (hi : isLoad i = true) :
    ∃ t, exec i s = .next t ∧ Inv t := by
  rcases exec_load hi s with ⟨v, hexec⟩ | hexec
  · exact ⟨_, hexec, h.answer v⟩
  · exact ⟨_, hexec, h.raise .range⟩

theorem exec_keepsInv {s : State} (h : Inv s) (i : Instr) : ∃ t, exec i s = .next t ∧ Inv t := by
  cases i with
  | bsfRst => exact execBsfRst_keepsInv h
  | bsfSync => exact ⟨_, rfl, bitWriting_keepsInv h _ fun _ hb => .ofAppendAll h.cfg hb _⟩
  | bsfFlag => exact ⟨_, rfl, bitWriting_keepsInv h _ fun _ hb => .ofAppendAll h.cfg hb _⟩
  | bsfByte x => exact ⟨_, rfl, bitWriting_keepsInv h _ fun _ hb => (AppendsTo.refl hb).addBytes h.cfg [x]⟩
  | bsfAddr slot last =>
    exact ⟨_, rfl, .ite (fun _ => h.raise .range)
      (fun _ => bitWriting_keepsInv h _ fun _ hb => (AppendsTo.refl hb).addBytes h.cfg _)⟩
  | bsfFcs => exact ⟨_, rfl, bitWriting_keepsInv h _ fun _ hb => (AppendsTo.refl hb).addBytes h.cfg _⟩
  | bsfBuild => exact execBsfBuild_keepsInv h
  | bsfWaddr slot k x => exact execBsfWaddr_keepsInv h slot k x
  | bsfWmsg k x => exact ⟨_, rfl, (h.withBsf (h.bsf.storeMsg k.toNat [x] k.isLt) h.afsk.ofBsf).answer 0⟩
  | bsfSetlen n =>
    exact ⟨_, rfl, .ite (fun _ => h.raise .range)
      (fun hn => (h.withBsf (h.bsf.withMsglen (Nat.not_lt.1 hn)) h.afsk.ofBsf).answer 0)⟩
  | bsfSetpath n =>
    have hmax := maxPath_le h.cfg
    exact ⟨_, rfl, .ite (fun _ => h.raise .range)
      (fun hn => (h.withBsf (h.bsf.withPathcount (by simp; omega)) h.afsk.ofBsf).answer 0)⟩
  | miceWin a x => exact execMiceWin_keepsInv h a x
  | miceEnc =>
    exact ⟨_, rfl, .ite (fun _ => (h.withMice (miceInv_encoded h.cfg h.mice _)).answer _) (fun _ => h.raise .range)⟩
  | micePut => exact execMicePut_keepsInv h
  | afskTx => exact execAfskTx_keepsInv h
  | afskEnd => exact execAfskEnd_keepsInv h
  | afskTick => exact execAfskTick_keepsInv h
  | frtPoll => exact ⟨_, rfl, (h.withFrt (poll_keepsInv h.cfg h.frt)).answer _⟩
  | frtWdst k x =>
    exact ⟨_, rfl, .ite (fun _ => h.raise .range)
      (fun hk => (h.withFrt (h.frt.withDst (setByteAt_lt _ x h.frt.dst_lt (Nat.not_le.1 hk)))).answer 0)⟩
  | frtWopt x => exact ⟨_, rfl, (h.withFrt (h.frt.withOpt x)).answer 0⟩
  | frtWpay k x =>
    exact ⟨_, rfl, .ite (fun _ => h.raise .range)
      (fun hk => (h.withFrt (h.frt.storeTx x (Nat.not_le.1 hk))).answer 0)⟩
  | frtSend n => exact ⟨_, rfl, .ite (fun _ => h.raise .cap) (fun _ => (h.withFrt (h.frt.withTxlog _)).answer _)⟩
  | frtRst => exact ⟨_, rfl, (h.withFrt (h.frt.concluded (Nat.zero_le _) (Nat.zero_le _) ..)).answer 0⟩
  | frtRxb x => exact execFrtRxb_keepsInv h x
  | cpfPush x => exact execCpfPush_keepsInv h x
  | cpfWpay k x =>
    exact ⟨_, rfl, .ite (fun _ => h.raise .range)
      (fun hk => (h.withCpf (h.cpf.storeTx x (Nat.not_le.1 hk))).answer 0)⟩
  | cpfEnc n => exact ⟨_, rfl, .ite (fun _ => h.raise .range) (fun _ => (h.withCpf (h.cpf.withTxlog _)).answer _)⟩
  | cpfRst => exact execCpfRst_keepsInv h
  | sysNop => exact ⟨_, rfl, h.answer 0⟩
  | sysReset => exact ⟨_, rfl, ((inv_resetWith _ h.cfg).withInputs _).answer 0⟩
  | sysClrerr m => exact ⟨_, rfl, (h.withSys _).answer _⟩
  | _ => exact load_keepsInv h rfl

/-- What `issue` does: an operation, or the refusal of a reserved word (30 R102, R111). -/
theorem issue_cases (c : Command) (s : State) :
    (∃ i, issue c s = exec i s) ∨ issue c s = .next (raise .illegal s) := by
  unfold issue
  split
  · split
    · exact .inl ⟨_, rfl⟩
    · exact .inr rfl
  · exact .inr rfl

/-- Settles O13, from the operations: a step takes a command, which no unit sees, and carries it out or refuses it. -/
theorem invariantKeptByEveryStep : Obligations.InvariantKeptByEveryStep := by
  intro s t h ht
  unfold step at ht
  split at ht
  · exact Host.Outcome.next.inj ht ▸ h
  next c rest _ =>
    have h' := h.withInputs rest
    rcases issue_cases c { s with inputs := rest } with ⟨i, hi⟩ | hi
    · obtain ⟨u, hu, hinv⟩ := exec_keepsInv h' i
      exact Host.Outcome.next.inj ((hu.symm.trans hi.symm).trans ht) ▸ hinv
    · exact Host.Outcome.next.inj (hi.symm.trans ht) ▸ h'.raise .illegal

end Sys2Proof.Machine
end

section
/-! SUPPORT. The frame of the 49 operations over memory: which cells an operation writes. -/

namespace Sys2Proof.Machine

/-- Every byte cell of `t` that `W` does not name, and every bit cell that `B` does not name, reads as in `s`. -/
structure WritesOnly (W : Space → Nat → Prop) (B : Nat → Prop) (s t : State) : Prop where
  byte : ∀ sp a, ¬ W sp a → load sp a t = load sp a s
  bit : ∀ k, ¬ B k → loadBit k t = loadBit k s

namespace WritesOnly

variable {W : Space → Nat → Prop} {B : Nat → Prop} {s t u : State}

theorem refl : WritesOnly W B s s := ⟨fun _ _ _ => rfl, fun _ _ => rfl⟩

theorem trans (h : WritesOnly W B s t) (h' : WritesOnly W B t u) : WritesOnly W B s u where
  byte sp a hw := (h'.byte sp a hw).trans (h.byte sp a hw)
  bit k hk := (h'.bit k hk).trans (h.bit k hk)

theorem answer (h : WritesOnly W B s t) (v : Value) : WritesOnly W B s (answer v t) where
  byte sp a hw := (load_answer ..).trans (h.byte sp a hw)
  bit := h.bit

theorem raise (h : WritesOnly W B s t) (st : Status) : WritesOnly W B s (raise st t) where
  byte sp a hw := (load_raise ..).trans (h.byte sp a hw)
  bit := h.bit

theorem ite {p : Prop} [Decidable p] (h : p → WritesOnly W B s t) (h' : ¬ p → WritesOnly W B s u) :
    WritesOnly W B s (if p then t else u) := by
  split
  · exact h ‹_›
  · exact h' ‹_›

theorem ofCells (hbyte : ∀ sp a, ¬ W sp a → cellGet (t.cells sp) a = cellGet (s.cells sp) a)
    (hbit : ∀ k, ¬ B k → cellGet t.bsf.bits k = cellGet s.bsf.bits k) (hepoch : t.epoch = s.epoch) :
    WritesOnly W B s t where
  byte sp a hw := by rw [load, load, hbyte sp a hw, hepoch]
  bit k hk := by rw [loadBit, loadBit, hbit k hk, hepoch]

/-- A change of registers alone. -/
theorem registers (hcells : ∀ sp, t.cells sp = s.cells sp := by intro sp; cases sp <;> rfl)
    (hbits : t.bsf.bits = s.bsf.bits := by rfl) (hepoch : t.epoch = s.epoch := by rfl) : WritesOnly W B s t :=
  ofCells (fun sp _ _ => by rw [hcells sp]) (fun _ _ => by rw [hbits]) hepoch

theorem store (h : WritesOnly W B s t) {sp : Space} {a : Nat} (hw : W sp a) (x : Byte) :
    WritesOnly W B s (store sp a x t) where
  byte sp' a' hw' := by
    rw [load_store, if_neg fun ⟨hsp, ha⟩ => hw' (hsp ▸ ha ▸ hw)]
    exact h.byte sp' a' hw'
  bit k hk := (loadBit_store ..).trans (h.bit k hk)

theorem storeMany (h : WritesOnly W B s t) {sp : Space} {a : Nat} (xs : List Byte)
    (hw : ∀ k, k < a + xs.length → W sp k) : WritesOnly W B s (storeMany sp a xs t) where
  byte sp' a' hw' := by
    rw [load_storeMany, if_neg fun ⟨hsp, _, ha⟩ => hw' (hsp ▸ hw a' ha)]
    exact h.byte sp' a' hw'
  bit k hk := (loadBit_storeMany ..).trans (h.bit k hk)

end WritesOnly

/-! ## Unit BSF -/

/-- Appends write in the room that was left, and no byte cell. -/
theorem AppendsTo.writesOnly {s : State} {b b' : Bsf} {W : Space → Nat → Prop} {B : Nat → Prop}
    (h : AppendsTo s.cfg b b') (hB : ∀ k, b.bitlen.toNat ≤ k → k < s.cfg.bitCap → B k)
    (haddr : b.addr = s.bsf.addr := by rfl) (hmsg : b.msg = s.bsf.msg := by rfl)
    (hbits : b.bits = s.bsf.bits := by rfl) : WritesOnly W B s { s with bsf := b' } := by
  refine .ofCells (fun sp a _ => ?_) (fun k hk => ?_) rfl
  · cases sp with
    | addr => exact congrArg (cellGet · a) (h.addr.trans haddr)
    | msg => exact congrArg (cellGet · a) (h.msg.trans hmsg)
    | _ => rfl
  · rw [← hbits]
    refine h.bits k ?_
    by_contra! hroom
    exact hk (hB k hroom.1 hroom.2)

theorem bitWriting_writesOnly {s : State} {W : Space → Nat → Prop} {B : Nat → Prop} (h : Inv s) {body : Bsf → Bsf}
    (value : Bsf → Value) (hbody : ∀ b, BsfInv s.cfg b → AppendsTo s.cfg b (body b))
    (hB : ∀ k, s.bsf.bitlen.toNat ≤ k → k < s.cfg.bitCap → B k) : WritesOnly W B s (bitWriting body value s) := by
  rcases bitWriting_appends value h.bsf hbody with hbusy | ⟨_, b, hb, ⟨v, hans⟩ | hovf⟩
  · exact hbusy ▸ WritesOnly.refl.raise .busy
  · exact hans ▸ (hb.writesOnly hB).answer v
  · exact hovf ▸ (hb.writesOnly hB).raise .ovf

theorem execBsfRst_writesOnly {W : Space → Nat → Prop} {B : Nat → Prop} (s : State) :
    ∃ t, execBsfRst s = .next t ∧ WritesOnly W B s t := by
  refine ⟨_, rfl, ?_⟩
  cases s.afsk.state with
  | idle => exact .answer .registers 0
  | transmitting => exact .raise .refl .busy

theorem execBsfBuild_writesOnly {s : State} (h : Inv s) :
    ∃ t, execBsfBuild s = .next t ∧ WritesOnly (mayWrite .bsfBuild s) (mayWriteBit .bsfBuild s) s t := by
  refine ⟨_, rfl, ?_⟩
  cases s.afsk.state with
  | idle =>
    have hw : WritesOnly (mayWrite .bsfBuild s) (mayWriteBit .bsfBuild s) s { s with bsf := buildFrame s s.bsf } :=
      (appendsTo_buildFrame h.cfg h.bsf).writesOnly fun _ _ hk => hk
    exact .ite (fun _ => hw.raise .ovf) (fun _ => hw.answer _)
  | transmitting => exact .raise .refl .busy

/-! ## Units MICE and AFSK -/

theorem execMiceEnc_writesOnly {s : State} (h : Inv s) :
    ∃ t, execMiceEnc s = .next t ∧ WritesOnly (mayWrite .miceEnc s) (mayWriteBit .miceEnc s) s t := by
  refine ⟨_, rfl, .ite (fun _ => ?_) (fun _ => .raise .refl .range)⟩
  have hdest := (WritesOnly.refl (W := mayWrite .miceEnc s) (B := mayWriteBit .miceEnc s) (s := s)).storeMany
    (sp := .micDest) (a := 0) (destString (readFix s)) fun k hk => .inl ⟨rfl, by simpa [destString_length] using hk⟩
  have hinfo := hdest.storeMany (sp := .micInfo) (a := 0) (infoString s.cfg (readFix s))
    fun k hk => .inr ⟨rfl, by simpa [infoString_length h.cfg] using hk⟩
  exact (hinfo.trans .registers).answer _

theorem execMicePut_writesOnly (s : State) :
    ∃ t, execMicePut s = .next t ∧ WritesOnly (mayWrite .micePut s) (mayWriteBit .micePut s) s t := by
  refine ⟨_, rfl, .ite (fun _ => ?_) (fun _ => .raise .refl .busy)⟩
  have haddr := (WritesOnly.refl (W := mayWrite .micePut s) (B := mayWriteBit .micePut s) (s := s)).storeMany
    (sp := .addr) (a := slotAddr 0 0) (loadMany .micDest 0 7 s) fun k hk => .inl ⟨rfl, by simpa [slotAddr] using hk⟩
  have hmsg := haddr.storeMany (sp := .msg) (a := 0) (loadMany .micInfo 0 s.mice.infolen.toNat s)
    fun k hk => .inr ⟨rfl, by simpa using hk⟩
  exact (hmsg.trans .registers).answer _

theorem execAfskTx_writesOnly {W : Space → Nat → Prop} {B : Nat → Prop} (s : State) :
    ∃ t, execAfskTx s = .next t ∧ WritesOnly W B s t := by
  refine ⟨_, rfl, ?_⟩
  cases s.afsk.state with
  | idle => exact .ite (fun _ => .raise .refl .ovf) (fun _ => .answer .registers 0)
  | transmitting => exact .raise .refl .busy

theorem execAfskEnd_writesOnly {W : Space → Nat → Prop} {B : Nat → Prop} (s : State) :
    ∃ t, execAfskEnd s = .next t ∧ WritesOnly W B s t := by
  refine ⟨_, rfl, ?_⟩
  cases s.afsk.state with
  | idle => exact .answer .refl 0
  | transmitting => exact .answer .registers 0

theorem execAfskTick_writesOnly {W : Space → Nat → Prop} {B : Nat → Prop} (s : State) :
    ∃ t, execAfskTick s = .next t ∧ WritesOnly W B s t := by
  refine ⟨_, rfl, ?_⟩
  cases s.afsk.state with
  | idle => exact .answer .refl 0
  | transmitting => exact .answer .registers _

/-! ## Unit FRT -/

/-- What the decoder may have written of the memories of unit FRT when `f` has become `g`. -/
structure DecoderWrites (c : Config) (f g : Frt) : Prop where
  src : ∀ a, c.srcW ≤ a → cellGet g.src a = cellGet f.src a
  extra : ∀ a, c.extraW ≤ a → cellGet g.extra a = cellGet f.extra a
  payload : ∀ a, c.payloadCap ≤ a → cellGet g.payload a = cellGet f.payload a

namespace DecoderWrites

variable {c : Config} {f g g' : Frt}

/-- A change of registers alone. -/
theorem registers (hsrc : g.src = f.src := by rfl) (hextra : g.extra = f.extra := by rfl)
    (hpayload : g.payload = f.payload := by rfl) : DecoderWrites c f g :=
  ⟨fun _ _ => by rw [hsrc], fun _ _ => by rw [hextra], fun _ _ => by rw [hpayload]⟩

theorem trans (h : DecoderWrites c f g) (h' : DecoderWrites c g g') : DecoderWrites c f g' where
  src a ha := (h'.src a ha).trans (h.src a ha)
  extra a ha := (h'.extra a ha).trans (h.extra a ha)
  payload a ha := (h'.payload a ha).trans (h.payload a ha)

end DecoderWrites

/-- Consecutive cells from 0 on leave the cells from their number on. -/
theorem cellGet_cellSetMany_of_le {α : Type} (m : List (Nat × α)) {vs : List α} {a : Nat} (ha : vs.length ≤ a) :
    cellGet (cellSetMany m 0 vs) a = cellGet m a := by
  rw [cellGet_cellSetMany, if_neg (by omega)]

theorem stageHeader_writes (c : Config) (f : Frt) : DecoderWrites c f (stageHeader c f).frt := by
  unfold stageHeader
  split
  · exact .registers
  · exact {
      src := fun a ha => cellGet_cellSetMany_of_le _ ((List.length_take_le _ _).trans ha)
      extra := fun a ha => cellGet_cellSetMany_of_le _ (by simp; omega)
      payload := fun _ _ => rfl }

/-- The capacity test comes first, so that no byte goes beyond the capacity (43 R268). -/
theorem stagePayload_writes (c : Config) (f : Frt) : DecoderWrites c f (stagePayload c f).frt := by
  unfold stagePayload
  split
  · exact .registers
  next hroom =>
    split
    · exact .registers
    · exact {
        src := fun _ _ => rfl
        extra := fun _ _ => rfl
        payload := fun a ha =>
          cellGet_cellSetMany_of_le _ ((List.length_take_le _ _).trans ((Nat.not_lt.1 hroom).trans ha)) }

theorem pollTurn_writes (c : Config) (f : Frt) : DecoderWrites c f (pollTurn c f).frt := by
  unfold pollTurn
  split
  · unfold stageAwaitStart
    split
    · exact .registers
    · split <;> exact .registers
  · unfold stageLength
    split
    · simp only
      split <;> exact .registers
    · exact .registers
  · unfold stageApiId
    split
    · exact .registers
    · simp only
      split <;> exact .registers
  · exact stageHeader_writes c f
  · exact stagePayload_writes c f
  · unfold stageChecksum
    split <;> exact .registers
  · exact .registers

theorem poll_writes (c : Config) (f : Frt) : DecoderWrites c f (poll c f).frt :=
  (Polled.poll c f).keeps (P := DecoderWrites c f) (fun g hg => hg.trans (pollTurn_writes c g)) .registers

theorem poll_sameEncoder (c : Config) (f : Frt) : SameEncoder f (poll c f).frt :=
  (Polled.poll c f).keeps (P := SameEncoder f) (fun g hg => hg.trans' (pollTurn_sameEncoder c g)) .rfl'

theorem execFrtPoll_writesOnly (s : State) :
    ∃ t, execFrtPoll s = .next t ∧ WritesOnly (mayWrite .frtPoll s) (mayWriteBit .frtPoll s) s t := by
  have hw := poll_writes s.cfg s.frt
  obtain ⟨-, -, htx, -⟩ := poll_sameEncoder s.cfg s.frt
  refine ⟨_, rfl, .answer ?_ _⟩
  refine .ofCells (fun sp a hna => ?_) (fun _ _ => rfl) rfl
  cases sp with
  | frtSrc => exact hw.src a (Nat.not_lt.1 fun ha => hna (.inl ⟨rfl, ha⟩))
  | frtExtra => exact hw.extra a (Nat.not_lt.1 fun ha => hna (.inr (.inl ⟨rfl, ha⟩)))
  | frtPayload => exact hw.payload a (Nat.not_lt.1 fun ha => hna (.inr (.inr ⟨rfl, ha⟩)))
  | frtTx => exact congrArg (cellGet · a) htx
  | _ => rfl

theorem execFrtRxb_writesOnly {W : Space → Nat → Prop} {B : Nat → Prop} (x : Byte) (s : State) :
    ∃ t, execFrtRxb x s = .next t ∧ WritesOnly W B s t :=
  ⟨_, rfl, .ite (fun _ => .raise .registers .cap) (fun _ => .answer .registers _)⟩

/-! ## Unit CPF -/

theorem pushData_writesOnly {s : State} {W : Space → Nat → Prop} {B : Nat → Prop} (x : Byte)
    (hw : W .cpfBuf s.cpf.count.toNat) : WritesOnly W B s (pushData x s) :=
  .answer ((WritesOnly.refl.store hw x).trans .registers) 0

theorem pushCrc32_writesOnly {s : State} {W : Space → Nat → Prop} {B : Nat → Prop} (x : Byte)
    (hw : W .cpfBuf (s.cpf.size.toNat + s.cpf.icnt.toNat)) : WritesOnly W B s (pushCrc32 x s) :=
  have hstore := WritesOnly.refl.store hw x
  .ite (fun _ => .answer (hstore.trans .registers) 0) (fun _ => .answer (hstore.trans .registers) _)

theorem execCpfPush_writesOnly (x : Byte) (s : State) :
    ∃ t, execCpfPush x s = .next t ∧ WritesOnly (mayWrite (.cpfPush x) s) (mayWriteBit (.cpfPush x) s) s t := by
  refine ⟨_, rfl, .trans (t := { s with cpf := { s.cpf with valid := false } }) .registers ?_⟩
  cases hstage : s.cpf.stage with
  | awaitSize => exact .ite (fun _ => .answer .registers 0) (fun _ => .answer .refl 0)
  | data => exact pushData_writesOnly x ⟨rfl, .inl ⟨hstage, rfl⟩⟩
  | integrity =>
    cases hv : s.cfg.cpfVariant with
    | xor => exact .answer .registers _
    | crc32 => exact pushCrc32_writesOnly x ⟨rfl, .inr ⟨hstage, hv, rfl⟩⟩

/-! ## Every operation -/

theorem load_writesOnly {i : Instr} {W : Space → Nat → Prop} {B : Nat → Prop} (hi : isLoad i = true) (s : State) :
    ∃ t, exec i s = .next t ∧ WritesOnly W B s t := by
  rcases exec_load hi s with ⟨v, hexec⟩ | hexec
  · exact ⟨_, hexec, .answer .refl v⟩
  · exact ⟨_, hexec, .raise .refl .range⟩

theorem exec_writesOnly {s : State} (h : Inv s) (i : Instr) :
    ∃ t, exec i s = .next t ∧ WritesOnly (mayWrite i s) (mayWriteBit i s) s t := by
  cases i with
  | bsfRst => exact execBsfRst_writesOnly s
  | bsfSync =>
    exact ⟨_, rfl, bitWriting_writesOnly h _ (fun _ hb => .ofAppendAll h.cfg hb _) fun _ hl hk => ⟨rfl, hl, hk⟩⟩
  | bsfFlag =>
    exact ⟨_, rfl, bitWriting_writesOnly h _ (fun _ hb => .ofAppendAll h.cfg hb _) fun _ hl hk => ⟨rfl, hl, hk⟩⟩
  | bsfByte x =>
    exact ⟨_, rfl, bitWriting_writesOnly h _ (fun _ hb => (AppendsTo.refl hb).addBytes h.cfg [x])
      fun _ hl hk => ⟨rfl, hl, hk⟩⟩
  | bsfAddr slot last =>
    exact ⟨_, rfl, .ite (fun _ => .raise .refl .range) fun _ =>
      bitWriting_writesOnly h _ (fun _ hb => (AppendsTo.refl hb).addBytes h.cfg _) fun _ hl hk => ⟨rfl, hl, hk⟩⟩
  | bsfFcs =>
    exact ⟨_, rfl, bitWriting_writesOnly h _ (fun _ hb => (AppendsTo.refl hb).addBytes h.cfg _)
      fun _ hl hk => ⟨rfl, hl, hk⟩⟩
  | bsfBuild => exact execBsfBuild_writesOnly h
  | bsfWaddr slot k x =>
    exact ⟨_, rfl, .ite (fun _ => .answer (.store .refl ⟨rfl, rfl⟩ x) 0) (fun _ => .raise .refl .range)⟩
  | bsfWmsg k x => exact ⟨_, rfl, .answer (.store .refl ⟨rfl, rfl⟩ x) 0⟩
  | bsfSetlen n => exact ⟨_, rfl, .ite (fun _ => .raise .refl .range) (fun _ => .answer .registers 0)⟩
  | bsfSetpath n => exact ⟨_, rfl, .ite (fun _ => .raise .refl .range) (fun _ => .answer .registers 0)⟩
  | miceWin a x =>
    exact ⟨_, rfl, .ite (fun _ => .raise .refl .range) (fun _ => .answer (.store .refl ⟨rfl, rfl⟩ x) 0)⟩
  | miceEnc => exact execMiceEnc_writesOnly h
  | micePut => exact execMicePut_writesOnly s
  | afskTx => exact execAfskTx_writesOnly s
  | afskEnd => exact execAfskEnd_writesOnly s
  | afskTick => exact execAfskTick_writesOnly s
  | frtPoll => exact execFrtPoll_writesOnly s
  | frtWdst k x => exact ⟨_, rfl, .ite (fun _ => .raise .refl .range) (fun _ => .answer .registers 0)⟩
  | frtWopt x => exact ⟨_, rfl, .answer .registers 0⟩
  | frtWpay k x =>
    exact ⟨_, rfl, .ite (fun _ => .raise .refl .range) (fun _ => .answer (.store .refl ⟨rfl, rfl⟩ x) 0)⟩
  | frtSend n => exact ⟨_, rfl, .ite (fun _ => .raise .refl .cap) (fun _ => .answer .registers _)⟩
  | frtRst => exact ⟨_, rfl, .answer .registers 0⟩
  | frtRxb x => exact execFrtRxb_writesOnly x s
  | cpfPush x => exact execCpfPush_writesOnly x s
  | cpfWpay k x =>
    exact ⟨_, rfl, .ite (fun _ => .raise .refl .range) (fun _ => .answer (.store .refl ⟨rfl, rfl⟩ x) 0)⟩
  | cpfEnc n => exact ⟨_, rfl, .ite (fun _ => .raise .refl .range) (fun _ => .answer .registers _)⟩
  | cpfRst => exact ⟨_, rfl, .answer .registers 0⟩
  | sysNop => exact ⟨_, rfl, .answer .refl 0⟩
  | sysReset => exact ⟨_, rfl, fun _ _ hn => absurd trivial hn, fun _ hn => absurd trivial hn⟩
  | sysClrerr m => exact ⟨_, rfl, .answer .registers _⟩
  | _ => exact load_writesOnly rfl s

/-- Settles O21, from the cells that each operation writes. -/
theorem memoryChangesOnlyInTheCellsNamed : Obligations.MemoryChangesOnlyInTheCellsNamed := by
  intro i s t h ht
  obtain ⟨u, hu, hw⟩ := exec_writesOnly h i
  obtain rfl : u = t := Host.Outcome.next.inj (hu.symm.trans ht)
  exact ⟨hw.byte, hw.bit⟩

end Sys2Proof.Machine
end

section
/-! SUPPORT. The command encoding as a table: each operation number of each unit is a row of its operand form (30 R103
to R109), or reserved. The round trips, the bits that are ignored and what a step makes of a word are read off the
rows. -/

namespace Sys2Proof

open Machine (tableHas portAdmits commandIs)

/-! ## Decoding undoes encoding -/

/-- The operation comes back, and with it every operand, because each form undoes what the encoder makes of it. -/
theorem decode_encode (i : Instr) : decode (encode i) = .ok i := by
  cases i with
  | bsfAddr s last => simp [encode, decode_cmdWord, decodeBsf]
  | bsfWaddr s k b => simp [encode, decode_cmdWord, decodeBsf]
  | bsfSetlen n => simp [encode, decode_cmdWord, decodeBsf]
  | bsfRbit k => simp [encode, decode_cmdWord, decodeBsf]
  | bsfRaddr s k => simp [encode, decode_cmdWord, decodeBsf]
  | frtSend n => simp [encode, decode_cmdWord, decodeFrt]
  | sysClrerr m => simp [encode, decode_cmdWord, decodeSys]
  | _ => exact decode_cmdWord _ _ _ _

theorem encode_injective {i j : Instr} (h : encode i = encode j) : i = j :=
  Except.ok.inj ((decode_encode i).symm.trans (h ▸ decode_encode j))

/-! ## The values of the operand forms (30 R103) -/

theorem formAb16_toNat (a b : Byte) : (formAb16 a b).toNat = 256 * a.toNat + b.toNat := by
  rw [formAb16, BitVec.toNat_append, ← Nat.shiftLeft_add_eq_or_of_lt b.isLt, Nat.shiftLeft_eq]
  omega

theorem formLen9_toNat (a b : Byte) : (formLen9 a b).toNat = 256 * (a.toNat % 2) + b.toNat := by
  rw [formLen9, BitVec.toNat_append, ← Nat.shiftLeft_add_eq_or_of_lt b.isLt, Nat.shiftLeft_eq,
    BitVec.extractLsb'_toNat, Nat.shiftRight_zero]
  omega

theorem formSlot_toNat (a : Byte) : (formSlot a).toNat = a.toNat / 8 := by
  rw [formSlot, BitVec.extractLsb'_toNat, Nat.shiftRight_eq_div_pow]
  omega

theorem formIndex_toNat (a : Byte) : (formIndex a).toNat = a.toNat % 8 := BitVec.extractLsb'_toNat 0 3 a

theorem formLast_iff (b : Byte) : formLast b = true ↔ b.toNat % 2 = 1 := by
  rw [formLast, BitVec.getLsbD, Nat.testBit_zero, decide_eq_true_iff]

theorem formMask_toNat (b : Byte) : (formMask b).toNat = b.toNat % 64 := BitVec.extractLsb'_toNat 0 6 b

/-! ## The encoder gives back the bits that a form reads -/

theorem flagByte_formLast (b : Byte) : flagByte (formLast b) = b &&& 0x01 := by revert b; decide

theorem formSlot_append_formIndex (a : Byte) : formSlot a ++ formIndex a = a := by revert a; decide

theorem len9Hi_formLen9 (a b : Byte) : len9Hi (formLen9 a b) = a &&& 0x01 := by
  have hbit : (formLen9 a b).extractLsb' 8 1 = a.extractLsb' 0 1 := BitVec.extractLsb'_append_eq_left
  have hmask : ∀ x : Byte, 0#7 ++ x.extractLsb' 0 1 = x &&& 0x01 := by decide
  rw [len9Hi, hbit, hmask]

theorem len9Lo_formLen9 (a b : Byte) : len9Lo (formLen9 a b) = b := BitVec.extractLsb'_append_eq_right

theorem ab16Hi_formAb16 (a b : Byte) : ab16Hi (formAb16 a b) = a := BitVec.extractLsb'_append_eq_left

theorem ab16Lo_formAb16 (a b : Byte) : ab16Lo (formAb16 a b) = b := BitVec.extractLsb'_append_eq_right

theorem maskByte_formMask (b : Byte) : maskByte (formMask b) = b &&& 0x3F := by revert b; decide

/-! ## Units of the decoder -/

theorem decode_bsf (o : BitVec 4) (a b : Byte) : decode (cmdWord 0 o a b) = decodeBsf o.toNat a b :=
  decode_cmdWord 0 o a b

theorem decode_mice (o : BitVec 4) (a b : Byte) : decode (cmdWord 1 o a b) = decodeMice o.toNat a b :=
  decode_cmdWord 1 o a b

theorem decode_afsk (o : BitVec 4) (a b : Byte) : decode (cmdWord 2 o a b) = decodeAfsk o.toNat a b :=
  decode_cmdWord 2 o a b

theorem decode_frt (o : BitVec 4) (a b : Byte) : decode (cmdWord 3 o a b) = decodeFrt o.toNat a b :=
  decode_cmdWord 3 o a b

theorem decode_cpf (o : BitVec 4) (a b : Byte) : decode (cmdWord 4 o a b) = decodeCpf o.toNat a b :=
  decode_cmdWord 4 o a b

theorem decode_sys (o : BitVec 4) (a b : Byte) : decode (cmdWord 15 o a b) = decodeSys o.toNat a b :=
  decode_cmdWord 15 o a b

/-! ## Rows of the operation tables -/

/-- The one port that admits operation `o` of unit `u` (30 R102). -/
def admittingPort (u o : Nat) : Port :=
  if u = 2 ∧ o = 15 then .timer else if u = 3 ∧ o = 15 then .stream else .host

theorem portAdmits_iff (p : Port) (u o : Nat) : portAdmits p u o = true ↔ admittingPort u o = p := by
  unfold admittingPort
  split_ifs with htick hrxb
  · cases p <;> simp [portAdmits, htick]
  · cases p <;> simp [portAdmits, hrxb]
  · cases p <;> simp [portAdmits] <;> tauto

/-- Masking the operands of a word. -/
theorem cmdWord_and_operands (u o : BitVec 4) (a b ma mb : Byte) :
    cmdWord u o a b &&& cmdWord 0xF 0xF ma mb = cmdWord u o (a &&& ma) (b &&& mb) := by
  have hall : ∀ x : BitVec 4, x &&& 0xF = x := by decide
  rw [cmdWord_and, hall, hall]

/-- Operation `o` of unit `u` is `f` of the two operand fields of its word; the unit, the operation number and fixed
bits of the operands are what it reads of the word, and what the encoder gives back. -/
structure IsRow (u o : BitVec 4) (f : Byte → Byte → Instr) : Prop where
  command : commandIs (admittingPort u.toNat o.toNat) u o f
  usedBits_eq : ∃ ma mb, ∀ a b, usedBits (f a b) = cmdWord 0xF 0xF ma mb
  encode_eq : ∀ a b, encode (f a b) = cmdWord u o a b &&& usedBits (f a b)

namespace IsRow

/-- A row from the operand bits it reads: `ma` of field `A` and `mb` of field `B`. -/
theorem ofMasks {u o : BitVec 4} {f : Byte → Byte → Instr} (ma mb : Byte)
    (hcmd : commandIs (admittingPort u.toNat o.toNat) u o f)
    (hused : ∀ a b, usedBits (f a b) = cmdWord 0xF 0xF ma mb)
    (hencode : ∀ a b, encode (f a b) = cmdWord u o (a &&& ma) (b &&& mb)) : IsRow u o f where
  command := hcmd
  usedBits_eq := ⟨ma, mb, hused⟩
  encode_eq a b := by rw [hused, cmdWord_and_operands, hencode]

theorem noOperand {u o : BitVec 4} {i : Instr} (hdecode : ∀ a b, decode (cmdWord u o a b) = .ok i)
    (hport : i.port = admittingPort u.toNat o.toNat := by rfl) (hused : usedBits i = 0xFF0000 := by rfl)
    (hencode : encode i = cmdWord u o 0 0 := by rfl) : IsRow u o fun _ _ => i :=
  ofMasks 0x00 0x00 (fun a b => ⟨hdecode a b, hport⟩) (fun _ _ => hused) fun _ _ => by
    simpa using hencode

/-- A row of form B8. -/
theorem operandB {u o : BitVec 4} {g : Byte → Instr} (hdecode : ∀ a b, decode (cmdWord u o a b) = .ok (g b))
    (hport : ∀ b, (g b).port = admittingPort u.toNat o.toNat := by intro _; rfl)
    (hused : ∀ b, usedBits (g b) = 0xFF00FF := by intro _; rfl)
    (hencode : ∀ b, encode (g b) = cmdWord u o 0 b := by intro _; rfl) : IsRow u o fun _ b => g b :=
  ofMasks 0x00 0xFF (fun a b => ⟨hdecode a b, hport b⟩) (fun _ b => hused b) fun _ b => by
    simpa [Laws.EncodeUsesItsBits.byte_and_mask] using hencode b

/-- A row of form A8. -/
theorem operandA {u o : BitVec 4} {g : Byte → Instr} (hdecode : ∀ a b, decode (cmdWord u o a b) = .ok (g a))
    (hport : ∀ a, (g a).port = admittingPort u.toNat o.toNat := by intro _; rfl)
    (hused : ∀ a, usedBits (g a) = 0xFFFF00 := by intro _; rfl)
    (hencode : ∀ a, encode (g a) = cmdWord u o a 0 := by intro _; rfl) : IsRow u o fun a _ => g a :=
  ofMasks 0xFF 0x00 (fun a b => ⟨hdecode a b, hport a⟩) (fun a _ => hused a) fun a _ => by
    simpa [Laws.EncodeUsesItsBits.byte_and_mask] using hencode a

/-- A row of forms A8 and B8, or AB16. -/
theorem operandsAB {u o : BitVec 4} {f : Byte → Byte → Instr} (hdecode : ∀ a b, decode (cmdWord u o a b) = .ok (f a b))
    (hport : ∀ a b, (f a b).port = admittingPort u.toNat o.toNat := by intro _ _; rfl)
    (hused : ∀ a b, usedBits (f a b) = 0xFFFFFF := by intro _ _; rfl)
    (hencode : ∀ a b, encode (f a b) = cmdWord u o a b := by intro _ _; rfl) : IsRow u o f :=
  ofMasks 0xFF 0xFF (fun a b => ⟨hdecode a b, hport a b⟩) hused fun a b => by
    simpa [Laws.EncodeUsesItsBits.byte_and_mask] using hencode a b

/-- A row of form LEN9. -/
theorem operandLen9 {u o : BitVec 4} {g : BitVec 9 → Instr}
    (hdecode : ∀ a b, decode (cmdWord u o a b) = .ok (g (formLen9 a b)))
    (hport : ∀ n, (g n).port = admittingPort u.toNat o.toNat := by intro _; rfl)
    (hused : ∀ n, usedBits (g n) = 0xFF01FF := by intro _; rfl)
    (hencode : ∀ n, encode (g n) = cmdWord u o (len9Hi n) (len9Lo n) := by intro _; rfl) :
    IsRow u o fun a b => g (formLen9 a b) :=
  ofMasks 0x01#8 0xFF#8 (fun a b => ⟨hdecode a b, hport _⟩) (fun _ _ => hused _) fun a b => by
    rw [hencode, len9Hi_formLen9, len9Lo_formLen9, Laws.EncodeUsesItsBits.byte_and_mask]; rfl

end IsRow

/-- Unit 0 has all sixteen operations (30 R104). -/
theorem bsf_isRow : ∀ o < 16, ∃ f, IsRow 0 (BitVec.ofNat 4 o) f
  | 0, _ => ⟨_, .noOperand (decode_bsf 0)⟩
  | 1, _ => ⟨_, .noOperand (decode_bsf 1)⟩
  | 2, _ => ⟨_, .noOperand (decode_bsf 2)⟩
  | 3, _ => ⟨_, .operandB (decode_bsf 3)⟩
  | 4, _ => ⟨fun a b => .bsfAddr a (formLast b), .ofMasks 0xFF#8 0x01#8 (fun a b => ⟨decode_bsf 4 a b, rfl⟩)
      (fun _ _ => rfl) fun a b => by
        rw [encode, flagByte_formLast, Laws.EncodeUsesItsBits.byte_and_mask]; rfl⟩
  | 5, _ => ⟨_, .noOperand (decode_bsf 5)⟩
  | 6, _ => ⟨_, .noOperand (decode_bsf 6)⟩
  | 7, _ => ⟨_, .operandsAB (decode_bsf 7) (hencode := fun a b => by rw [encode, formSlot_append_formIndex]; rfl)⟩
  | 8, _ => ⟨_, .operandsAB (decode_bsf 8)⟩
  | 9, _ => ⟨_, .operandLen9 (decode_bsf 9)⟩
  | 10, _ => ⟨_, .operandB (decode_bsf 10)⟩
  | 11, _ => ⟨_, .operandsAB (decode_bsf 11)
      (hencode := fun a b => by rw [encode, ab16Hi_formAb16, ab16Lo_formAb16]; rfl)⟩
  | 12, _ => ⟨_, .noOperand (decode_bsf 12)⟩
  | 13, _ => ⟨_, .noOperand (decode_bsf 13)⟩
  | 14, _ => ⟨_, .operandA (decode_bsf 14) (hencode := fun a => by rw [encode, formSlot_append_formIndex]; rfl)⟩
  | 15, _ => ⟨_, .operandA (decode_bsf 15)⟩
  | _ + 16, h => absurd h (by omega)

theorem mice_isRow : ∀ o ≤ 4, ∃ f, IsRow 1 (BitVec.ofNat 4 o) f
  | 0, _ => ⟨_, .operandsAB (decode_mice 0)⟩
  | 1, _ => ⟨_, .noOperand (decode_mice 1)⟩
  | 2, _ => ⟨_, .noOperand (decode_mice 2)⟩
  | 3, _ => ⟨_, .operandA (decode_mice 3)⟩
  | 4, _ => ⟨_, .operandA (decode_mice 4)⟩
  | _ + 5, h => absurd h (by omega)

theorem afsk_isRow : ∀ o ≤ 4, ∃ f, IsRow 2 (BitVec.ofNat 4 o) f
  | 0, _ => ⟨_, .noOperand (decode_afsk 0)⟩
  | 1, _ => ⟨_, .noOperand (decode_afsk 1)⟩
  | 2, _ => ⟨_, .noOperand (decode_afsk 2)⟩
  | 3, _ => ⟨_, .noOperand (decode_afsk 3)⟩
  | 4, _ => ⟨_, .operandA (decode_afsk 4)⟩
  | _ + 5, h => absurd h (by omega)

theorem afskTick_isRow : IsRow 2 15 fun _ _ => .afskTick := .noOperand (decode_afsk 15)

theorem frt_isRow : ∀ o ≤ 8, ∃ f, IsRow 3 (BitVec.ofNat 4 o) f
  | 0, _ => ⟨_, .noOperand (decode_frt 0)⟩
  | 1, _ => ⟨_, .operandA (decode_frt 1)⟩
  | 2, _ => ⟨_, .operandsAB (decode_frt 2)⟩
  | 3, _ => ⟨_, .operandB (decode_frt 3)⟩
  | 4, _ => ⟨_, .operandsAB (decode_frt 4)⟩
  | 5, _ => ⟨_, .operandLen9 (decode_frt 5)⟩
  | 6, _ => ⟨_, .noOperand (decode_frt 6)⟩
  | 7, _ => ⟨_, .noOperand (decode_frt 7)⟩
  | 8, _ => ⟨_, .operandA (decode_frt 8)⟩
  | _ + 9, h => absurd h (by omega)

theorem frtRxb_isRow : IsRow 3 15 fun _ b => .frtRxb b := .operandB (decode_frt 15)

theorem cpf_isRow : ∀ o ≤ 6, ∃ f, IsRow 4 (BitVec.ofNat 4 o) f
  | 0, _ => ⟨_, .operandB (decode_cpf 0)⟩
  | 1, _ => ⟨_, .noOperand (decode_cpf 1)⟩
  | 2, _ => ⟨_, .operandA (decode_cpf 2)⟩
  | 3, _ => ⟨_, .operandsAB (decode_cpf 3)⟩
  | 4, _ => ⟨_, .operandB (decode_cpf 4)⟩
  | 5, _ => ⟨_, .noOperand (decode_cpf 5)⟩
  | 6, _ => ⟨_, .noOperand (decode_cpf 6)⟩
  | _ + 7, h => absurd h (by omega)

theorem sys_isRow : ∀ o ≤ 4, ∃ f, IsRow 15 (BitVec.ofNat 4 o) f
  | 0, _ => ⟨_, .noOperand (decode_sys 0)⟩
  | 1, _ => ⟨_, .noOperand (decode_sys 1)⟩
  | 2, _ => ⟨_, .noOperand (decode_sys 2)⟩
  | 3, _ => ⟨fun _ b => .sysClrerr (formMask b), .ofMasks 0x00 0x3F (fun a b => ⟨decode_sys 3 a b, rfl⟩)
      (fun _ _ => rfl) fun a b => by rw [encode, maskByte_formMask]; simp⟩
  | 4, _ => ⟨_, .noOperand (decode_sys 4)⟩
  | _ + 5, h => absurd h (by omega)

/-- The unit and operation numbers that the tables have. -/
theorem tableHas_iff (u o : Nat) : tableHas u o = true ↔
    u = 0 ∨ u = 1 ∧ o ≤ 4 ∨ u = 2 ∧ (o ≤ 4 ∨ o = 15) ∨ u = 3 ∧ (o ≤ 8 ∨ o = 15) ∨ u = 4 ∧ o ≤ 6 ∨ u = 15 ∧ o ≤ 4 := by
  simp [tableHas, or_assoc]

theorem exists_isRow {u o : Nat} (ho : o < 16) (h : tableHas u o = true) :
    ∃ f, IsRow (BitVec.ofNat 4 u) (BitVec.ofNat 4 o) f := by
  obtain rfl | ⟨rfl, hle⟩ | ⟨rfl, hle | rfl⟩ | ⟨rfl, hle | rfl⟩ | ⟨rfl, hle⟩ | ⟨rfl, hle⟩ := (tableHas_iff u o).1 h
  · exact bsf_isRow o ho
  · exact mice_isRow o hle
  · exact afsk_isRow o hle
  · exact ⟨_, afskTick_isRow⟩
  · exact frt_isRow o hle
  · exact ⟨_, frtRxb_isRow⟩
  · exact cpf_isRow o hle
  · exact sys_isRow o hle

/-! ## Every word is in a row, or reserved -/

/-- A word whose unit and operation the tables have is decoded by its row. -/
theorem isRow_of_tableHas {w : CmdWord} (h : tableHas (fieldUnit w).toNat (fieldOp w).toNat = true) :
    ∃ f, IsRow (fieldUnit w) (fieldOp w) f := by
  simpa using exists_isRow (fieldOp w).isLt h

theorem IsRow.decode_eq {w : CmdWord} {f : Byte → Byte → Instr} (h : IsRow (fieldUnit w) (fieldOp w) f) :
    decode w = .ok (f (fieldA w) (fieldB w)) := by
  rw [← (h.command (fieldA w) (fieldB w)).1, cmdWord_fields]

theorem decodeMice_reserved {o : Nat} (h : 4 < o) (a b : Byte) : decodeMice o a b = .error (.op 1 o) := by
  obtain ⟨n, rfl⟩ := Nat.exists_eq_add_of_le' h
  rfl

theorem decodeAfsk_reserved {o : Nat} (h : 4 < o) (h15 : o ≠ 15) (a b : Byte) :
    decodeAfsk o a b = .error (.op 2 o) := by
  unfold decodeAfsk
  split
  case h_7 => rfl
  all_goals omega

theorem decodeFrt_reserved {o : Nat} (h : 8 < o) (h15 : o ≠ 15) (a b : Byte) :
    decodeFrt o a b = .error (.op 3 o) := by
  unfold decodeFrt
  split
  case h_11 => rfl
  all_goals omega

theorem decodeCpf_reserved {o : Nat} (h : 6 < o) (a b : Byte) : decodeCpf o a b = .error (.op 4 o) := by
  obtain ⟨n, rfl⟩ := Nat.exists_eq_add_of_le' h
  rfl

theorem decodeSys_reserved {o : Nat} (h : 4 < o) (a b : Byte) : decodeSys o a b = .error (.op 15 o) := by
  obtain ⟨n, rfl⟩ := Nat.exists_eq_add_of_le' h
  rfl

/-- A word whose unit or operation the tables do not have is reserved (30 R111). -/
theorem decode_reserved {w : CmdWord} (h : ¬ tableHas (fieldUnit w).toNat (fieldOp w).toNat = true) :
    ∃ e, decode w = .error e := by
  rw [tableHas_iff] at h
  unfold decode
  split
  case h_1 => omega
  case h_2 => exact ⟨_, decodeMice_reserved (by omega) _ _⟩
  case h_3 => exact ⟨_, decodeAfsk_reserved (by omega) (by omega) _ _⟩
  case h_4 => exact ⟨_, decodeFrt_reserved (by omega) (by omega) _ _⟩
  case h_5 => exact ⟨_, decodeCpf_reserved (by omega) _ _⟩
  case h_6 => exact ⟨_, decodeSys_reserved (by omega) _ _⟩
  case h_7 => exact ⟨_, rfl⟩

/-- A word that decodes is one of the words of a row. -/
theorem exists_isRow_of_decode {w : CmdWord} {i : Instr} (h : decode w = .ok i) :
    ∃ f, IsRow (fieldUnit w) (fieldOp w) f ∧ i = f (fieldA w) (fieldB w) := by
  by_cases htable : tableHas (fieldUnit w).toNat (fieldOp w).toNat = true
  · obtain ⟨f, hrow⟩ := isRow_of_tableHas htable
    exact ⟨f, hrow, Except.ok.inj (h.symm.trans hrow.decode_eq)⟩
  · obtain ⟨e, he⟩ := decode_reserved htable
    exact absurd (h.symm.trans he) nofun

/-- Settles O3, operation by operation. -/
theorem decodeOfEncodeIsTheInstruction : Obligations.DecodeOfEncodeIsTheInstruction := decode_encode

/-- Settles O4, from the row of the word: what its form reads is what the encoder gives back. -/
theorem encodeOfDecodeKeepsTheUsedBits : Obligations.EncodeOfDecodeKeepsTheUsedBits := by
  intro w i h
  obtain ⟨f, hrow, rfl⟩ := exists_isRow_of_decode h
  rw [hrow.encode_eq, cmdWord_fields]

/-! ## Bits that an operation does not name -/

/-- Words that agree on a unit, an operation number and some bits of the operands are words of one row. -/
theorem unit_op_eq_of_and_eq {w w' : CmdWord} {ma mb : Byte}
    (h : w' &&& cmdWord 0xF 0xF ma mb = w &&& cmdWord 0xF 0xF ma mb) :
    fieldUnit w' = fieldUnit w ∧ fieldOp w' = fieldOp w := by
  rw [← cmdWord_fields w', ← cmdWord_fields w, cmdWord_and_operands, cmdWord_and_operands] at h
  exact ⟨by simpa using congrArg fieldUnit h, by simpa using congrArg fieldOp h⟩

/-- Settles O5. The two words are in one row, so their operations read the same bits, have one command word, and are
one operation. -/
theorem unnamedOperandBitsAreIgnored : Obligations.UnnamedOperandBitsAreIgnored := by
  intro w w' i h hagree
  obtain ⟨f, hrow, rfl⟩ := exists_isRow_of_decode h
  obtain ⟨ma, mb, hused⟩ := hrow.usedBits_eq
  obtain ⟨hunit, hop⟩ := unit_op_eq_of_and_eq (hused _ _ ▸ hagree)
  have h' : decode w' = .ok (f (fieldA w') (fieldB w')) := IsRow.decode_eq (hunit ▸ hop ▸ hrow)
  have hword : encode (f (fieldA w') (fieldB w')) = encode (f (fieldA w) (fieldB w)) := by
    rw [encodeOfDecodeKeepsTheUsedBits w' _ h', encodeOfDecodeKeepsTheUsedBits w _ h, ← hagree, hused, hused]
  rw [h', encode_injective hword]

/-- Settles O6, form by form. -/
theorem operandFormsReadTheirFields : Obligations.OperandFormsReadTheirFields := fun a b =>
  ⟨formAb16_toNat a b, formLen9_toNat a b, formSlot_toNat a, formIndex_toNat a, formLast_iff b, formMask_toNat b⟩

/-! ## One step -/

theorem fieldUnit_toNat (w : CmdWord) : (fieldUnit w).toNat = w.toNat / 2 ^ 20 := by
  rw [fieldUnit, BitVec.extractLsb'_toNat, Nat.shiftRight_eq_div_pow]
  omega

theorem fieldOp_toNat (w : CmdWord) : (fieldOp w).toNat = w.toNat / 2 ^ 16 % 16 := by
  rw [fieldOp, BitVec.extractLsb'_toNat, Nat.shiftRight_eq_div_pow]

namespace Machine

variable {s : State} {p : Port} {w : CmdWord} {rest : List Command}

/-- A step takes the oldest command and issues it. -/
theorem step_cons (hinputs : s.inputs = { port := p, word := w } :: rest) :
    step s = issue { port := p, word := w } { s with inputs := rest } := by
  rw [step, hinputs]

theorem step_admitted {i : Instr} (hinputs : s.inputs = { port := p, word := w } :: rest) (h : decode w = .ok i)
    (hport : i.port = p) : step s = exec i { s with inputs := rest } := by
  rw [step_cons hinputs, issue, h]
  exact if_pos hport

theorem step_wrongPort {i : Instr} (hinputs : s.inputs = { port := p, word := w } :: rest) (h : decode w = .ok i)
    (hport : i.port ≠ p) : step s = .next (raise .illegal { s with inputs := rest }) := by
  rw [step_cons hinputs, issue, h]
  exact if_neg hport

theorem step_reserved {e : Reserved} (hinputs : s.inputs = { port := p, word := w } :: rest)
    (h : decode w = .error e) : step s = .next (raise .illegal { s with inputs := rest }) := by
  rw [step_cons hinputs, issue, h]

/-- What the refusal of a reserved word changes (30 R111). -/
theorem raise_illegal (s : State) : raise .illegal s =
    { s with sys := { err := s.sys.err ||| 0b000001#6 }, resp := { status := .illegal, value := 0 } } := rfl

end Machine

/-- Settles O2: a word in the tables is decoded by its row, whose operations the row's port admits and no other does. -/
theorem everyWordRunsOrIsIllegal : Obligations.EveryWordRunsOrIsIllegal := by
  intro s p w rest hinputs
  rw [← fieldUnit_toNat, ← fieldOp_toNat, portAdmits_iff]
  by_cases htable : tableHas (fieldUnit w).toNat (fieldOp w).toNat = true
  · obtain ⟨f, hrow⟩ := isRow_of_tableHas htable
    have hdecode := hrow.decode_eq
    have hport := (hrow.command (fieldA w) (fieldB w)).2
    constructor
    · intro ⟨_, hadmits⟩
      have hrun := hport.trans hadmits
      exact ⟨_, hdecode, hrun, Machine.step_admitted hinputs hdecode hrun⟩
    · intro hnot
      have hother : (f (fieldA w) (fieldB w)).port ≠ p := fun hp => hnot ⟨htable, hport.symm.trans hp⟩
      rw [Machine.step_wrongPort hinputs hdecode hother, Machine.raise_illegal]
  · obtain ⟨e, he⟩ := decode_reserved htable
    refine ⟨fun ⟨h, _⟩ => absurd h htable, fun _ => ?_⟩
    rw [Machine.step_reserved hinputs he, Machine.raise_illegal]

end Sys2Proof
end

section
/-! SUPPORT. The bits of a built frame (30 R113 to R115): the address field, the residue of the frame check accumulator,
the length of a stuffed sequence, and BSF.BUILD as one run of appends. -/

namespace Sys2Proof.Machine

/-! ## The address field (30 R114) -/

theorem addrBytes_length (slot : Nat) (last : Bool) (s : State) : (addrBytes slot last s).length = 7 := by
  simp [addrBytes]

/-- Byte by byte; the bit that marks the last address is 1 or 0. -/
theorem addrBytes_eq (slot : Nat) (last : Bool) (s : State) : addrBytes slot last s =
    [load .addr (8 * slot) s <<< 1 ||| s.cfg.addrOrCall, load .addr (8 * slot + 1) s <<< 1 ||| s.cfg.addrOrCall,
     load .addr (8 * slot + 2) s <<< 1 ||| s.cfg.addrOrCall, load .addr (8 * slot + 3) s <<< 1 ||| s.cfg.addrOrCall,
     load .addr (8 * slot + 4) s <<< 1 ||| s.cfg.addrOrCall, load .addr (8 * slot + 5) s <<< 1 ||| s.cfg.addrOrCall,
     (load .addr (8 * slot + 6) s <<< 1 &&& 0xFE) ||| s.cfg.addrOrSsid ||| (if last then 1 else 0)] := by
  cases last <;> rfl

/-- A canonical SSID character `0x30 + n`, shifted, and the mark of the last address. -/
theorem ssidByte_canonical (last : Bool) : ∀ n ≤ 15,
    (BitVec.ofNat 8 (0x30 + n) <<< 1 &&& 0xFE) ||| 0 ||| (if last then 1 else 0)
      = BitVec.ofNat 8 (0x60 + 2 * n + last.toNat) := by
  cases last <;> decide

/-- Settles O25, from the bytes of the field and the sum of its last byte. -/
theorem addressFieldEncoding : Obligations.AddressFieldEncoding := by
  refine ⟨addrBytes_eq, fun slot n last s hn hmask hssid => ?_⟩
  rw [addrBytes_eq, hmask, hssid, ssidByte_canonical last n hn]
  rfl

/-! ## The frame check accumulator (30 R115) -/

/-- The accumulator after a bit, from what it was with the bit in its lowest place: shifted, and fed back when that
place holds a 1. -/
def crcShift (x : BitVec 16) : BitVec 16 := x >>> 1 ^^^ (if x.getLsbD 0 then 0x8408#16 else 0#16)

theorem crcBit_eq (c : BitVec 16) (v : Bool) : crcBit c v = crcShift (c ^^^ (BitVec.ofBool v).setWidth 16) := by
  rw [crcBit, crcShift]
  by_cases hlsb : (c ^^^ (BitVec.ofBool v).setWidth 16).getLsbD 0
  · rw [if_pos hlsb, if_pos hlsb]
  · rw [if_neg hlsb, if_neg hlsb, BitVec.xor_zero]

theorem crcShift_xor (x y : BitVec 16) : crcShift (x ^^^ y) = crcShift x ^^^ crcShift y := by
  have hfeed : ∀ p q : Bool, (if (p ^^ q) then 0x8408#16 else 0#16)
      = (if p then 0x8408#16 else 0#16) ^^^ (if q then 0x8408#16 else 0#16) := by decide
  rw [crcShift, BitVec.getLsbD_xor, hfeed, BitVec.ushiftRight_xor_distrib, crcShift, crcShift]
  ac_rfl

/-- The accumulator is linear in its value and the bit. -/
theorem crcBit_xor (c d : BitVec 16) (v w : Bool) : crcBit (c ^^^ d) (v ^^ w) = crcBit c v ^^^ crcBit d w := by
  have hbit : (BitVec.ofBool (v ^^ w)).setWidth 16
      = (BitVec.ofBool v).setWidth 16 ^^^ (BitVec.ofBool w).setWidth 16 := by
    cases v <;> cases w <;> rfl
  rw [crcBit_eq, crcBit_eq, crcBit_eq, ← crcShift_xor, hbit]
  ac_rfl

/-- The accumulator's own lowest bit feeds nothing back. -/
theorem crcBit_lsb (c : BitVec 16) : crcBit c (c.getLsbD 0) = c >>> 1 := by
  have hlsb : (c ^^^ (BitVec.ofBool (c.getLsbD 0)).setWidth 16).getLsbD 0 = false := by simp
  rw [crcBit_eq, crcShift, hlsb]
  ext k
  simp

/-- Fed the complement of its own value, the accumulator shifts that value out, and beside it does what it does from 0
fed ones. -/
theorem crcOver_complement (c : BitVec 16) : ∀ n ≤ 16,
    crcOver c ((List.range n).map (~~~c).getLsbD) = c >>> n ^^^ crcOver 0 (List.replicate n true)
  | 0, _ => by simp [crcOver]
  | n + 1, hn => by
    have hbit : (~~~c).getLsbD n = ((c >>> n).getLsbD 0 ^^ true) := by
      have : n < 16 := by omega
      simp [this]
    calc crcOver c ((List.range (n + 1)).map (~~~c).getLsbD)
        = crcBit (crcOver c ((List.range n).map (~~~c).getLsbD)) ((~~~c).getLsbD n) := by
          rw [List.range_succ, List.map_append, crcOver_append]; rfl
      _ = crcBit (c >>> n) ((c >>> n).getLsbD 0) ^^^ crcBit (crcOver 0 (List.replicate n true)) true := by
          rw [crcOver_complement c n (by omega), hbit, crcBit_xor]
      _ = c >>> (n + 1) ^^^ crcOver 0 (List.replicate (n + 1) true) := by
          rw [crcBit_lsb, ← BitVec.shiftRight_add, List.replicate_succ', crcOver_append]; rfl

/-- The two check bytes hold the complement of the accumulator, lowest bit first. -/
theorem bitsOf_fcsBytes (c : BitVec 16) : bitsOf (fcsBytes c) = (List.range 16).map (~~~c).getLsbD := by
  have hlow : byteBits (lowByte (fcsOf c)) = (List.range 8).map (~~~c).getLsbD :=
    List.map_congr_left fun k hk => by
      have : k < 8 := List.mem_range.1 hk
      simp [lowByte, fcsOf, this]
  have hhigh : byteBits (highByte (fcsOf c)) = (List.range 8).map fun k => (~~~c).getLsbD (8 + k) :=
    List.map_congr_left fun k hk => by
      have : k < 8 := List.mem_range.1 hk
      simp [highByte, fcsOf, this]
  rw [fcsBytes, bitsOf_cons, bitsOf_cons, hlow, hhigh]
  rfl

/-- The residue: after its check sequence the accumulator is 0xF0B8, whatever it was before (30 R115). -/
theorem crcOver_fcsBytes (c : BitVec 16) : crcOver c (bitsOf (fcsBytes c)) = 0xF0B8 := by
  have hout : c >>> 16 = 0 := BitVec.ushiftRight_eq_zero le_rfl
  rw [bitsOf_fcsBytes, crcOver_complement c 16 le_rfl, hout]
  decide +kernel

/-! ## The length of a stuffed sequence -/

theorem length_le_stuff_length (n : Nat) (v : List Bool) : v.length ≤ (stuff n v).length := by
  fun_induction stuff n v <;> simp <;> omega

/-- At most one bit is inserted for every five, the run before the sequence counted. -/
theorem stuff_length_le (n : Nat) (v : List Bool) (hn : n ≤ 4) : 5 * (stuff n v).length ≤ 6 * v.length + n := by
  fun_induction stuff n v <;> simp <;> omega

/-! ## The bits of a built frame (30 R113) -/

/-- The data bytes of a frame and the two bytes of its check sequence (30 R113, R115). -/
def sentBytes (s : State) : List Byte := frameBytes s ++ fcsBytes (crcOver crcInit (bitsOf (frameBytes s)))

/-- The bits of a frame, first bit first (30 R113). -/
def frameBits (s : State) : List Bool :=
  (List.replicate s.cfg.nSync (byteBits 0x00)).flatten ++ (List.replicate s.cfg.nPreflag flagBits).flatten
    ++ stuff 0 (bitsOf (sentBytes s)) ++ (List.replicate s.cfg.nPostflag flagBits).flatten

theorem zeroBytes_bits (n : Nat) : (List.replicate n (byteBits 0x00)).flatten = List.replicate (8 * n) false := by
  have hzero : byteBits 0x00 = List.replicate 8 false := by decide
  rw [hzero, List.flatten_replicate_replicate, mul_comm]

theorem pathBytes_length (s : State) : (pathBytes s).length = 7 * s.bsf.pathcount.toNat := by
  simp [pathBytes, List.length_flatMap, addrBytes_length, mul_comm]

theorem frameBytes_length (s : State) :
    (frameBytes s).length = 7 * (2 + s.bsf.pathcount.toNat) + 2 + s.bsf.msglen.toNat := by
  simp only [frameBytes, List.length_append, addrBytes_length, pathBytes_length, loadMany_length, List.length_cons,
    List.length_nil]
  omega

theorem sentBytes_length (s : State) : (sentBytes s).length = (frameBytes s).length + 2 := List.length_append

theorem frameBits_length (s : State) : (frameBits s).length
    = 8 * (s.cfg.nSync + s.cfg.nPreflag + s.cfg.nPostflag) + (stuff 0 (bitsOf (sentBytes s))).length := by
  have hraw : ∀ n (v : List Bool), v.length = 8 → (List.replicate n v).flatten.length = 8 * n := fun n v hv => by
    simp [hv, mul_comm]
  simp only [frameBits, List.length_append, hraw _ _ (byteBits_length _), hraw _ flagBits rfl]
  omega

/-- How many bits are stuffed into a frame: at most one for every five bits of the data and the check sequence. -/
theorem stuff_sentBytes_length (s : State) : ∃ k ≤ 8 * ((frameBytes s).length + 2) / 5,
    (stuff 0 (bitsOf (sentBytes s))).length = 8 * ((frameBytes s).length + 2) + k := by
  have hmin := length_le_stuff_length 0 (bitsOf (sentBytes s))
  have hmax := stuff_length_le 0 (bitsOf (sentBytes s)) (by omega)
  rw [bitsOf_length, sentBytes_length] at hmin hmax
  exact ⟨(stuff 0 (bitsOf (sentBytes s))).length - 8 * ((frameBytes s).length + 2), by omega, by omega⟩

/-- A well-formed configuration has room for every frame (92 D8). -/
theorem frameBits_fit {s : State} (h : Inv s) : (frameBits s).length ≤ s.cfg.bitCap := by
  have hroom : 8 * (s.cfg.nSync + s.cfg.nPreflag + s.cfg.nPostflag) + s.cfg.worstDataBits + s.cfg.worstDataBits / 5
      ≤ s.cfg.bitCap := by
    have hcfg := h.cfg
    simp_all [Config.wf, Config.bitCapOk]
  obtain ⟨k, hk, hlen⟩ := stuff_sentBytes_length s
  have hbytes := frameBytes_length s
  have hpath := h.bsf.pathcount_le
  have hmsg := h.bsf.msglen_le
  simp only [Config.worstDataBits] at hroom
  rw [frameBits_length, hlen]
  omega

/-! ## BSF.BUILD as one run of appends (40 R150) -/

theorem addBytes_append (cap : Nat) (b : Bsf) (xs ys : List Byte) :
    addBytes cap b (xs ++ ys) = addBytes cap (addBytes cap b xs) ys := List.foldl_append

@[simp] theorem appendAll_crc (cap : Nat) (b : Bsf) (v : List Bool) : (appendAll cap b v).crc = b.crc := by
  induction v generalizing b with
  | nil => rfl
  | cons x v ih => rw [appendAll_cons, ih, append_crc]

@[simp] theorem appendAll_ones (cap : Nat) (b : Bsf) (v : List Bool) : (appendAll cap b v).ones = b.ones := by
  induction v generalizing b with
  | nil => rfl
  | cons x v ih => rw [appendAll_cons, ih, append_ones]

/-- Data bytes and the check sequence latched after them: one run of appends, which ends at the residue (30 R115). -/
theorem addBytes_fcsBytes {cap : Nat} {b : Bsf} (xs : List Byte) (hcrc : b.crc = crcInit) (hones : b.ones = 0) :
    addBytes cap (addBytes cap b xs) (fcsBytes (addBytes cap b xs).crc) =
      { appendAll cap b (stuff 0 (bitsOf (xs ++ fcsBytes (crcOver crcInit (bitsOf xs))))) with
        crc := 0xF0B8
        ones := BitVec.ofNat 3 (runAfter 0 (bitsOf (xs ++ fcsBytes (crcOver crcInit (bitsOf xs))))) } := by
  have hle : b.ones.toNat ≤ 4 := by simp [hones]
  have hlatched : (addBytes cap b xs).crc = crcOver crcInit (bitsOf xs) := by rw [addBytes_eq _ _ _ hle, hcrc]
  have hresidue : crcOver crcInit (bitsOf (xs ++ fcsBytes (crcOver crcInit (bitsOf xs)))) = 0xF0B8 := by
    rw [bitsOf_append, crcOver_append, crcOver_fcsBytes]
  rw [hlatched, ← addBytes_append, addBytes_eq _ _ _ hle, hcrc, hresidue, hones]
  rfl

/-- The bits of the frame are appended to the cleared sequence; the accumulator and the run length are those of its data
and its check sequence. -/
theorem buildFrame_eq (s : State) (b : Bsf) : buildFrame s b =
    { appendAll s.cfg.bitCap (bsfClear b) (frameBits s) with
      crc := 0xF0B8, ones := BitVec.ofNat 3 (runAfter 0 (bitsOf (sentBytes s))) } := by
  simp only [buildFrame, rawBytes_eq, byteBits_flag]
  rw [addBytes_fcsBytes (frameBytes s) (by simp [bsfClear]) (by simp [bsfClear]), appendAll_with]
  simp only [frameBits, appendAll_append, sentBytes]

/-- A sequence is read off its cells. -/
theorem bitSequence_eq {s : State} {v : List Bool} (hlen : s.bsf.bitlen.toNat = v.length)
    (hcell : ∀ k, k < v.length → cellGet s.bsf.bits k = v[k]?) : bitSequence s = v := by
  refine List.ext_getElem (by simp [bitSequence, hlen]) fun k _ hk => ?_
  simp [bitSequence, loadBit, hcell k hk, hk]

/-- The unit after a frame that fits: its bits in the memory, no overflow, and the operands as they were. -/
theorem buildFrame_fits {s : State} (h : Inv s) :
    (buildFrame s s.bsf).bitlen.toNat = (frameBits s).length
      ∧ (∀ k, k < (frameBits s).length → cellGet (buildFrame s s.bsf).bits k = (frameBits s)[k]?)
      ∧ buildFrame s s.bsf = { s.bsf with
          bits := (buildFrame s s.bsf).bits, bitlen := (buildFrame s s.bsf).bitlen, crc := 0xF0B8
          ones := (buildFrame s s.bsf).ones, ovf := false } := by
  have hfit := frameBits_fit h
  have hempty : (bsfClear s.bsf).bitlen.toNat = 0 := rfl
  obtain ⟨hlen, hcell, hrest⟩ :=
    appendAll_spec s.cfg.bitCap (bsfClear s.bsf) (frameBits s) (bitCap_le h.cfg) (by omega)
  simp only [hempty, Nat.zero_add, Nat.min_eq_right hfit, Nat.sub_zero, Nat.zero_le, true_and] at hlen hcell hrest
  rw [buildFrame_eq]
  refine ⟨hlen, fun k hk => (hcell k).trans (if_pos hk), ?_⟩
  rw [hrest]
  simp [bsfClear, hfit]

/-- BSF.BUILD while Idle: the frame fits, so it is answered with its length (40 R150). -/
theorem exec_bsfBuild_idle {s : State} (h : Inv s) (hidle : s.afsk.state = .idle) :
    exec .bsfBuild s = .next (answer (buildFrame s s.bsf).bitlen { s with bsf := buildFrame s s.bsf }) := by
  obtain ⟨_, _, hrest⟩ := buildFrame_fits h
  have hovf : (buildFrame s s.bsf).ovf = false := by rw [hrest]
  show execBsfBuild s = _
  simp [execBsfBuild, hidle, hovf]

/-- Settles O29, from BSF.BUILD as one run of appends, of which a well-formed configuration holds every bit. -/
theorem builtFrameHasTheFrameLayout : Obligations.BuiltFrameHasTheFrameLayout := by
  intro s h hidle
  obtain ⟨hlen, hcell, hrest⟩ := buildFrame_fits h
  obtain ⟨k, hk, hstuffed⟩ := stuff_sentBytes_length s
  refine ⟨_, frameBytes s, ~~~crcOver 0xFFFF (bitsOf (frameBytes s)), exec_bsfBuild_idle h hidle, rfl, rfl, ?sequence,
    ⟨k, hk, ?number⟩, frameBytes_length s, ?frame⟩
  case sequence =>
    rw [bitSequence_eq (v := frameBits s) hlen hcell, frameBits, zeroBytes_bits]
    rfl
  case number =>
    rw [frameBits_length, hstuffed, ← Nat.add_assoc] at hlen
    exact hlen
  case frame =>
    exact congrArg (fun b => { s with bsf := b, resp := { status := .ok, value := (buildFrame s s.bsf).bitlen } }) hrest

end Sys2Proof.Machine
end

section
/-! SUPPORT. Unit BSF as its host sees it: the reset of the sequence, the operand stores and the loads (40 R144, R151 to
R159). -/

namespace Sys2Proof.Machine

/-! ## BSF.RST (40 R144) -/

theorem exec_bsfRst_idle {s : State} (hidle : s.afsk.state = .idle) :
    exec .bsfRst s = .next (answer 0 { s with bsf := bsfClear s.bsf }) := by
  show execBsfRst s = _
  rw [execBsfRst, hidle]

theorem exec_bsfRst_busy {s : State} (hbusy : s.afsk.state = .transmitting) :
    exec .bsfRst s = .next (raise .busy s) := by
  show execBsfRst s = _
  rw [execBsfRst, hbusy]

/-- Settles O22, by the state of the modulator. -/
theorem bsfRstResetsTheSequence : Obligations.BsfRstResetsTheSequence :=
  ⟨fun a b => ⟨decode_bsf 0 a b, rfl⟩, fun _ hbusy => exec_bsfRst_busy hbusy, fun _ hidle => exec_bsfRst_idle hidle⟩

/-! ## The cells that an operand names -/

/-- The slots and bytes that exist: seven bytes a slot (40 R151). -/
theorem slotInRange_iff (c : Config) (slot : BitVec 5) (k : BitVec 3) :
    slotInRange c slot k = true ↔ slot.toNat ≤ 1 + c.maxPath ∧ k.toNat ≠ 7 := by
  rw [slotInRange, Bool.and_eq_true, decide_eq_true_iff, decide_eq_true_iff]

/-- The slots and bytes that do not. -/
theorem not_slotInRange {c : Config} {slot : BitVec 5} {k : BitVec 3}
    (h : 1 + c.maxPath < slot.toNat ∨ k.toNat = 7) : ¬ slotInRange c slot k = true := by
  rw [slotInRange_iff]
  omega

/-- A store, answered, writes its one cell (20 R75). -/
theorem writesOneCell_store (sp : Space) (a : Nat) (x : Byte) (s : State) :
    WritesOneCell sp a x s (answer 0 (store sp a x s)) := by
  refine ⟨?_, fun sp' a' hother => ?_, fun k => ?_⟩
  · rw [load_answer, load_store, if_pos ⟨rfl, rfl⟩]
  · rw [load_answer, load_store, if_neg hother]
  · rw [loadBit_answer, loadBit_store]

/-- A store, answered, writes no register. -/
theorem registers_store (sp : Space) (a : Nat) (x : Byte) (s : State) :
    registers (answer 0 (store sp a x s)) = registers (answer 0 s) := by
  cases sp <;> rfl

/-! ## Operand stores (40 R151 to R154) -/

/-- Settles O32, operation by operation. -/
theorem bsfOperandStores : Obligations.BsfOperandStores := by
  refine ⟨fun a b => ⟨decode_bsf 7 a b, rfl⟩, fun a b => ⟨decode_bsf 8 a b, rfl⟩,
    fun a b => ⟨decode_bsf 9 a b, rfl⟩, fun a b => ⟨decode_bsf 10 a b, rfl⟩, ?waddr, ?wmsg, ?setlen, ?setpath⟩
  case waddr =>
    intro slot k b s
    exact ⟨fun h => ⟨_, congrArg Host.Outcome.next (if_pos ((slotInRange_iff ..).2 h)),
      writesOneCell_store .addr _ b s, registers_store .addr _ b s⟩,
      fun h => congrArg Host.Outcome.next (if_neg (not_slotInRange h))⟩
  case wmsg =>
    intro k b s
    exact ⟨_, rfl, writesOneCell_store .msg _ b s, registers_store .msg _ b s⟩
  case setlen =>
    intro n s
    exact ⟨fun h => congrArg Host.Outcome.next (if_neg (Nat.not_lt.2 h)), fun h => congrArg Host.Outcome.next (if_pos h)⟩
  case setpath =>
    intro n s
    rw [BitVec.ofNat_toNat]
    exact ⟨fun h => congrArg Host.Outcome.next (if_neg (Nat.not_lt.2 h)), fun h => congrArg Host.Outcome.next (if_pos h)⟩

/-! ## Loads (40 R155 to R159) -/

/-- A bit as a value is 1 or 0. -/
theorem bitValue_eq (v : Bool) : bitValue v = if v then 1 else 0 := by cases v <;> rfl

/-- Settles O33, operation by operation. -/
theorem bsfLoads : Obligations.BsfLoads := by
  refine ⟨fun a b => ⟨decode_bsf 11 a b, rfl⟩, fun a b => ⟨decode_bsf 12 a b, rfl⟩,
    fun a b => ⟨decode_bsf 13 a b, rfl⟩, fun a b => ⟨decode_bsf 14 a b, rfl⟩, fun a b => ⟨decode_bsf 15 a b, rfl⟩,
    fun s => ⟨?rbit, rfl, rfl, ?raddr, fun _ => rfl⟩⟩
  case rbit =>
    intro k
    rw [← bitValue_eq]
    exact ⟨fun h => congrArg Host.Outcome.next (if_neg (Nat.not_le.2 h)), fun h => congrArg Host.Outcome.next (if_pos h)⟩
  case raddr =>
    intro slot k
    exact ⟨fun h => congrArg Host.Outcome.next (if_pos ((slotInRange_iff ..).2 h)),
      fun h => congrArg Host.Outcome.next (if_neg (not_slotInRange h))⟩

end Sys2Proof.Machine
end

section
/-! SUPPORT. What a bit-writing operation sends (40 R141 to R143): said once for every operation whose body is a run of
appends, and read off that for BSF.SYNC, FLAG, BYTE, ADDR and FCS. -/

namespace Sys2Proof.Machine

/-! ## The sequence after a run of appends -/

theorem bitSequence_length (s : State) : (bitSequence s).length = s.bsf.bitlen.toNat := by
  simp [bitSequence]

/-- Unit BSF after a run of appends that starts with the overflow flag cleared, as a bit-writing operation does. -/
def appended (v : List Bool) (s : State) : Bsf := appendAll s.cfg.bitCap { s.bsf with ovf := false } v

/-- The length, the cells and the rest of the unit (40 R141). -/
theorem appended_spec {s : State} (h : Inv s) (v : List Bool) :
    (appended v s).bitlen.toNat = min s.cfg.bitCap (s.bsf.bitlen.toNat + v.length)
      ∧ (∀ k, cellGet (appended v s).bits k =
          if s.bsf.bitlen.toNat ≤ k ∧ k < min s.cfg.bitCap (s.bsf.bitlen.toNat + v.length) then
            v[k - s.bsf.bitlen.toNat]?
          else cellGet s.bsf.bits k)
      ∧ appended v s = { s.bsf with
          bits := (appended v s).bits, bitlen := (appended v s).bitlen
          ovf := decide (s.cfg.bitCap < s.bsf.bitlen.toNat + v.length) } :=
  appendAll_spec _ _ _ (bitCap_le h.cfg) h.bsf.bitlen_le

/-- `t` has the bit memory and the length that appending `v` in `s` leaves; of its other registers nothing is said. -/
structure HasAppended (v : List Bool) (s t : State) : Prop where
  bits : t.bsf.bits = (appended v s).bits := by rfl
  bitlen : t.bsf.bitlen = (appended v s).bitlen := by rfl
  epoch : t.epoch = s.epoch := by rfl

namespace HasAppended

variable {v : List Bool} {s t : State}

theorem bitlen_toNat (ht : HasAppended v s t) (h : Inv s) :
    t.bsf.bitlen.toNat = min s.cfg.bitCap (s.bsf.bitlen.toNat + v.length) := by
  rw [ht.bitlen, (appended_spec h v).1]

/-- Outside what is appended every bit reads as before. -/
theorem loadBit_old (ht : HasAppended v s t) (h : Inv s) {k : Nat}
    (hk : k < s.bsf.bitlen.toNat ∨ min s.cfg.bitCap (s.bsf.bitlen.toNat + v.length) ≤ k) :
    loadBit k t = loadBit k s := by
  obtain ⟨-, hcell, -⟩ := appended_spec h v
  rw [loadBit, ht.bits, hcell, if_neg (by omega), ht.epoch, loadBit]

theorem loadBit_new (ht : HasAppended v s t) (h : Inv s) {k : Nat} (hk : k < v.length)
    (hroom : s.bsf.bitlen.toNat + k < s.cfg.bitCap) : loadBit (s.bsf.bitlen.toNat + k) t = v[k] := by
  obtain ⟨-, hcell, -⟩ := appended_spec h v
  rw [loadBit, ht.bits, hcell, if_pos (by omega), Nat.add_sub_cancel_left, List.getElem?_eq_getElem hk]
  rfl

/-- The sequence is what it was and what is appended, as far as the memory has room. -/
theorem bitSequence_eq_take (ht : HasAppended v s t) (h : Inv s) :
    bitSequence t = (bitSequence s ++ v).take s.cfg.bitCap := by
  have hlen := ht.bitlen_toNat h
  refine List.ext_getElem (by simp [bitSequence_length, hlen]) fun k hk hk' => ?_
  rw [bitSequence_length] at hk
  rw [List.getElem_take]
  rcases Nat.lt_or_ge k s.bsf.bitlen.toNat with hold | hnew
  · simp [bitSequence, hold, ht.loadBit_old h (.inl hold)]
  · obtain ⟨j, rfl⟩ := Nat.exists_eq_add_of_le hnew
    simp [bitSequence, ht.loadBit_new h (k := j) (by omega) (by omega)]

end HasAppended

/-! ## A bit-writing operation while Idle -/

/-- The state with `v` appended as far as it fits, and the rest of the bit registers as given. -/
def sent (v : List Bool) (crc : BitVec 16) (ones : Nat) (ovf : Bool) (s : State) : State :=
  { s with bsf := { s.bsf with
      bits := (appended v s).bits, bitlen := (appended v s).bitlen, crc := crc, ones := BitVec.ofNat 3 ones
      ovf := ovf } }

/-- A body that appends `v` and sets the accumulator and the run length. -/
def SetsTo (body : Bsf → Bsf) (v : List Bool) (crc : BitVec 16) (ones : Nat) (s : State) : Prop :=
  body { s.bsf with ovf := false } = { appended v s with crc := crc, ones := BitVec.ofNat 3 ones }

/-- A bit-writing operation refuses with OVF when what its body appends does not fit, and keeps what did (40 R141). -/
theorem bitWriting_sent {s : State} {body : Bsf → Bsf} {v : List Bool} {crc : BitVec 16} {ones : Nat} (h : Inv s)
    (hidle : s.afsk.state = .idle) (hbody : SetsTo body v crc ones s) (value : Value) :
    bitWriting body (fun _ => value) s =
      if s.cfg.bitCap < s.bsf.bitlen.toNat + v.length then raise .ovf (sent v crc ones true s)
      else answer value (sent v crc ones s.bsf.ovf s) := by
  obtain ⟨-, -, hrest⟩ := appended_spec h v
  rw [bitWriting_idle hidle, hbody, hrest]
  by_cases hover : s.cfg.bitCap < s.bsf.bitlen.toNat + v.length <;> simp [hover, sent]

/-- An operation with such a body sends `v`. -/
theorem sendsBits_of_setsTo {i : Instr} {s : State} {body : Bsf → Bsf} {v : List Bool} {crc : BitVec 16} {ones : Nat}
    {value : Value} (h : Inv s) (hidle : s.afsk.state = .idle)
    (hexec : exec i s = .next (bitWriting body (fun _ => value) s)) (hbody : SetsTo body v crc ones s) :
    SendsBits i v crc ones value s := by
  rw [bitWriting_sent h hidle hbody] at hexec
  constructor
  · intro hfit
    have ht : HasAppended v s (answer value (sent v crc ones s.bsf.ovf s)) := {}
    refine ⟨_, hexec.trans (congrArg Host.Outcome.next (if_neg (Nat.not_lt.2 hfit))), ?_, ?_, ?_, rfl⟩
    · rw [ht.bitSequence_eq_take h, List.take_of_length_le (by simpa [bitSequence_length])]
    · rw [ht.bitlen_toNat h, Nat.min_eq_right hfit]
    · exact fun k hk => ht.loadBit_old h (by omega)
  · intro hover
    have ht : HasAppended v s (raise .ovf (sent v crc ones true s)) := {}
    refine ⟨_, hexec.trans (congrArg Host.Outcome.next (if_pos hover)), ht.bitSequence_eq_take h, ?_, ?_, rfl⟩
    · rw [ht.bitlen_toNat h, Nat.min_eq_left hover.le]
    · exact fun k hk => ht.loadBit_old h (by omega)

/-- The body of an operation that sends bytes through `addByte` (40 R142). -/
theorem addBytes_setsTo {s : State} (h : Inv s) (xs : List Byte) :
    SetsTo (fun b => addBytes s.cfg.bitCap b xs) (stuff s.bsf.ones.toNat (bitsOf xs)) (crcOver s.bsf.crc (bitsOf xs))
      (runAfter s.bsf.ones.toNat (bitsOf xs)) s :=
  addBytes_eq _ _ xs h.bsf.ones_le

/-- The body of an operation that sends a byte as it is (40 R143). -/
theorem rawByte_setsTo (s : State) (x : Byte) :
    SetsTo (fun b => rawByte s.cfg.bitCap b x) (byteBits x) s.bsf.crc s.bsf.ones.toNat s := by
  have hcrc : (appended (byteBits x) s).crc = s.bsf.crc := appendAll_crc ..
  have hones : (appended (byteBits x) s).ones = s.bsf.ones := appendAll_ones ..
  rw [SetsTo, BitVec.ofNat_toNat, BitVec.setWidth_eq, ← hcrc, ← hones]
  rfl

/-! ## The operations -/

/-- Settles O23: both bytes go through `rawByte`. -/
theorem syncAndFlagAppendRawBits : Obligations.SyncAndFlagAppendRawBits :=
  ⟨fun a b => ⟨decode_bsf 1 a b, rfl⟩, fun a b => ⟨decode_bsf 2 a b, rfl⟩,
    fun _ hbusy =>
      ⟨congrArg Host.Outcome.next (bitWriting_busy hbusy), congrArg Host.Outcome.next (bitWriting_busy hbusy)⟩,
    fun s h hidle => ⟨sendsBits_of_setsTo h hidle rfl (rawByte_setsTo s 0x00),
      sendsBits_of_setsTo h hidle rfl (rawByte_setsTo s flagByteValue)⟩⟩

/-- What BSF.BYTE sends (40 R147). -/
theorem sendsBits_bsfByte {s : State} (h : Inv s) (hidle : s.afsk.state = .idle) (x : Byte) :
    SendsBits (.bsfByte x) (stuff s.bsf.ones.toNat (bitsOf [x])) (crcOver s.bsf.crc (bitsOf [x]))
      (runAfter s.bsf.ones.toNat (bitsOf [x])) 0 s :=
  sendsBits_of_setsTo h hidle rfl (addBytes_setsTo h [x])

/-- Settles O24: the byte goes through `addByte`. -/
theorem byteAppendsStuffedBits : Obligations.ByteAppendsStuffedBits :=
  ⟨fun a b => ⟨decode_bsf 3 a b, rfl⟩, fun _ _ hbusy => congrArg Host.Outcome.next (bitWriting_busy hbusy),
    fun x _ h hidle => sendsBits_bsfByte h hidle x⟩

/-- An address slot that exists passes the first test of BSF.ADDR (40 R148). -/
theorem exec_bsfAddr {slot : BitVec 8} {s : State} (hslot : slot.toNat ≤ 1 + s.cfg.maxPath) (last : Bool) :
    exec (.bsfAddr slot last) s =
      .next (bitWriting (fun b => addBytes s.cfg.bitCap b (addrBytes slot.toNat last s)) (fun _ => 0) s) :=
  congrArg Host.Outcome.next (if_neg (Nat.not_lt.2 hslot))

/-- Settles O26: RANGE is the first test, BUSY the second, and the seven bytes go through `addByte`. -/
theorem addrAppendsTheAddressField : Obligations.AddrAppendsTheAddressField :=
  ⟨fun a b => ⟨decode_bsf 4 a b, rfl⟩, fun _ _ _ hslot => congrArg Host.Outcome.next (if_pos hslot),
    fun _ last _ hslot hbusy => (exec_bsfAddr hslot last).trans (congrArg Host.Outcome.next (bitWriting_busy hbusy)),
    fun _ last _ h hslot hidle => sendsBits_of_setsTo h hidle (exec_bsfAddr hslot last) (addBytes_setsTo h _)⟩

/-- The body of BSF.FCS: the check sequence is latched before it is sent, and leaves the residue (40 R149). -/
theorem fcsBytes_setsTo {s : State} (h : Inv s) :
    SetsTo (fun b => addBytes s.cfg.bitCap b (fcsBytes b.crc)) (stuff s.bsf.ones.toNat (bitsOf (fcsBytes s.bsf.crc)))
      0xF0B8 (runAfter s.bsf.ones.toNat (bitsOf (fcsBytes s.bsf.crc))) s := by
  have hlatched := addBytes_setsTo h (fcsBytes s.bsf.crc)
  rw [SetsTo, crcOver_fcsBytes] at hlatched
  rw [SetsTo]
  exact hlatched

/-- Settles O27: the two bytes of the check sequence go through `addByte`. -/
theorem fcsAppendsTheCheckSequence : Obligations.FcsAppendsTheCheckSequence :=
  ⟨fun a b => ⟨decode_bsf 5 a b, rfl⟩, fun _ hbusy => congrArg Host.Outcome.next (bitWriting_busy hbusy),
    fun _ h hidle => sendsBits_of_setsTo h hidle rfl (fcsBytes_setsTo h)⟩

end Sys2Proof.Machine
end

section
/-! SUPPORT. BSF.BUILD as the sequence of the other operations (40 R150): a run of operations carries out a function on
unit BSF, and runs one after the other carry out its composition. -/

namespace Sys2Proof.Machine

/-! ## Runs -/

theorem runOps_append (is js : List Instr) (s : State) : runOps (is ++ js) s = (runOps is s).bind (runOps js) := by
  induction is generalizing s with
  | nil => rfl
  | cons i is ih =>
    rw [List.cons_append, runOps, runOps]
    split
    · exact ih _
    · rfl
    · rfl

/-! ## What appends keep -/

/-- A change of unit BSF that leaves the addresses alone and does not clear the overflow flag. -/
structure KeepsAddr (f : Bsf → Bsf) : Prop where
  addr : ∀ b, (f b).addr = b.addr
  no_ovf_before : ∀ b, (f b).ovf = false → b.ovf = false

namespace KeepsAddr

variable {f g : Bsf → Bsf}

theorem id : KeepsAddr fun b => b := ⟨fun _ => rfl, fun _ h => h⟩

theorem comp (hg : KeepsAddr g) (hf : KeepsAddr f) : KeepsAddr fun b => g (f b) where
  addr b := (hg.addr (f b)).trans (hf.addr b)
  no_ovf_before b h := hf.no_ovf_before b (hg.no_ovf_before (f b) h)

theorem foldl {α : Type} {f : Bsf → α → Bsf} (xs : List α) (hf : ∀ x, KeepsAddr fun b => f b x) :
    KeepsAddr fun b => xs.foldl f b := by
  induction xs with
  | nil => exact id
  | cons x xs ih => exact ih.comp (hf x)

theorem append (cap : Nat) (v : Bool) : KeepsAddr fun b => append cap b v where
  addr b := by simp only [Machine.append]; split <;> rfl
  no_ovf_before b h := by
    simp only [Machine.append] at h
    split at h
    · exact h
    · exact absurd h nofun

theorem addBit (cap : Nat) (v : Bool) : KeepsAddr fun b => addBit cap b v where
  addr b := by
    simp only [Machine.addBit]
    split_ifs <;> simp only [(append cap _).addr]
  no_ovf_before b h := by
    simp only [Machine.addBit] at h
    split_ifs at h
    · have hfifth := (append cap false).no_ovf_before _ h
      exact (append cap v).no_ovf_before b hfifth
    · exact (append cap v).no_ovf_before b h
    · exact (append cap v).no_ovf_before b h

theorem rawByte (cap : Nat) (x : Byte) : KeepsAddr fun b => rawByte cap b x := foldl _ (append cap)

theorem addBytes (cap : Nat) (xs : List Byte) : KeepsAddr fun b => addBytes cap b xs :=
  foldl xs fun x => foldl (byteBits x) (addBit cap)

end KeepsAddr

/-! ## Runs of bit-writing operations -/

/-- In any state that is `s` but for the response and for unit BSF, in which it has the addresses of `s`, the operations
do `f` to that unit and nothing else but answer, if nothing overflows. -/
structure Carries (s : State) (is : List Instr) (f : Bsf → Bsf) : Prop where
  keeps : KeepsAddr f
  run : ∀ b r, b.addr = s.bsf.addr → (f b).ovf = false →
    ∃ r', runOps is { s with bsf := b, resp := r } = some { s with bsf := f b, resp := r' }

namespace Carries

variable {s : State} {is js : List Instr} {f g : Bsf → Bsf}

theorem nil : Carries s [] fun b => b := ⟨.id, fun _ r _ _ => ⟨r, rfl⟩⟩

/-- One run after the other. -/
theorem append (hf : Carries s is f) (hg : Carries s js g) : Carries s (is ++ js) fun b => g (f b) where
  keeps := hg.keeps.comp hf.keeps
  run b r haddr hovf := by
    obtain ⟨r', hrun⟩ := hf.run b r haddr (hg.keeps.no_ovf_before _ hovf)
    obtain ⟨r'', hrun'⟩ := hg.run (f b) r' ((hf.keeps.addr b).trans haddr) hovf
    exact ⟨r'', by rw [runOps_append, hrun, Option.bind_some, hrun']⟩

/-- One operation for each element of a list. -/
theorem map {α : Type} {xs : List α} {i : α → Instr} {f : Bsf → α → Bsf}
    (hf : ∀ x ∈ xs, Carries s [i x] fun b => f b x) : Carries s (xs.map i) fun b => xs.foldl f b := by
  induction xs with
  | nil => exact nil
  | cons x xs ih => exact (hf x (by simp)).append (ih fun y hy => hf y (by simp [hy]))

/-- One bit-writing operation. -/
theorem bitWriting {i : Instr} (hidle : s.afsk.state = .idle) (hf : KeepsAddr f)
    (hexec : ∀ b r, b.addr = s.bsf.addr → ∃ value, exec i { s with bsf := b, resp := r } =
      .next (bitWriting f value { s with bsf := b, resp := r })) : Carries s [i] f where
  keeps := hf
  run b r haddr hovf := by
    have hovf' := hf.no_ovf_before b hovf
    have hbefore : { b with ovf := false } = b := by rw [← hovf']
    have hafter : { f b with ovf := false } = f b := by rw [← hovf]
    obtain ⟨value, hexec⟩ := hexec b r haddr
    rw [runOps, hexec, bitWriting_idle (s := { s with bsf := b, resp := r }) hidle]
    simp only [hbefore, hovf, hovf', Bool.or_false, Bool.false_eq_true, if_false, hafter]
    exact ⟨_, rfl⟩

/-- BSF.SYNC or BSF.FLAG, several times. -/
theorem rawBytes {i : Instr} {x : Byte} (hidle : s.afsk.state = .idle) (n : Nat)
    (hexec : ∀ u, exec i u = .next (Machine.bitWriting (fun b => rawByte u.cfg.bitCap b x) (fun _ => 0) u)) :
    Carries s (List.replicate n i) fun b => rawBytes s.cfg.bitCap b n x := by
  have hone : Carries s [i] fun b => rawByte s.cfg.bitCap b x :=
    bitWriting hidle (.rawByte _ x) fun _ _ _ => ⟨_, hexec _⟩
  rw [← List.map_replicate (f := fun _ => i) (a := x)]
  exact map fun y hy => List.eq_of_mem_replicate hy ▸ hone

/-- Operations that each send the bytes of one part of a frame send the frame. -/
theorem addBytes {α : Type} {xs : List α} {i : α → Instr} {bytes : α → List Byte}
    (h : ∀ x ∈ xs, Carries s [i x] fun b => addBytes s.cfg.bitCap b (bytes x)) :
    Carries s (xs.map i) fun b => addBytes s.cfg.bitCap b (xs.flatMap bytes) := by
  have hparts : ∀ b, Machine.addBytes s.cfg.bitCap b (xs.flatMap bytes)
      = xs.foldl (fun b x => Machine.addBytes s.cfg.bitCap b (bytes x)) b := fun b => List.foldl_flatMap
  simp only [hparts]
  exact map h

/-- The parts of a frame one after the other. -/
theorem addBytes_append {xs ys : List Byte} (hx : Carries s is fun b => Machine.addBytes s.cfg.bitCap b xs)
    (hy : Carries s js fun b => Machine.addBytes s.cfg.bitCap b ys) :
    Carries s (is ++ js) fun b => Machine.addBytes s.cfg.bitCap b (xs ++ ys) := by
  simp only [Machine.addBytes_append]
  exact hx.append hy

/-- BSF.BYTE -/
theorem bsfByte (hidle : s.afsk.state = .idle) (x : Byte) :
    Carries s [.bsfByte x] fun b => Machine.addBytes s.cfg.bitCap b [x] :=
  bitWriting hidle (.addBytes _ [x]) fun _ _ _ => ⟨_, rfl⟩

/-- BSF.ADDR of a slot that exists; the bytes it sends are those of the address memory, which no append writes. -/
theorem bsfAddr (hidle : s.afsk.state = .idle) {slot : BitVec 8} {k : Nat} (hk : slot.toNat = k)
    (hslot : k ≤ 1 + s.cfg.maxPath) (last : Bool) :
    Carries s [.bsfAddr slot last] fun b => Machine.addBytes s.cfg.bitCap b (addrBytes k last s) := by
  refine bitWriting hidle (.addBytes _ _) fun b r haddr => ⟨fun _ => 0, ?_⟩
  have hbytes : addrBytes k last { s with bsf := b, resp := r } = addrBytes k last s := by
    simp only [addrBytes, loadMany, load, State.cells, haddr]
  rw [exec_bsfAddr (s := { s with bsf := b, resp := r }) (hk.trans_le hslot), hk, hbytes]

/-- BSF.FCS -/
theorem bsfFcs (hidle : s.afsk.state = .idle) :
    Carries s [.bsfFcs] fun b => Machine.addBytes s.cfg.bitCap b (fcsBytes b.crc) :=
  bitWriting hidle ⟨fun b => (KeepsAddr.addBytes _ _).addr b, fun b => (KeepsAddr.addBytes _ _).no_ovf_before b⟩
    fun _ _ _ => ⟨_, rfl⟩

end Carries

/-! ## BSF.BUILD -/

/-- The operations of BSF.BUILD that send the data bytes of a frame (40 R150 steps 3 and 4). -/
def frameOps (s : State) : List Instr :=
  [Instr.bsfAddr 0 false, Instr.bsfAddr 1 (decide (s.bsf.pathcount = 0))]
    ++ (List.range s.bsf.pathcount.toNat).map
      (fun k => Instr.bsfAddr (BitVec.ofNat 8 (2 + k)) (decide (k + 1 = s.bsf.pathcount.toNat)))
    ++ [Instr.bsfByte 0x03, Instr.bsfByte 0xF0]
    ++ (loadMany .msg 0 s.bsf.msglen.toNat s).map Instr.bsfByte

/-- The path addresses: the slots that `bsf.pathcount` counts exist (10 R25). -/
theorem carries_path {s : State} (h : Inv s) (hidle : s.afsk.state = .idle) :
    Carries s ((List.range s.bsf.pathcount.toNat).map
        fun k => .bsfAddr (BitVec.ofNat 8 (2 + k)) (decide (k + 1 = s.bsf.pathcount.toNat)))
      fun b => addBytes s.cfg.bitCap b (pathBytes s) := by
  refine .addBytes fun k hk => ?_
  have hslot : 2 + k ≤ 1 + s.cfg.maxPath := by
    have := List.mem_range.1 hk
    have := h.bsf.pathcount_le
    omega
  have hsmall : 2 + k < 2 ^ 8 := by
    have := maxPath_le h.cfg
    omega
  exact .bsfAddr hidle (by rw [BitVec.toNat_ofNat, Nat.mod_eq_of_lt hsmall]) hslot _

/-- Each operation sends its part of the data bytes. -/
theorem carries_frameOps {s : State} (h : Inv s) (hidle : s.afsk.state = .idle) :
    Carries s (frameOps s) fun b => addBytes s.cfg.bitCap b (frameBytes s) := by
  have hdestination : Carries s [.bsfAddr 0 false] fun b => addBytes s.cfg.bitCap b (addrBytes 0 false s) :=
    .bsfAddr hidle rfl (Nat.zero_le _) _
  have hsource : Carries s [.bsfAddr 1 (decide (s.bsf.pathcount = 0))]
      fun b => addBytes s.cfg.bitCap b (addrBytes 1 (s.bsf.pathcount = 0) s) :=
    .bsfAddr hidle rfl (Nat.le_add_right 1 _) _
  have hcontrol : Carries s [.bsfByte 0x03, .bsfByte 0xF0] fun b => addBytes s.cfg.bitCap b [controlByte, pidByte] :=
    (Carries.bsfByte hidle controlByte).addBytes_append (.bsfByte hidle pidByte)
  have hmsg : Carries s ((loadMany .msg 0 s.bsf.msglen.toNat s).map .bsfByte)
      fun b => addBytes s.cfg.bitCap b (loadMany .msg 0 s.bsf.msglen.toNat s) := by
    simpa using Carries.addBytes (bytes := fun x => [x]) fun x _ => .bsfByte hidle x
  exact (((hdestination.addBytes_append hsource).addBytes_append (carries_path h hidle)).addBytes_append
    hcontrol).addBytes_append hmsg

/-- Settles O28: after BSF.RST the operations do what the body of BSF.BUILD does, and of a frame, which fits, nothing
overflows. -/
theorem buildIsItsSequenceOfOperations : Obligations.BuildIsItsSequenceOfOperations := by
  refine ⟨fun a b => ⟨decode_bsf 6 a b, rfl⟩, fun s hbusy => ?busy, fun s h hidle => ?idle⟩
  case busy =>
    show execBsfBuild s = _
    rw [execBsfBuild, hbusy]
  case idle =>
    have hovf : (buildFrame s s.bsf).ovf = false := by
      obtain ⟨-, -, hrest⟩ := buildFrame_fits h
      rw [hrest]
    have hsync := Carries.rawBytes (i := .bsfSync) hidle s.cfg.nSync fun _ => rfl
    have hpreflag := Carries.rawBytes (i := .bsfFlag) hidle s.cfg.nPreflag fun _ => rfl
    have hpostflag := Carries.rawBytes (i := .bsfFlag) hidle s.cfg.nPostflag fun _ => rfl
    have hafterRst := hsync.append <| hpreflag.append <| (carries_frameOps h hidle).append <|
      (Carries.bsfFcs hidle).append hpostflag
    obtain ⟨r, hrun⟩ := hafterRst.run (bsfClear s.bsf) { status := .ok, value := 0 } rfl hovf
    have hrst : runOps [.bsfRst] s = some (answer 0 { s with bsf := bsfClear s.bsf }) := by
      rw [runOps, exec_bsfRst_idle hidle]
      rfl
    refine ⟨{ s with bsf := buildFrame s s.bsf, resp := r }, ?_, exec_bsfBuild_idle h hidle⟩
    simp only [frameOps, List.append_assoc] at hrun
    simp only [List.append_assoc]
    rw [runOps_append, hrst]
    exact hrun

end Sys2Proof.Machine
end

section
/-! SUPPORT. Stuffing as a law of bit lists (40 R161): no six ones in a row, and a receiver undoes it. Read off that: the
bits that BSF.BYTE operations append, and the region between the flags of a built frame. -/

namespace Sys2Proof.Machine

/-! ## Stuffed bits -/

/-- What a receiver gets from stuffed bits is the bits (40 R161(b)). -/
theorem destuff_stuff (n : Nat) (v : List Bool) (hn : n ≤ 4) : destuff n (stuff n v) = v := by
  induction v generalizing n with
  | nil => rfl
  | cons x v ih =>
    have hlt : n ≠ 5 := by omega
    cases x with
    | false => simp [stuff, destuff, hlt, ih]
    | true =>
      by_cases hfour : n = 4
      · simp [stuff, destuff, hfour, ih]
      · simp [stuff, destuff, hlt, hfour, ih (n + 1) (by omega)]

/-- Six ones after a run of less than six and a zero stand behind the zero. -/
theorem sixOnes_inside_of_run {m : Nat} {w : List Bool} (hm : m < 6)
    (h : List.replicate 6 true <:+: List.replicate m true ++ false :: w) : List.replicate 6 true <:+: w := by
  have hstart : ∀ k < 6, ¬ List.replicate 6 true <+: List.replicate k true ++ false :: w := fun k hk hp => by
    have hget := hp.getElem (i := k) (by simpa using hk)
    simp [-List.reduceReplicate] at hget
  induction m with
  | zero => exact (List.infix_cons_iff.1 h).resolve_left (hstart 0 hm)
  | succ m ih => exact ih (by omega) ((List.infix_cons_iff.1 h).resolve_left (hstart (m + 1) hm))

/-- Stuffed bits, the run before them counted, hold no six ones in a row (40 R161(a)). -/
theorem not_sixOnes_inside_run_stuff (n : Nat) (v : List Bool) (hn : n ≤ 4) :
    ¬ List.replicate 6 true <:+: List.replicate n true ++ stuff n v := by
  induction v generalizing n with
  | nil =>
    intro h
    have := h.length_le
    simp [stuff] at this
    omega
  | cons x v ih =>
    intro h
    cases x with
    | false => exact ih 0 (by omega) (sixOnes_inside_of_run (by omega) h)
    | true =>
      rw [stuff] at h
      split at h
      all_goals rw [List.append_cons, ← List.replicate_succ'] at h
      case isTrue hfour => exact ih 0 (by omega) (sixOnes_inside_of_run (by omega) h)
      case isFalse hfour => exact ih (n + 1) (by omega) h

theorem not_sixOnes_inside_stuff (v : List Bool) : ¬ List.replicate 6 true <:+: stuff 0 v :=
  not_sixOnes_inside_run_stuff 0 v (by omega)

/-! ## The built frame -/

/-- Settles O31: the region is what BSF.BUILD stuffs, the data and its check sequence. -/
theorem receiverRecoversTheBuiltFrame : Obligations.ReceiverRecoversTheBuiltFrame := by
  intro s t h hidle hexec
  obtain ⟨t', data, fcs, hexec', rfl, rfl, hsequence, -⟩ := builtFrameHasTheFrameLayout s h hidle
  obtain rfl : t' = t := Host.Outcome.next.inj (hexec'.symm.trans hexec)
  refine ⟨_, fcsBytes (crcOver crcInit (bitsOf (frameBytes s))), hsequence, destuff_stuff 0 _ (by omega), rfl, ?residue,
    not_sixOnes_inside_stuff _⟩
  case residue =>
    rw [destuff_stuff 0 _ (by omega), bitsOf_append, crcOver_append]
    exact crcOver_fcsBytes _

/-! ## Operations BSF.BYTE one after the other -/

/-- What an operation that sends bits leaves, whether they fit or not. -/
theorem SendsBits.exists_next {i : Instr} {v : List Bool} {crc : BitVec 16} {ones : Nat} {value : Value} {s : State}
    (hsends : SendsBits i v crc ones value s) : ∃ t, exec i s = .next t
      ∧ bitSequence t = (bitSequence s ++ v).take s.cfg.bitCap ∧ t.bsf.ones = BitVec.ofNat 3 ones ∧ t.afsk = s.afsk
      ∧ t.cfg = s.cfg := by
  by_cases hfit : s.bsf.bitlen.toNat + v.length ≤ s.cfg.bitCap
  · obtain ⟨t, hexec, hsequence, -, -, hrest⟩ := hsends.1 hfit
    have hall : (bitSequence s ++ v).take s.cfg.bitCap = bitSequence s ++ v :=
      List.take_of_length_le (by simpa [bitSequence_length])
    exact ⟨t, hexec, hsequence.trans hall.symm, by rw [hrest], by rw [hrest], by rw [hrest]⟩
  · obtain ⟨t, hexec, hsequence, -, -, hrest⟩ := hsends.2 (Nat.not_le.1 hfit)
    exact ⟨t, hexec, hsequence, by rw [hrest], by rw [hrest], by rw [hrest]⟩

/-- What is cut off before an append would be cut off after it. -/
theorem take_take_append {α : Type} (n : Nat) (v w : List α) : (v.take n ++ w).take n = (v ++ w).take n := by
  rcases Nat.le_total v.length n with hfit | hover
  · rw [List.take_of_length_le hfit]
  · rw [List.take_left' (List.length_take_of_le hover), List.take_append_of_le_length hover]

/-- A run of operations BSF.BYTE appends the stuffed bits of its bytes as far as the memory has room. -/
theorem runOps_bsfByte_bitSequence {xs : List Byte} {s t : State} (h : Inv s) (hidle : s.afsk.state = .idle)
    (hrun : runOps (xs.map .bsfByte) s = some t) :
    bitSequence t = (bitSequence s ++ stuff s.bsf.ones.toNat (bitsOf xs)).take s.cfg.bitCap := by
  induction xs generalizing s with
  | nil =>
    obtain rfl : s = t := Option.some.inj hrun
    have hle : (bitSequence s).length ≤ s.cfg.bitCap := (bitSequence_length s).trans_le h.bsf.bitlen_le
    simp [bitsOf, stuff, hle]
  | cons x xs ih =>
    obtain ⟨u, hexec, hsequence, hones, hafsk, hcfg⟩ := (sendsBits_bsfByte h hidle x).exists_next
    obtain ⟨u', hexec', hu⟩ := exec_keepsInv h (.bsfByte x)
    obtain rfl : u' = u := Host.Outcome.next.inj (hexec'.symm.trans hexec)
    have hrun' : runOps (xs.map .bsfByte) u' = some t := by simpa [runOps, hexec] using hrun
    have hle := runAfter_le s.bsf.ones.toNat (bitsOf [x]) h.bsf.ones_le
    have hones' : u'.bsf.ones.toNat = runAfter s.bsf.ones.toNat (bitsOf [x]) := by
      rw [hones, BitVec.toNat_ofNat]
      omega
    have hbits : bitsOf (x :: xs) = bitsOf [x] ++ bitsOf xs := bitsOf_append [x] xs
    rw [ih hu (hafsk ▸ hidle) hrun', hsequence, hones', hcfg, hbits, stuff_append, ← List.append_assoc,
      take_take_append]

/-- Settles O30: the six bits of a window are six bits in a row of what the run appends. -/
theorem stuffedBytesHoldNoSixOnes : Obligations.StuffedBytesHoldNoSixOnes := by
  intro s t xs h hidle hones hrun k hstart hend
  have hsequence := runOps_bsfByte_bitSequence h hidle hrun
  have hregion : (bitSequence t).drop s.bsf.bitlen.toNat <:+: stuff 0 (bitsOf xs) := by
    rw [hsequence, hones, List.drop_take, List.drop_left' (bitSequence_length s)]
    exact (List.take_prefix ..).isInfix
  by_contra! hnone
  have hwindow : List.replicate 6 true =
      (((bitSequence t).drop s.bsf.bitlen.toNat).drop (k - s.bsf.bitlen.toNat)).take 6 := by
    have hlen := bitSequence_length t
    refine List.ext_getElem (by simp; omega) fun j hj _ => ?_
    have hj' : j < 6 := by simpa using hj
    simpa [-List.reduceReplicate, bitSequence, Nat.add_sub_of_le hstart] using hnone j hj'
  refine not_sixOnes_inside_stuff (bitsOf xs) (List.IsInfix.trans ?_ hregion)
  rw [hwindow]
  exact (List.take_prefix ..).isInfix.trans (List.drop_suffix ..).isInfix

end Sys2Proof.Machine
end

section
/-! SUPPORT. Unit MICE as its host sees it (41): the bytes of the two strings as numbers, what MICE.ENC, MICE.PUT and the
accesses to the unit's spaces leave, and that a receiver undoes the tables. -/

namespace Sys2Proof.Machine

/-! ## The input registers and the reads (41 R181, R197, R198) -/

/-- Settles O34, by the address. -/
theorem miceInputBytes : Obligations.MiceInputBytes := by
  refine ⟨fun a b => ⟨decode_mice 0 a b, rfl⟩, fun a b => ⟨decode_mice 4 a b, rfl⟩, fun a b s => ⟨?inside, ?outside⟩⟩
  case inside =>
    intro h
    have hin : ¬ a.toNat > minLast := Nat.not_lt.2 h
    exact ⟨⟨_, congrArg Host.Outcome.next (if_neg hin), writesOneCell_store .micIn _ b s, registers_store .micIn _ b s⟩,
      congrArg Host.Outcome.next (if_neg hin)⟩
  case outside =>
    intro h
    exact ⟨congrArg Host.Outcome.next (if_pos h), congrArg Host.Outcome.next (if_pos h)⟩

/-- MICE.ROUT, its refusal and the two strings it reads (41 R197). -/
theorem exec_miceRout (a : Byte) (s : State) : exec (.miceRout a) s = .next
    (if a.toNat = 7 ∨ a.toNat > 20 then raise .range s
      else if a.toNat ≤ 6 then answer ((load .micDest a.toNat s).setWidth 16) s
      else answer ((load .micInfo (a.toNat - 8) s).setWidth 16) s) := rfl

/-- Settles O39, by the address. -/
theorem miceRoutReadsTheStrings : Obligations.MiceRoutReadsTheStrings := by
  refine ⟨fun a b => ⟨decode_mice 3 a b, rfl⟩, fun a s => ⟨fun h => ?dest, fun h => ?info, fun h => ?outside⟩⟩
  case dest => rw [exec_miceRout, if_neg (by omega), if_pos h]
  case info => rw [exec_miceRout, if_neg (by omega), if_neg (by omega)]
  case outside => rw [exec_miceRout, if_pos h]

/-! ## Consecutive cells from address 0 on -/

theorem load_storeMany_of_lt {sp : Space} {vs : List Byte} {s : State} {k : Nat} (hk : k < vs.length) :
    load sp k (storeMany sp 0 vs s) = vs.getD k 0 := by
  rw [load_storeMany, if_pos ⟨rfl, Nat.zero_le k, by omega⟩, Nat.sub_zero]

theorem load_storeMany_outside {sp sp' : Space} {vs : List Byte} {s : State} {k : Nat}
    (h : ¬ (sp' = sp ∧ k < vs.length)) : load sp' k (storeMany sp 0 vs s) = load sp' k s := by
  rw [load_storeMany, if_neg (by simpa using h)]

/-- A list of cells read holds what each cell reads as. -/
theorem loadMany_getD {sp : Space} {n k : Nat} {s : State} (hk : k < n) :
    (loadMany sp 0 n s).getD k 0 = load sp k s := by
  simp [loadMany, hk]

/-- A length as a value. -/
theorem lengthValue_eq (n : BitVec 4) : lengthValue n = BitVec.ofNat 16 n.toNat := (BitVec.ofNat_toNat ..).symm

/-! ## MICE.PUT (41 R196) -/

/-- The state after a MICE.PUT that is not refused. -/
def putStrings (s : State) : State :=
  let t := storeMany .msg 0 (loadMany .micInfo 0 s.mice.infolen.toNat s) (storeMany .addr 0 (loadMany .micDest 0 7 s) s)
  answer (lengthValue s.mice.infolen) { t with bsf := { t.bsf with msglen := s.mice.infolen.setWidth 9 } }

theorem exec_micePut (s : State) :
    exec .micePut s = .next (if s.mice.ok then putStrings s else raise .busy s) := rfl

theorem load_putStrings (sp : Space) (a : Nat) (s : State) : load sp a (putStrings s) = load sp a
    (storeMany .msg 0 (loadMany .micInfo 0 s.mice.infolen.toNat s) (storeMany .addr 0 (loadMany .micDest 0 7 s) s)) := by
  cases sp <;> rfl

/-- Settles O38: both strings are read before a cell is written, and they are written in two spaces. -/
theorem micePutHandsOverToBsf : Obligations.MicePutHandsOverToBsf := by
  refine ⟨fun a b => ⟨decode_mice 2 a b, rfl⟩, fun s hok => ?busy, fun s hok => ?accepted⟩
  case busy => rw [exec_micePut, hok]; rfl
  case accepted =>
    have hexec : exec .micePut s = .next (putStrings s) := by rw [exec_micePut, if_pos hok]
    obtain ⟨t, ht, hbyte, hbit⟩ := execMicePut_writesOnly s
    obtain rfl : putStrings s = t := Host.Outcome.next.inj (hexec.symm.trans ht)
    refine ⟨_, hexec, fun k hk => ?addr, fun k hk => ?msg, fun sp a haddr hmsg => hbyte sp a (not_or.2 ⟨haddr, hmsg⟩),
      fun k => hbit k nofun, ?registers⟩
    case addr =>
      rw [load_putStrings, load_storeMany_outside (by simp), load_storeMany_of_lt (by simpa using hk), loadMany_getD hk]
    case msg => rw [load_putStrings, load_storeMany_of_lt (by simpa using hk), loadMany_getD hk]
    case registers => rw [← lengthValue_eq, BitVec.ofNat_toNat]; rfl

/-! ## The characters as numbers (41 R185 to R194) -/

theorem toNat_ofNat_byte {n : Nat} (h : n < 256) : (BitVec.ofNat 8 n).toNat = n :=
  (BitVec.toNat_ofNat ..).trans (Nat.mod_eq_of_lt h)

/-- A destination character, of a flag that stands for `p`. -/
theorem destChar_toNat {d : Nat} {g : Bool} {p : Prop} [Decidable p] (hd : d ≤ 9) (hg : g = true ↔ p) :
    (destChar d g).toNat = 0x30 + d + if p then 0x20 else 0 := by
  simp only [destChar, hg]
  exact toNat_ofNat_byte (by split <;> omega)

theorem lonOffset_iff (d : Nat) : lonOffset d = true ↔ d < 10 ∨ 100 ≤ d := by simp [lonOffset]

theorem lonDegChar_toNat {d : Nat} (hd : d < 180) : (lonDegChar d).toNat =
    if d < 10 then d + 118 else if d < 100 then d + 28 else if d < 110 then d + 8 else d - 72 :=
  toNat_ofNat_byte (by split_ifs <;> omega)

theorem lonMinChar_toNat {m : Nat} (hm : m < 60) : (lonMinChar m).toNat = if m < 10 then m + 88 else m + 28 :=
  toNat_ofNat_byte (by split <;> omega)

theorem lonHunChar_toNat {h : Nat} (hh : h < 100) : (lonHunChar h).toNat = h + 28 := toNat_ofNat_byte (by omega)

/-- A longitude in range has less than 180 whole degrees (41 R183). -/
theorem degOf_lt {v : Nat} (hv : v ≤ 1079999) : degOf v < 180 := by rw [degOf]; omega

theorem minOf_lt (v : Nat) : minOf v < 60 := by rw [minOf]; omega

/-- The three characters of the default encoder (41 R192). -/
theorem standardSc_toNat {spd crs : Nat} (hspd : spd ≤ 799) (hcrs : crs ≤ 360) :
    ((standardSc spd crs).getD 0 0).toNat = spd / 10 + (if spd < 200 then 108 else 28)
      ∧ ((standardSc spd crs).getD 1 0).toNat = spd % 10 * 10 + (crs + 400) / 100 + 28
      ∧ ((standardSc spd crs).getD 2 0).toNat = (crs + 400) % 100 + 28 :=
  ⟨toNat_ofNat_byte (by split <;> omega), toNat_ofNat_byte (by omega), toNat_ofNat_byte (by omega)⟩

/-- The three altitude characters (41 R194). -/
theorem altChars_toNat {alt : Int} (hlow : -10000 ≤ alt) (hhigh : alt ≤ 743570) :
    (((altChars alt).getD 0 0).toNat : Int) = (alt + 10000) / 8281 + 33
      ∧ (((altChars alt).getD 1 0).toNat : Int) = (alt + 10000) / 91 % 91 + 33
      ∧ (((altChars alt).getD 2 0).toNat : Int) = (alt + 10000) % 91 + 33 := by
  obtain ⟨v, hv⟩ := Int.eq_ofNat_of_zero_le (show 0 ≤ alt + 10000 by omega)
  have hchars : altChars alt =
      [BitVec.ofNat 8 (v / 8281 + 33), BitVec.ofNat 8 (v / 91 % 91 + 33), BitVec.ofNat 8 (v % 91 + 33)] := by
    simp only [altChars, hv, Int.toNat_natCast]
  rw [hchars, hv]
  refine ⟨congrArg Nat.cast (toNat_ofNat_byte (n := v / 8281 + 33) ?_),
    congrArg Nat.cast (toNat_ofNat_byte (n := v / 91 % 91 + 33) ?_),
    congrArg Nat.cast (toNat_ofNat_byte (n := v % 91 + 33) ?_)⟩ <;> omega

/-! ## MICE.ENC (41 R182) -/

theorem uint16le_eq (b0 b1 : Byte) : uint16le b0 b1 = (b1 ++ b0 : BitVec 16).toNat := by
  rw [uint16le, BitVec.toNat_append, ← Nat.shiftLeft_add_eq_or_of_lt b0.isLt, Nat.shiftLeft_eq]
  omega

/-- The fixes that can be encoded. -/
theorem fixInRange_iff (f : Fix) : fixInRange f = true ↔
    f.lat.natAbs ≤ 539999 ∧ f.lon.natAbs ≤ 1079999 ∧ f.spd ≤ 799 ∧ f.crs ≤ 360 ∧ -10000 ≤ f.alt ∧ f.alt ≤ 743570 := by
  simp only [fixInRange, Bool.and_eq_true, decide_eq_true_eq]
  omega

/-- What follows the speed and course field (41 R193 to R195). -/
def infoTail (c : Config) (f : Fix) : List Byte :=
  [f.sym, f.tab] ++ altChars f.alt ++ (if c.altTerm then [0x7D] else [])

/-- The information string around its speed and course field. -/
theorem infoString_eq (c : Config) (f : Fix) : infoString c f =
    [currentChar f, lonDegChar (degOf f.lon.natAbs), lonMinChar (minOf f.lon.natAbs), lonHunChar (hunOf f.lon.natAbs)]
      ++ (speedCourse c f.spd f.crs ++ infoTail c f) := by
  simp only [infoString, infoTail, List.append_assoc]

/-- The state after a MICE.ENC that is not refused. -/
def encoded (s : State) : State :=
  let t := storeMany .micInfo 0 (infoString s.cfg (readFix s)) (storeMany .micDest 0 (destString (readFix s)) s)
  answer (lengthValue (infoLength s.cfg)) { t with mice := { t.mice with infolen := infoLength s.cfg, ok := true } }

theorem exec_miceEnc (s : State) :
    exec .miceEnc s = .next (if fixInRange (readFix s) then encoded s else raise .range s) := rfl

/-- A MICE.ENC that answers OK has encoded a fix in range. -/
theorem eq_encoded_of_ok {s t : State} (hexec : exec .miceEnc s = .next t) (hok : t.resp.status = .ok) :
    fixInRange (readFix s) = true ∧ t = encoded s := by
  rw [exec_miceEnc] at hexec
  obtain rfl := Host.Outcome.next.inj hexec
  split at hok
  case isTrue hin => exact ⟨hin, if_pos hin⟩
  case isFalse => exact absurd hok nofun

theorem load_encoded (sp : Space) (a : Nat) (s : State) : load sp a (encoded s) = load sp a
    (storeMany .micInfo 0 (infoString s.cfg (readFix s)) (storeMany .micDest 0 (destString (readFix s)) s)) := by
  cases sp <;> rfl

theorem loadBit_encoded (k : Nat) (s : State) : loadBit k (encoded s) = loadBit k s :=
  (loadBit_storeMany ..).trans (loadBit_storeMany ..)

theorem load_micDest_encoded {s : State} {k : Nat} (hk : k < 7) :
    load .micDest k (encoded s) = (destString (readFix s)).getD k 0 := by
  rw [load_encoded, load_storeMany_outside (by simp), load_storeMany_of_lt hk]

section
variable {s : State} {k : Nat} (hwf : s.cfg.wf = true)
include hwf

theorem load_micInfo_encoded (hk : k < 9 + s.cfg.lSc + s.cfg.altTerm.toNat) :
    load .micInfo k (encoded s) = (infoString s.cfg (readFix s)).getD k 0 := by
  rw [load_encoded, load_storeMany_of_lt (by rwa [infoString_length hwf])]

/-- The speed and course field stands after the first four characters. -/
theorem load_micInfo_speedCourse (hk : k < s.cfg.lSc) :
    load .micInfo (4 + k) (encoded s) = (speedCourse s.cfg (readFix s).spd (readFix s).crs).getD k 0 := by
  have hlen := speedCourse_length hwf (readFix s).spd (readFix s).crs
  rw [load_micInfo_encoded hwf (by omega), infoString_eq, List.getD_append_right _ _ _ _ (Nat.le_add_right 4 k),
    List.getD_append _ _ _ _ (by simpa [hlen] using hk)]
  exact congrArg (List.getD _ · 0) (Nat.add_sub_cancel_left 4 k)

/-- Symbol, table, altitude and terminator stand after the speed and course field. -/
theorem load_micInfo_tail (hk : k < 5 + s.cfg.altTerm.toNat) :
    load .micInfo (4 + k + s.cfg.lSc) (encoded s) = (infoTail s.cfg (readFix s)).getD k 0 := by
  have hlen := speedCourse_length hwf (readFix s).spd (readFix s).crs
  have hfront : 4 + k + s.cfg.lSc = 4 + (s.cfg.lSc + k) := by omega
  rw [load_micInfo_encoded hwf (by omega), infoString_eq, hfront, List.getD_append_right _ _ _ _ (Nat.le_add_right 4 _),
    List.getD_append_right _ _ _ _ (by simp [hlen]), hlen]
  exact congrArg (List.getD _ · 0) (by simp)

/-- Outside the two strings every cell reads as before. -/
theorem load_encoded_outside {sp : Space} (hdest : ¬ (sp = .micDest ∧ k < 7))
    (hinfo : ¬ (sp = .micInfo ∧ k < 9 + s.cfg.lSc + s.cfg.altTerm.toNat)) : load sp k (encoded s) = load sp k s := by
  rw [load_encoded, load_storeMany_outside (by rwa [infoString_length hwf]),
    load_storeMany_outside (by rwa [destString_length])]

theorem registers_encoded : registers (encoded s) =
    registers (answer (BitVec.ofNat 16 (9 + s.cfg.lSc + s.cfg.altTerm.toNat)) { s with
      mice := { s.mice with infolen := BitVec.ofNat 4 (9 + s.cfg.lSc + s.cfg.altTerm.toNat), ok := true } }) := by
  rw [← infoLength_toNat hwf, ← lengthValue_eq, BitVec.ofNat_toNat, BitVec.setWidth_eq]
  rfl

end

/-- Settles O36: the field holds what the configured encoder gives. -/
theorem micePlatformSpeedCourse : Obligations.MicePlatformSpeedCourse := by
  intro s t hwf hplatform hexec hok k hk
  obtain ⟨-, rfl⟩ := eq_encoded_of_ok hexec hok
  rw [load_micInfo_speedCourse hwf hk, ← uint16le_eq, ← uint16le_eq]
  simp [speedCourse, hplatform, hk, readFix]

/-- A destination character stands for its digit and its flag (41 R185). -/
theorem destDigit_encoded {s : State} {k d : Nat} {g : Bool} {p : Prop} [Decidable p] (hk : k < 7)
    (hchar : (destString (readFix s)).getD k 0 = destChar d g) (hd : d ≤ 9) (hg : g = true ↔ p) :
    (load .micDest k (encoded s)).toNat = 0x30 + d + if p then 0x20 else 0 := by
  rw [load_micDest_encoded hk, hchar, destChar_toNat hd hg]

/-- Settles O35: in the order of the characters, each read off its string and its table. -/
theorem miceEncWritesTheStrings : Obligations.MiceEncWritesTheStrings := by
  refine ⟨fun a b => ⟨decode_mice 1 a b, rfl⟩, ?_⟩
  intro s lat lon alt spd crs la lo hwf hlat hlon halt hspd hcrs hla hlo
  obtain rfl : lat = (readFix s).lat := hlat
  obtain rfl : lon = (readFix s).lon := hlon
  obtain rfl : alt = (readFix s).alt := halt
  obtain rfl : spd = (readFix s).spd := hspd.trans (uint16le_eq ..).symm
  obtain rfl : crs = (readFix s).crs := hcrs.trans (uint16le_eq ..).symm
  subst hla hlo
  rw [← fixInRange_iff, exec_miceEnc]
  refine ⟨fun h => by rw [if_neg h], fun h => ⟨encoded s, by rw [if_pos h], ?_⟩⟩
  obtain ⟨hla, hlo, hspd, hcrs, hlow, hhigh⟩ := (fixInRange_iff _).1 h
  obtain ⟨halt0, halt1, halt2⟩ := altChars_toNat hlow hhigh
  have hinfo {k : Nat} (hk : k < 9) := load_micInfo_encoded (s := s) (k := k) hwf (by omega)
  have htail {k : Nat} (hk : k < 5) := load_micInfo_tail (s := s) (k := k) hwf (by omega)
  refine ⟨registers_encoded hwf, fun _ _ => load_encoded_outside hwf, fun k => loadBit_encoded k s,
    destDigit_encoded (by omega) rfl (by omega) Iff.rfl, destDigit_encoded (by omega) rfl (by omega) Iff.rfl,
    destDigit_encoded (by omega) rfl (by omega) Iff.rfl, destDigit_encoded (by omega) rfl (by omega) decide_eq_true_iff,
    destDigit_encoded (by omega) rfl (by omega) (lonOffset_iff _),
    destDigit_encoded (by omega) rfl (by omega) decide_eq_true_iff, load_micDest_encoded (by omega),
    hinfo (by omega), ?degrees, ?minutes, ?hundredths, ?speedCourse, htail (k := 0) (by omega), htail (k := 1) (by omega),
    ?alt0, ?alt1, ?alt2, ?terminator⟩
  case degrees =>
    rw [hinfo (by omega)]
    exact lonDegChar_toNat (degOf_lt hlo)
  case minutes =>
    rw [hinfo (by omega)]
    exact lonMinChar_toNat (minOf_lt _)
  case hundredths =>
    rw [hinfo (by omega)]
    exact lonHunChar_toNat (Nat.mod_lt _ (by omega))
  case speedCourse =>
    intro hstandard
    have hchars : speedCourse s.cfg (readFix s).spd (readFix s).crs = standardSc (readFix s).spd (readFix s).crs := by
      rw [speedCourse, hstandard]
    have hthree : s.cfg.lSc = 3 := by rw [← speedCourse_length hwf, hchars]; rfl
    have hfield {k : Nat} (hk : k < 3) := hchars ▸ load_micInfo_speedCourse (s := s) (k := k) hwf (by omega)
    rw [hfield (k := 0) (by omega), hfield (k := 1) (by omega), hfield (k := 2) (by omega)]
    exact standardSc_toNat hspd hcrs
  case alt0 => exact (congrArg (fun b : Byte => (b.toNat : Int)) (htail (k := 2) (by omega))).trans halt0
  case alt1 => exact (congrArg (fun b : Byte => (b.toNat : Int)) (htail (k := 3) (by omega))).trans halt1
  case alt2 => exact (congrArg (fun b : Byte => (b.toNat : Int)) (htail (k := 4) (by omega))).trans halt2
  case terminator =>
    intro hterm
    rw [load_micInfo_tail (k := 5) hwf (by simp [hterm]), infoTail, if_pos hterm]
    rfl

/-! ## The receiver -/

/-- Digit and flag of a destination character. -/
theorem destChar_received {n d : Nat} {p : Prop} [Decidable p] (hd : d ≤ 9)
    (hn : n = 0x30 + d + if p then 0x20 else 0) : n % 16 = d ∧ (0x50 ≤ n ↔ p) := by
  split at hn
  case isTrue hp =>
    simp only [hp, iff_true]
    omega
  case isFalse hp =>
    simp only [hp, iff_false]
    omega

/-- The four ranges of longitude degrees are told apart by the character and the offset flag (41 R187). -/
theorem lonDegree_received {n d x : Nat} {p : Prop} [Decidable p] (hd : d < 180) (hp : p ↔ d < 10 ∨ 100 ≤ d)
    (hn : n = if d < 10 then d + 118 else if d < 100 then d + 28 else if d < 110 then d + 8 else d - 72)
    (hx : x = n - 28 + if p then 100 else 0) : (if 190 ≤ x then x - 190 else if 180 ≤ x then x - 80 else x) = d := by
  simp only [hp] at hx
  split_ifs at * <;> omega

/-- The two ranges of longitude minutes (41 R188). -/
theorem lonMinute_received {n d : Nat} (hd : d < 60) (hn : n = if d < 10 then d + 88 else d + 28) :
    (if 60 ≤ n - 28 then n - 28 - 60 else n - 28) = d := by
  split_ifs at * <;> omega

/-- Degrees, minutes and hundredths put together again (41 R183). -/
theorem hundredths_of_parts (v : Nat) : (degOf v * 60 + minOf v) * 100 + hunOf v = v := by
  simp only [degOf, minOf, hunOf]
  omega

/-- Settles O37, from the characters that MICE.ENC writes. -/
theorem miceStringsDecodeToTheFix : Obligations.MiceStringsDecodeToTheFix := by
  intro s t digit flag x deg m hwf hexec hok hdigit hflag hx hdeg hm
  have hin := (fixInRange_iff _).1 (eq_encoded_of_ok hexec hok).1
  obtain ⟨t', hexec', -, -, -, hchar0, hchar1, hchar2, hchar3, hchar4, hchar5, -, -, hdegChar, hminChar, hhunChar,
      -, -, -, halt0, halt1, halt2, -⟩ :=
    (miceEncWritesTheStrings.2 s (readFix s).lat (readFix s).lon (readFix s).alt (readFix s).spd (readFix s).crs _ _ hwf
      rfl rfl rfl (uint16le_eq ..) (uint16le_eq ..) rfl rfl).2 hin
  obtain rfl : t' = t := Host.Outcome.next.inj (hexec'.symm.trans hexec)
  obtain ⟨hla, hlo, -⟩ := hin
  obtain ⟨hdigit0, -⟩ := destChar_received (by omega) hchar0
  obtain ⟨hdigit1, -⟩ := destChar_received (by omega) hchar1
  obtain ⟨hdigit2, -⟩ := destChar_received (by omega) hchar2
  obtain ⟨hdigit3, hflag3⟩ := destChar_received (by omega) hchar3
  obtain ⟨hdigit4, hflag4⟩ := destChar_received (by omega) hchar4
  obtain ⟨hdigit5, hflag5⟩ := destChar_received (by omega) hchar5
  simp only [hflag, decide_eq_true_eq] at hx ⊢
  have hdegree := hdeg.trans (lonDegree_received (degOf_lt hlo) hflag4 hdegChar hx)
  have hminute := lonMinute_received (minOf_lt _) hminChar
  refine ⟨?latitude, hflag3, ?longitude, hflag5, ?altitude⟩
  case latitude =>
    simp only [hdigit, hdigit0, hdigit1, hdigit2, hdigit3, hdigit4, hdigit5]
    omega
  case longitude =>
    rw [hdegree, hm, hminute, hhunChar, Nat.add_sub_cancel]
    exact (hundredths_of_parts _).symm
  case altitude =>
    rw [halt0, halt1, halt2]
    omega

end Sys2Proof.Machine
end

section
/-! SUPPORT. Unit AFSK as its host and its timer see it (42): what its operations answer and leave, the three kinds of
tick of a transmission, and the time and the 0 bits that each tick takes from what is left to send. -/

namespace Sys2Proof.Machine

/-! ## AFSK.TX (42 R221) -/

theorem exec_afskTx_busy {s : State} (hbusy : s.afsk.state = .transmitting) :
    exec .afskTx s = .next (raise .busy s) := by
  show execAfskTx s = _
  rw [execAfskTx, hbusy]

theorem exec_afskTx_idle {s : State} (hidle : s.afsk.state = .idle) : exec .afskTx s = .next
    (if s.bsf.ovf then raise .ovf s else answer 0 { s with afsk := { s.afsk with
      state := .transmitting, tone := .mark, sidx := 0, elapsed := 0, bitpos := 0
      ptt := s.afsk.ptt || s.cfg.pttEn } }) := by
  show execAfskTx s = _
  rw [execAfskTx, hidle]

theorem ptt_started (ptt pttEn : Bool) : (ptt || pttEn) = if pttEn then true else ptt := by
  cases pttEn
  · exact Bool.or_false ptt
  · exact Bool.or_true ptt

/-- Settles O40, by the state of the modulator and the overflow flag. -/
theorem afskTxStartsATransmission : Obligations.AfskTxStartsATransmission := by
  refine ⟨fun a b => ⟨decode_afsk 0 a b, rfl⟩, fun s => ⟨exec_afskTx_busy, fun hidle hovf => ?_, fun hidle hovf => ?_⟩⟩
  · rw [exec_afskTx_idle hidle, if_pos hovf]
  · rw [exec_afskTx_idle hidle, if_neg (by simp [hovf]), ptt_started]

/-! ## AFSK.END and the reads (42 R226 to R229) -/

theorem exec_afskEnd_transmitting {s : State} (htx : s.afsk.state = .transmitting) :
    exec .afskEnd s = .next (answer 0 { s with afsk := { s.afsk with bitpos := s.bsf.bitlen } }) := by
  show execAfskEnd s = _
  rw [execAfskEnd, htx]

theorem exec_afskEnd_idle {s : State} (hidle : s.afsk.state = .idle) : exec .afskEnd s = .next (answer 0 s) := by
  show execAfskEnd s = _
  rw [execAfskEnd, hidle]

theorem exec_afskStat (s : State) : exec .afskStat s = .next (answer s.afsk.state.code s) := rfl

/-- A length of 16 bits in milliseconds fits a value. -/
theorem milliseconds_toNat (n : BitVec 16) :
    (BitVec.ofNat 16 (n.toNat * 1000 / baud)).toNat = n.toNat * 1000 / 1200 := by
  have hn : n.toNat < 65536 := n.isLt
  rw [BitVec.toNat_ofNat, baud]
  omega

/-- PTT, tone and sample index stand in bits of their own, so their word is a sum (42 R229). -/
theorem modulatorWord_eq (ptt : Bool) (tone : Tone) (i : BitVec 5) :
    (bitValue ptt <<< 6) ||| (tone.code <<< 5) ||| i.setWidth 16
      = BitVec.ofNat 16 ((if ptt then 64 else 0) + (if tone = .mark then 0 else 32) + i.toNat) := by
  cases ptt <;> cases tone <;> revert i <;> decide

theorem exec_afskRout_range {sel : Byte} {s : State} (h : 3 < sel.toNat) :
    exec (.afskRout sel) s = .next (raise .range s) := by
  have hne : ∀ k : Byte, k.toNat ≤ 3 → sel ≠ k := fun k hk heq => absurd h (Nat.not_lt.2 (heq ▸ hk))
  show execAfskRout sel s = _
  rw [execAfskRout, if_neg (hne 0 (by decide)), if_neg (hne 1 (by decide)), if_neg (hne 2 (by decide)),
    if_neg (hne 3 (by decide))]

/-- Settles O42, operation by operation. -/
theorem afskEndAndReads : Obligations.AfskEndAndReads := by
  refine ⟨fun a b => ⟨decode_afsk 1 a b, rfl⟩, fun a b => ⟨decode_afsk 2 a b, rfl⟩,
    fun a b => ⟨decode_afsk 3 a b, rfl⟩, fun a b => ⟨decode_afsk 4 a b, rfl⟩,
    fun s => ⟨fun htx => ⟨exec_afskEnd_transmitting htx, ?onAir⟩, fun hidle => ⟨exec_afskEnd_idle hidle, ?silent⟩,
      ⟨_, rfl, milliseconds_toNat _⟩, rfl, ?word, rfl, rfl, fun _ => exec_afskRout_range⟩⟩
  case onAir => rw [exec_afskStat, htx]; rfl
  case silent => rw [exec_afskStat, hidle]; rfl
  case word => rw [← modulatorWord_eq]; rfl

/-! ## What a tick makes of the modulator (42 R224, R225) -/

section
variable {s : State}

/-- Within a bit period: the next sample. -/
theorem afskAdvance_within (htime : s.afsk.elapsed.toNat + tonePeriod s.cfg s.afsk.tone < 833) : afskAdvance s =
    { s.afsk with
      dac := sineSample s.cfg s.afsk.sidx, sidx := s.afsk.sidx + 1
      elapsed := BitVec.ofNat 16 (s.afsk.elapsed.toNat + tonePeriod s.cfg s.afsk.tone) } :=
  if_neg (Nat.not_le.2 htime)

/-- At the end of a bit period, with no bit left. -/
theorem afskAdvance_end (htime : 833 ≤ s.afsk.elapsed.toNat + tonePeriod s.cfg s.afsk.tone)
    (hbits : s.bsf.bitlen.toNat ≤ s.afsk.bitpos.toNat) : afskAdvance s =
    { s.afsk with
      dac := sineSample s.cfg s.afsk.sidx, state := .idle, ptt := false, sidx := 0, elapsed := 0 } :=
  (if_pos htime).trans (if_pos hbits)

/-- At the end of a bit period, with a bit left. -/
theorem afskAdvance_bit (htime : 833 ≤ s.afsk.elapsed.toNat + tonePeriod s.cfg s.afsk.tone)
    (hbits : s.afsk.bitpos.toNat < s.bsf.bitlen.toNat) : afskAdvance s =
    { s.afsk with
      dac := sineSample s.cfg s.afsk.sidx, sidx := s.afsk.sidx + 1
      elapsed := BitVec.ofNat 16 (s.afsk.elapsed.toNat + tonePeriod s.cfg s.afsk.tone - 833)
      bitpos := s.afsk.bitpos + 1
      tone := if loadBit s.afsk.bitpos.toNat s then s.afsk.tone else s.afsk.tone.toggle } :=
  (if_pos htime).trans (if_neg (Nat.not_le.2 hbits))

theorem exec_afskTick_idle (hidle : s.afsk.state = .idle) : exec .afskTick s = .next (answer 0 s) := by
  show execAfskTick s = _
  rw [execAfskTick, hidle]

/-- While transmitting, a tick answers whether it left the unit so. -/
theorem exec_afskTick_transmitting (htx : s.afsk.state = .transmitting) :
    exec .afskTick s = .next (answer (afskAdvance s).state.code { s with afsk := afskAdvance s }) := by
  show execAfskTick s = _
  rw [execAfskTick, htx]

end

theorem tonePeriod_eq (c : Config) (t : Tone) : tonePeriod c t = if t = .mark then c.tMark else c.tSpace := by
  cases t <;> rfl

theorem toggle_eq (t : Tone) : t.toggle = if t = .mark then .space else .mark := by cases t <;> rfl

theorem sineSample_eq {c : Config} {i : BitVec 5} {v : BitVec 16} (h : c.sine.toList[i.toNat]? = some v) :
    sineSample c i = v := by
  obtain ⟨hlt, hv⟩ := List.getElem?_eq_some_iff.1 h
  exact (Vector.getElem_toList hlt).symm.trans hv

/-- The sample index wraps around at 32. -/
theorem sidx_succ (i : BitVec 5) : i + 1 = BitVec.ofNat 5 ((i.toNat + 1) % 32) := by revert i; decide

/-- Settles O41, by the time and the bits that are left. -/
theorem afskTickAdvancesTheModulator : Obligations.AfskTickAdvancesTheModulator := by
  refine ⟨fun a b => ⟨decode_afsk 15 a b, rfl⟩, fun s => exec_afskTick_idle, fun s e sample htx he hsample => ?_⟩
  rw [← tonePeriod_eq] at he
  subst he
  rw [exec_afskTick_transmitting htx, ← sidx_succ, ← toggle_eq, ← sineSample_eq hsample]
  refine ⟨fun htime => ?within, fun htime hbits => ?atEnd, fun htime hbits => ?takesBit⟩
  case within => rw [afskAdvance_within htime, htx]; rfl
  case atEnd => rw [afskAdvance_end htime hbits]; rfl
  case takesBit => rw [afskAdvance_bit htime hbits, htx]; rfl

/-! ## What is left of a transmission -/

/-- Microseconds until the transmission ends: the rest of this bit period, and one for each bit not yet taken. -/
def timeLeft (s : State) : Nat := 833 * (s.bsf.bitlen.toNat - s.afsk.bitpos.toNat + 1) - s.afsk.elapsed.toNat

/-- The 0 bits not yet taken. -/
def zerosLeft (s : State) : Nat := ((bitSequence s).drop s.afsk.bitpos.toNat).count false

/-- How often the tone changes from `s` to `t`, 0 or 1. -/
def toneChange (s t : State) : Nat := if t.afsk.tone = s.afsk.tone then 0 else 1

theorem toneChange_eq_zero {s t : State} (h : t.afsk.tone = s.afsk.tone) : toneChange s t = 0 := if_pos h

theorem tonePeriod_pos {c : Config} (h : c.wf = true) (t : Tone) : 0 < tonePeriod c t := by
  cases t <;> simp_all [Config.wf, Config.toneOk, tonePeriod]

theorem toggle_ne (t : Tone) : t.toggle ≠ t := by cases t <;> nofun

/-- With every bit taken no 0 bit is left. -/
theorem zerosLeft_eq_zero {s : State} (hbits : s.bsf.bitlen.toNat ≤ s.afsk.bitpos.toNat) : zerosLeft s = 0 := by
  rw [zerosLeft, List.drop_eq_nil_of_le (by rwa [bitSequence_length]), List.count_nil]

/-- The 0 bits left, with the next bit apart. -/
theorem zerosLeft_eq_succ {s : State} (hbits : s.afsk.bitpos.toNat < s.bsf.bitlen.toNat) : zerosLeft s =
    (if loadBit s.afsk.bitpos.toNat s then 0 else 1) + ((bitSequence s).drop (s.afsk.bitpos.toNat + 1)).count false := by
  have hlen : s.afsk.bitpos.toNat < (bitSequence s).length := by rwa [bitSequence_length]
  have hnext : (bitSequence s)[s.afsk.bitpos.toNat] = loadBit s.afsk.bitpos.toNat s := by simp [bitSequence]
  rw [zerosLeft, List.drop_eq_getElem_cons hlen, hnext, List.count_cons, Nat.add_comm]
  cases loadBit s.afsk.bitpos.toNat s <;> rfl

/-- A bit position below a length has a successor. -/
theorem toNat_succ_of_lt {i n : BitVec 16} (h : i.toNat < n.toNat) : (i + 1).toNat = i.toNat + 1 :=
  BitVec.toNat_add_of_lt (by have := n.isLt; simp; omega)

/-! ## The ticks of a transmission (42 R231) -/

/-- A tick that leaves the unit transmitting takes the tone's period from the time left, and from the 0 bits left the
one that it sends, with a change of the tone. -/
structure TickGoesOn (s t : State) : Prop where
  transmitting : t.afsk.state = .transmitting
  time : timeLeft t + tonePeriod s.cfg s.afsk.tone = timeLeft s
  zeros : toneChange s t + zerosLeft t = zerosLeft s

/-- The tick that ends the transmission comes when every bit is taken. -/
structure TickEnds (s t : State) : Prop where
  idle : t.afsk.state = .idle
  tone : t.afsk.tone = s.afsk.tone
  bits : s.bsf.bitlen.toNat ≤ s.afsk.bitpos.toNat

section
variable {s : State} (htx : s.afsk.state = .transmitting)
include htx

theorem tickGoesOn_within (v : Value) (htime : s.afsk.elapsed.toNat + tonePeriod s.cfg s.afsk.tone < 833) :
    TickGoesOn s (answer v { s with afsk := afskAdvance s }) := by
  rw [afskAdvance_within htime]
  refine { transmitting := htx, time := ?_, zeros := ?_ }
  · simp only [timeLeft, answer_bsf, answer_afsk, BitVec.toNat_ofNat]
    omega
  · exact (congrArg (· + zerosLeft s) (toneChange_eq_zero rfl)).trans (Nat.zero_add _)

variable (h : Inv s)
include h

theorem tickGoesOn_bit (v : Value) (htime : 833 ≤ s.afsk.elapsed.toNat + tonePeriod s.cfg s.afsk.tone)
    (hbits : s.afsk.bitpos.toNat < s.bsf.bitlen.toNat) :
    TickGoesOn s (answer v { s with afsk := afskAdvance s }) := by
  have helapsed := h.afsk.elapsed_lt
  have hperiod := tonePeriod_le h.cfg s.afsk.tone
  rw [afskAdvance_bit htime hbits]
  refine { transmitting := htx, time := ?_, zeros := ?_ }
  · simp only [timeLeft, answer_bsf, answer_afsk, BitVec.toNat_ofNat, toNat_succ_of_lt hbits]
    omega
  · rw [zerosLeft_eq_succ hbits, ← toNat_succ_of_lt hbits]
    refine congrArg (· + _) ?_
    cases loadBit s.afsk.bitpos.toNat s <;> simp [toneChange, toggle_ne]

/-- What a tick of a transmission does, by the time and the bits that are left. -/
theorem tick_cases : ∃ t, exec .afskTick s = .next t ∧ Inv t ∧ t.bsf = s.bsf ∧ (TickGoesOn s t ∨ TickEnds s t) := by
  obtain ⟨t, hexec, hinv⟩ := exec_keepsInv h .afskTick
  refine ⟨t, hexec, hinv, ?_⟩
  obtain rfl := Host.Outcome.next.inj ((exec_afskTick_transmitting htx).symm.trans hexec)
  refine ⟨rfl, ?_⟩
  rcases Nat.lt_or_ge (s.afsk.elapsed.toNat + tonePeriod s.cfg s.afsk.tone) 833 with htime | htime
  · exact .inl (tickGoesOn_within htx _ htime)
  rcases Nat.lt_or_ge s.afsk.bitpos.toNat s.bsf.bitlen.toNat with hbits | hbits
  · exact .inl (tickGoesOn_bit htx h _ htime hbits)
  · right
    rw [afskAdvance_end htime hbits]
    exact { idle := rfl, tone := rfl, bits := hbits }

end

theorem ticks_succ {s t : State} (hexec : exec .afskTick s = .next t) (n : Nat) : ticks (n + 1) s = ticks n t := by
  rw [ticks, List.replicate_succ, runOps, hexec]
  rfl

theorem toneChanges_succ {s t : State} (hexec : exec .afskTick s = .next t) (n : Nat) :
    toneChanges (n + 1) s = toneChange s t + toneChanges n t := by
  rw [toneChanges, hexec]
  rfl

/-- The `n` ticks from `s` to `u` end the transmission, and change the tone once for every 0 bit left. -/
structure EndsTransmission (n : Nat) (s u : State) : Prop where
  run : ticks n s = some u
  idle : u.afsk.state = .idle
  bsf : u.bsf = s.bsf
  before : ∀ m, m < n → ∃ w, ticks m s = some w ∧ w.afsk.state = .transmitting
  changes : toneChanges n s = zerosLeft s

namespace EndsTransmission

variable {n : Nat} {s t u : State} (hexec : exec .afskTick s = .next t) (htx : s.afsk.state = .transmitting)
  (hbsf : t.bsf = s.bsf)
include hexec htx hbsf

theorem ofEnd (hend : TickEnds s t) : EndsTransmission 1 s t where
  run := ticks_succ hexec 0
  idle := hend.idle
  bsf := hbsf
  before m hm := ⟨s, by rw [Nat.lt_one_iff.1 hm]; rfl, htx⟩
  changes := by
    rw [toneChanges_succ hexec, toneChange_eq_zero hend.tone, zerosLeft_eq_zero hend.bits]
    rfl

theorem cons (hgo : TickGoesOn s t) (hrest : EndsTransmission n t u) : EndsTransmission (n + 1) s u where
  run := (ticks_succ hexec n).trans hrest.run
  idle := hrest.idle
  bsf := hrest.bsf.trans hbsf
  before
    | 0, _ => ⟨s, rfl, htx⟩
    | m + 1, hm => by
      rw [ticks_succ hexec]
      exact hrest.before m (Nat.lt_of_succ_lt_succ hm)
  changes := by rw [toneChanges_succ hexec, hrest.changes, hgo.zeros]

end EndsTransmission

/-- A transmission ends by ticks alone, of which there are at most as many as microseconds are left: each takes a tone's
period, at least one of them. -/
theorem exists_endsTransmission {s : State} (h : Inv s) (htx : s.afsk.state = .transmitting) :
    ∃ n u, n ≤ timeLeft s ∧ EndsTransmission n s u := by
  induction hleft : timeLeft s using Nat.strong_induction_on generalizing s with
  | _ left ih =>
    obtain ⟨t, hexec, ht, hbsf, hgo | hend⟩ := tick_cases htx h
    case inl =>
      have htime := hgo.time
      have hpos := tonePeriod_pos h.cfg s.afsk.tone
      obtain ⟨n, u, hn, hrest⟩ := ih (timeLeft t) (by omega) ht hgo.transmitting rfl
      exact ⟨n + 1, u, by omega, .cons hexec htx hbsf hgo hrest⟩
    case inr =>
      have helapsed := h.afsk.elapsed_lt
      have hsome : 1 ≤ timeLeft s := by rw [timeLeft]; omega
      exact ⟨1, t, hleft ▸ hsome, .ofEnd hexec htx hbsf hend⟩

/-- Settles O43: AFSK.TX starts with all bits left and the time of one bit period more. -/
theorem transmissionEndsWithOneToneChangePerZeroBit : Obligations.TransmissionEndsWithOneToneChangePerZeroBit := by
  intro s t h hidle hovf hexec
  obtain ⟨t', hexec', ht⟩ := exec_keepsInv h .afskTx
  obtain rfl : t' = t := Host.Outcome.next.inj (hexec'.symm.trans hexec)
  rw [exec_afskTx_idle hidle, if_neg (by simp [hovf])] at hexec
  obtain rfl := Host.Outcome.next.inj hexec
  obtain ⟨n, u, hn, hends⟩ := exists_endsTransmission ht rfl
  exact ⟨n, u, hends.run, hends.idle, hends.bsf, hends.before, hn, hends.changes⟩

end Sys2Proof.Machine
end

section
/-! SUPPORT. Unit FRT's decoder (43 R263 to R271): the equations of its turns, what every turn and every POLL does, and
read off that that FRT.POLL is the loop, loses nothing, and answers a verdict or 0. -/

namespace Sys2Proof.Machine

variable {c : Config} {f : Frt}

/-! ## The numbers of a frame -/

/-- A length, high byte first. -/
theorem append_eq_ofNat (hi lo : Byte) : (hi ++ lo : BitVec 16) = BitVec.ofNat 16 (256 * hi.toNat + lo.toNat) := by
  apply BitVec.eq_of_toNat_eq
  have := lo.isLt
  rw [BitVec.toNat_append, ← Nat.shiftLeft_add_eq_or_of_lt lo.isLt, Nat.shiftLeft_eq, BitVec.toNat_ofNat]
  omega

theorem append_toNat (hi lo : Byte) : (hi ++ lo : BitVec 16).toNat = 256 * hi.toNat + lo.toNat := by
  rw [append_eq_ofNat, BitVec.toNat_ofNat]
  omega

/-- The sum of bytes as the low byte of a number. -/
theorem sumBytes_eq_ofNat (t : Byte) (xs : List Byte) :
    sumBytes t xs = BitVec.ofNat 8 (t.toNat + (xs.map BitVec.toNat).sum) :=
  BitVec.eq_of_toNat_eq (by rw [sumBytes_toNat, BitVec.toNat_ofNat])

theorem eq_checksumOf_iff (b t : Byte) : b = checksumOf t ↔ b.toNat = 255 - t.toNat := by
  rw [← checksumOf_toNat, BitVec.toNat_inj]

/-! ## The equations of a turn (43 R264 to R270) -/

theorem pollTurn_awaitStart (hf : f.stage = .awaitStart) : pollTurn c f = stageAwaitStart f := by rw [pollTurn, hf]

theorem pollTurn_length (hf : f.stage = .length) : pollTurn c f = stageLength c f := by rw [pollTurn, hf]

theorem pollTurn_apiId (hf : f.stage = .apiId) : pollTurn c f = stageApiId c f := by rw [pollTurn, hf]

theorem pollTurn_header (hf : f.stage = .header) : pollTurn c f = stageHeader c f := by rw [pollTurn, hf]

theorem pollTurn_payload (hf : f.stage = .payload) : pollTurn c f = stagePayload c f := by rw [pollTurn, hf]

theorem pollTurn_checksum (hf : f.stage = .checksum) : pollTurn c f = stageChecksum f := by rw [pollTurn, hf]

theorem turn_awaitStart_nil (hf : f.stage = .awaitStart) (hq : f.rxfifo = []) : pollTurn c f = .done f 0 := by
  rw [pollTurn_awaitStart hf, stageAwaitStart, hq, blocked]

theorem turn_awaitStart_cons (hf : f.stage = .awaitStart) {b : Byte} {rest : List Byte} (hq : f.rxfifo = b :: rest) :
    pollTurn c f = .goOn (if b = 0x7E then
      { f with rxfifo := rest, sum := 0, result := .none, stage := .length } else { f with rxfifo := rest }) := by
  rw [pollTurn_awaitStart hf, stageAwaitStart, hq, apply_ite Turn.goOn]
  rfl

theorem turn_length_short (hf : f.stage = .length) (hq : f.rxfifo.length < 2) : pollTurn c f = .done f 0 := by
  rw [pollTurn_length hf, stageLength]
  split
  next heq =>
    rw [heq, List.length_cons, List.length_cons] at hq
    omega
  next => rfl

theorem turn_length_cons (hf : f.stage = .length) {hi lo : Byte} {rest : List Byte} (hq : f.rxfifo = hi :: lo :: rest) :
    pollTurn c f = .goOn (if 256 * hi.toNat + lo.toNat < 1 + c.srcW + c.extraW then
      { f with rxfifo := rest, len := hi ++ lo, result := .failLen, stage := .failure }
      else { f with rxfifo := rest, len := hi ++ lo, stage := .apiId }) := by
  rw [pollTurn_length hf, stageLength, hq, apply_ite Turn.goOn, ← append_toNat]
  rfl

theorem turn_apiId_nil (hf : f.stage = .apiId) (hq : f.rxfifo = []) : pollTurn c f = .done f 0 := by
  rw [pollTurn_apiId hf, stageApiId, hq, blocked]

theorem turn_apiId_cons (hf : f.stage = .apiId) {b : Byte} {rest : List Byte} (hq : f.rxfifo = b :: rest) :
    pollTurn c f = .goOn (if b = c.rxApi then
      { f with rxfifo := rest, api := b, sum := f.sum + b, stage := .header }
      else { f with rxfifo := rest, api := b, sum := f.sum + b, result := .failApi, stage := .failure }) := by
  rw [pollTurn_apiId hf, stageApiId, hq, apply_ite Turn.goOn]

theorem turn_header_short (hf : f.stage = .header) (hq : f.rxfifo.length < c.srcW + c.extraW) :
    pollTurn c f = .done f 0 := by
  rw [pollTurn_header hf, stageHeader, if_pos hq, blocked]

theorem turn_header_full (hf : f.stage = .header) {src extra rest : List Byte} (hq : f.rxfifo = src ++ extra ++ rest)
    (hsrc : src.length = c.srcW) (hextra : extra.length = c.extraW) :
    pollTurn c f = .goOn { f with
      rxfifo := rest, src := cellSetMany f.src 0 src, extra := cellSetMany f.extra 0 extra
      sum := sumBytes f.sum (src ++ extra), stage := .payload } := by
  have hlen : (src ++ extra).length = c.srcW + c.extraW := by rw [List.length_append, hsrc, hextra]
  rw [pollTurn_header hf, stageHeader, if_neg (by rw [hq, List.length_append, hlen]; omega), hq]
  simp only [List.take_left' hlen, List.drop_left' hlen, List.take_left' hsrc, List.drop_left' hsrc]

/-- The payload bytes of a frame of the declared length. -/
theorem remaining_eq (c : Config) (f : Frt) : remaining c f = f.len.toNat - (1 + c.srcW + c.extraW) := rfl

theorem turn_payload_over (hf : f.stage = .payload) (hcap : c.payloadCap < f.len.toNat - (1 + c.srcW + c.extraW)) :
    pollTurn c f = .goOn { f with result := .failCap, stage := .failure } := by
  rw [pollTurn_payload hf, stagePayload, remaining_eq, if_pos hcap]

theorem turn_payload_short (hf : f.stage = .payload) (hcap : f.len.toNat - (1 + c.srcW + c.extraW) ≤ c.payloadCap)
    (hq : f.rxfifo.length < f.len.toNat - (1 + c.srcW + c.extraW)) : pollTurn c f = .done f 0 := by
  rw [pollTurn_payload hf, stagePayload, remaining_eq, if_neg (Nat.not_lt.2 hcap), if_pos hq, blocked]

theorem turn_payload_full (hf : f.stage = .payload) {body rest : List Byte} (hq : f.rxfifo = body ++ rest)
    (hbody : body.length = f.len.toNat - (1 + c.srcW + c.extraW)) (hcap : body.length ≤ c.payloadCap) :
    pollTurn c f = .goOn { f with
      rxfifo := rest, payload := cellSetMany f.payload 0 body, paylen := BitVec.ofNat 9 body.length
      sum := sumBytes f.sum body, stage := .checksum } := by
  rw [pollTurn_payload hf, stagePayload, remaining_eq, ← hbody, if_neg (Nat.not_lt.2 hcap), hq,
    if_neg (by rw [List.length_append]; omega)]
  simp only [List.take_left, List.drop_left]

theorem turn_checksum_nil (hf : f.stage = .checksum) (hq : f.rxfifo = []) : pollTurn c f = .done f 0 := by
  rw [pollTurn_checksum hf, stageChecksum, hq, blocked]

/-- The result of a frame whose checksum byte is `b`, after the sum `t` (43 R269). -/
def resultOf (t b : Byte) : FrtResult := if b = checksumOf t then .frame else .badsum

theorem turn_checksum_cons (hf : f.stage = .checksum) {b : Byte} {rest : List Byte} (hq : f.rxfifo = b :: rest) :
    pollTurn c f = .done { f with rxfifo := rest, cks := b, result := resultOf f.sum b, stage := .awaitStart }
      (verdict (resultOf f.sum b)) := by
  rw [pollTurn_checksum hf, stageChecksum, hq]
  rfl

theorem turn_failure (hf : f.stage = .failure) :
    pollTurn c f = .done { f with stage := .awaitStart } (verdict f.result) := by
  rw [pollTurn, hf, stageFailure]

/-- What consecutive cells from address 0 on hold after they are written. -/
theorem cellGet_cellSetMany_zero {α : Type} (m : List (Nat × α)) (vs : List α) (k : Nat) :
    cellGet (cellSetMany m 0 vs) k = if k < vs.length then vs[k]? else cellGet m k := by
  simp [cellGet_cellSetMany]

/-- Settles O45, stage by stage. -/
theorem frtStageRules : Obligations.FrtStageRules := by
  intro c f
  refine ⟨fun hf => ?awaitStart, fun hf => ?length, fun hf => ?apiId, fun hf => ?header, fun hf => ?payload,
    fun hf => ?checksum, fun hf => ?failure⟩
  case awaitStart => exact ⟨turn_awaitStart_nil hf, fun _ _ => turn_awaitStart_cons hf⟩
  case length =>
    refine ⟨turn_length_short hf, fun hi lo rest hq => ?_⟩
    rw [turn_length_cons hf hq, append_eq_ofNat]
  case apiId => exact ⟨turn_apiId_nil hf, fun _ _ => turn_apiId_cons hf⟩
  case header =>
    refine ⟨turn_header_short hf, fun src extra rest hq hsrc hextra => ⟨_, turn_header_full hf hq hsrc hextra, ?_, ?_, ?_⟩⟩
    · exact fun k => hsrc ▸ cellGet_cellSetMany_zero _ _ k
    · exact fun k => hextra ▸ cellGet_cellSetMany_zero _ _ k
    · rw [← sumBytes_eq_ofNat]
  case payload =>
    refine ⟨turn_payload_over hf, turn_payload_short hf, fun body rest hq hbody hcap =>
      ⟨_, turn_payload_full hf hq hbody hcap, fun k => cellGet_cellSetMany_zero _ _ k, ?_⟩⟩
    rw [← sumBytes_eq_ofNat]
  case checksum =>
    refine ⟨turn_checksum_nil hf, fun b rest hq => ?_⟩
    rw [turn_checksum_cons hf hq, resultOf]
    simp only [eq_checksumOf_iff]
    split
    · rw [verdict_frame]
    · rw [verdict_badsum]
  case failure =>
    rw [turn_failure hf]
    exact ⟨fun hr => by rw [hr, verdict_failLen], fun hr => by rw [hr, verdict_failApi],
      fun hr => by rw [hr, verdict_failCap]⟩

/-! ## What every turn does -/

/-- The unit with bytes appended to its receive queue. -/
def Frt.feed (f : Frt) (bytes : List Byte) : Frt := { f with rxfifo := f.rxfifo ++ bytes }

theorem feed_feed (f : Frt) (xs ys : List Byte) : (f.feed xs).feed ys = f.feed (xs ++ ys) := by
  simp [Frt.feed]

/-- The number of stages that an attempt has still before it (43 R263). -/
def FrtStage.stagesLeft (g : FrtStage) : Nat :=
  match g with
  | .awaitStart => 5
  | .length => 4
  | .apiId => 3
  | .header => 2
  | .payload => 1
  | .checksum => 0
  | .failure => 0

/-- A bound on the turns that may go on: a turn takes a byte or leads to a later stage (43 R263). -/
def Frt.turnsLeft (f : Frt) : Nat := f.rxfifo.length + f.stage.stagesLeft

/-- An attempt that has failed has one of the three causes as its result. -/
def Frt.failureNamed (f : Frt) : Prop := f.stage = .failure → f.result ∈ [.failLen, .failApi, .failCap]

/-- What a turn from `f` may do; bytes that wait behind those it takes make no difference to it. -/
inductive TurnDoes (c : Config) (f : Frt) : Turn → Prop
  /-- it leads to a later stage, or takes a byte in AwaitStart -/
  | goesOn {g : Frt} (fed : ∀ bytes, pollTurn c (f.feed bytes) = .goOn (g.feed bytes))
      (fewer : g.turnsLeft < f.turnsLeft) (named : g.failureNamed) : TurnDoes c f (.goOn g)
  /-- it lacks bytes, of which it waits for no more than the queue holds -/
  | blocked (room : c.wf = true → f.rxfifo.length < c.rxDepth) : TurnDoes c f (.done f 0)
  /-- it gives the verdict on an attempt -/
  | concludes {g : Frt} (fed : ∀ bytes, pollTurn c (f.feed bytes) = .done (g.feed bytes) (verdict g.result))
      (stage : g.stage = .awaitStart) (named : f.failureNamed →
        g.result ∈ [.frame, .badsum, .failLen, .failApi, .failCap]) : TurnDoes c f (.done g (verdict g.result))

theorem rxDepth_bounds (h : c.wf = true) : 2 ≤ c.rxDepth ∧ c.srcW + c.extraW ≤ c.rxDepth ∧ c.payloadCap ≤ c.rxDepth := by
  simp_all [Config.wf, Config.rxDepthOk]

theorem awaitStart_turnDoes (hf : f.stage = .awaitStart) : TurnDoes c f (pollTurn c f) := by
  cases hq : f.rxfifo with
  | nil =>
    rw [turn_awaitStart_nil hf hq]
    exact .blocked fun hc => by have := rxDepth_bounds hc; simp [hq]; omega
  | cons b rest =>
    have hfed (bytes : List Byte) := turn_awaitStart_cons (c := c) (f := f.feed bytes) hf (congrArg (· ++ bytes) hq)
    rw [turn_awaitStart_cons hf hq]
    split at hfed
    · rw [if_pos ‹_›]
      exact .goesOn hfed (by simp [Frt.turnsLeft, FrtStage.stagesLeft, hq, hf]) nofun
    · rw [if_neg ‹_›]
      exact .goesOn hfed (by simp [Frt.turnsLeft, hq]) fun h => by simp [hf] at h

theorem length_turnDoes (hf : f.stage = .length) : TurnDoes c f (pollTurn c f) := by
  rcases Nat.lt_or_ge f.rxfifo.length 2 with hshort | hlong
  · rw [turn_length_short hf hshort]
    exact .blocked fun hc => hshort.trans_le (rxDepth_bounds hc).1
  · obtain ⟨hi, queue, hq⟩ := List.exists_cons_of_length_pos (Nat.zero_lt_of_lt hlong)
    obtain ⟨lo, rest, rfl⟩ := List.exists_cons_of_length_pos (l := queue) (by rw [hq, List.length_cons] at hlong; omega)
    have hfed (bytes : List Byte) := turn_length_cons (c := c) (f := f.feed bytes) hf (congrArg (· ++ bytes) hq)
    rw [turn_length_cons hf hq]
    split at hfed
    · rw [if_pos ‹_›]
      exact .goesOn hfed (by simp [Frt.turnsLeft, FrtStage.stagesLeft, hq, hf]; omega) fun _ => by simp
    · rw [if_neg ‹_›]
      exact .goesOn hfed (by simp [Frt.turnsLeft, FrtStage.stagesLeft, hq, hf]) nofun

theorem apiId_turnDoes (hf : f.stage = .apiId) : TurnDoes c f (pollTurn c f) := by
  cases hq : f.rxfifo with
  | nil =>
    rw [turn_apiId_nil hf hq]
    exact .blocked fun hc => by have := rxDepth_bounds hc; simp [hq]; omega
  | cons b rest =>
    have hfed (bytes : List Byte) := turn_apiId_cons (c := c) (f := f.feed bytes) hf (congrArg (· ++ bytes) hq)
    rw [turn_apiId_cons hf hq]
    split at hfed
    · rw [if_pos ‹_›]
      exact .goesOn hfed (by simp [Frt.turnsLeft, FrtStage.stagesLeft, hq, hf]) nofun
    · rw [if_neg ‹_›]
      exact .goesOn hfed (by simp [Frt.turnsLeft, FrtStage.stagesLeft, hq, hf]; omega) fun _ => by simp

/-- The first `n` of enough bytes, and what is left. -/
theorem exists_append_of_le {α : Type} {n : Nat} {xs : List α} (h : n ≤ xs.length) :
    ∃ ys zs, ys.length = n ∧ xs = ys ++ zs :=
  ⟨xs.take n, xs.drop n, List.length_take_of_le h, (List.take_append_drop n xs).symm⟩

theorem header_turnDoes (hf : f.stage = .header) : TurnDoes c f (pollTurn c f) := by
  rcases Nat.lt_or_ge f.rxfifo.length (c.srcW + c.extraW) with hshort | hlong
  · rw [turn_header_short hf hshort]
    exact .blocked fun hc => hshort.trans_le (rxDepth_bounds hc).2.1
  · obtain ⟨head, rest, hhead, hq⟩ := exists_append_of_le hlong
    obtain ⟨src, extra, hsrc, rfl⟩ := exists_append_of_le (Nat.le_of_add_right_le hhead.ge)
    have hextra : extra.length = c.extraW := by rw [List.length_append] at hhead; omega
    rw [turn_header_full hf hq hsrc hextra]
    exact .goesOn (fun bytes => turn_header_full (f := f.feed bytes) hf (by simp [Frt.feed, hq]) hsrc hextra)
      (by simp [Frt.turnsLeft, FrtStage.stagesLeft, hq, hf]; omega) nofun

theorem payload_turnDoes (hf : f.stage = .payload) : TurnDoes c f (pollTurn c f) := by
  rcases Nat.lt_or_ge c.payloadCap (f.len.toNat - (1 + c.srcW + c.extraW)) with hover | hcap
  · rw [turn_payload_over hf hover]
    exact .goesOn (fun bytes => turn_payload_over (f := f.feed bytes) hf hover)
      (by simp [Frt.turnsLeft, FrtStage.stagesLeft, hf]) fun _ => by simp
  rcases Nat.lt_or_ge f.rxfifo.length (f.len.toNat - (1 + c.srcW + c.extraW)) with hshort | hlong
  · rw [turn_payload_short hf hcap hshort]
    exact .blocked fun hc => hshort.trans_le (hcap.trans (rxDepth_bounds hc).2.2)
  · obtain ⟨body, rest, hbody, hq⟩ := exists_append_of_le hlong
    rw [← hbody] at hcap
    rw [turn_payload_full hf hq hbody hcap]
    exact .goesOn (fun bytes => turn_payload_full (f := f.feed bytes) hf (by simp [Frt.feed, hq]) hbody hcap)
      (by simp [Frt.turnsLeft, FrtStage.stagesLeft, hq, hf]) nofun

theorem resultOf_mem (t b : Byte) : resultOf t b ∈ [.frame, .badsum, .failLen, .failApi, .failCap] := by
  unfold resultOf
  split <;> decide

theorem checksum_turnDoes (hf : f.stage = .checksum) : TurnDoes c f (pollTurn c f) := by
  cases hq : f.rxfifo with
  | nil =>
    rw [turn_checksum_nil hf hq]
    exact .blocked fun hc => by have := rxDepth_bounds hc; simp [hq]; omega
  | cons b rest =>
    rw [turn_checksum_cons hf hq]
    exact .concludes (fun bytes => turn_checksum_cons (f := f.feed bytes) hf (congrArg (· ++ bytes) hq)) rfl
      fun _ => resultOf_mem _ _

theorem failure_turnDoes (hf : f.stage = .failure) : TurnDoes c f (pollTurn c f) := by
  rw [turn_failure hf]
  exact .concludes (g := { f with stage := .awaitStart }) (fun bytes => turn_failure (f := f.feed bytes) hf) rfl
    fun hnamed => List.mem_cons_of_mem _ (List.mem_cons_of_mem _ (hnamed hf))

/-- What a turn does, whatever the stage. -/
theorem turnDoes (c : Config) (f : Frt) : TurnDoes c f (pollTurn c f) := by
  cases hf : f.stage with
  | awaitStart => exact awaitStart_turnDoes hf
  | length => exact length_turnDoes hf
  | apiId => exact apiId_turnDoes hf
  | header => exact header_turnDoes hf
  | payload => exact payload_turnDoes hf
  | checksum => exact checksum_turnDoes hf
  | failure => exact failure_turnDoes hf

/-! ## What every POLL does -/

/-- Enough turns of the loop end it. -/
theorem Polled.pollLoop {e : PollEnd} (h : Polled c f e) {fuel : Nat} (hfuel : f.turnsLeft < fuel) :
    pollLoop fuel c f = some e := by
  induction h generalizing fuel with
  | @goOn f g e hturn _ ih =>
    obtain ⟨n, rfl⟩ := Nat.exists_eq_add_one_of_ne_zero (Nat.ne_zero_of_lt hfuel)
    have hdoes := turnDoes c f
    rw [hturn] at hdoes
    cases hdoes with
    | goesOn _ fewer _ =>
      rw [Machine.pollLoop, hturn]
      exact ih (by omega)
  | done hturn =>
    obtain ⟨n, rfl⟩ := Nat.exists_eq_add_one_of_ne_zero (Nat.ne_zero_of_lt hfuel)
    rw [Machine.pollLoop, hturn]

theorem stagesLeft_lt (g : FrtStage) : g.stagesLeft < 7 := by cases g <;> decide

/-- The state in which a POLL of state `s` ends. -/
def State.endPoll (s : State) (e : PollEnd) : State := answer e.value { s with frt := e.frt }

theorem exec_frtPoll (s : State) : exec .frtPoll s = .next (s.endPoll (poll s.cfg s.frt)) := rfl

/-- Settles O46: the chain of stage functions is a run of turns, and of these there are no more than the bound. -/
theorem pollIsTheLoopOfItsTurns : Obligations.PollIsTheLoopOfItsTurns :=
  ⟨fun a b => ⟨decode_frt 0 a b, rfl⟩, fun s =>
    ⟨_, (Polled.poll s.cfg s.frt).pollLoop (Nat.add_lt_add_left (stagesLeft_lt _) _), exec_frtPoll s⟩⟩

/-- The turns decide the end of a POLL. -/
theorem Polled.poll_eq {e : PollEnd} (h : Polled c f e) : Machine.poll c f = e :=
  Option.some.inj (((Polled.poll c f).pollLoop (Nat.lt_add_one _)).symm.trans (h.pollLoop (Nat.lt_add_one _)))

theorem poll_of_goOn {g : Frt} (h : pollTurn c f = .goOn g) : poll c f = poll c g :=
  Polled.poll_eq (.goOn h (.poll c g))

theorem poll_of_done {g : Frt} {v : Value} (h : pollTurn c f = .done g v) : poll c f = { frt := g, value := v } :=
  Polled.poll_eq (.done h)

/-- What a POLL from `f` may do (43 R263). -/
inductive PollDoes (c : Config) (f : Frt) : PollEnd → Prop
  /-- it answers 0: bytes that arrive later lead to where they would have led before it, and there is room for one -/
  | blocked {g : Frt} (fed : ∀ bytes, poll c (f.feed bytes) = poll c (g.feed bytes)) (stage : g.stage ≠ .failure)
      (room : c.wf = true → g.rxfifo.length < c.rxDepth) : PollDoes c f { frt := g, value := 0 }
  /-- it gives a verdict: bytes that wait behind the attempt make no difference to it -/
  | concludes {g : Frt} (fed : ∀ bytes, poll c (f.feed bytes) = { frt := g.feed bytes, value := verdict g.result })
      (stage : g.stage = .awaitStart) (named : f.failureNamed →
        g.result ∈ [.frame, .badsum, .failLen, .failApi, .failCap]) :
      PollDoes c f { frt := g, value := verdict g.result }

/-- What a POLL does, by its turns. -/
theorem Polled.pollDoes {e : PollEnd} (h : Polled c f e) : PollDoes c f e := by
  induction h with
  | @goOn f g e hturn _ ih =>
    have hdoes := turnDoes c f
    rw [hturn] at hdoes
    cases hdoes with
    | goesOn hfed _ hnamed =>
      cases ih with
      | blocked fed stage room => exact .blocked (fun bytes => (poll_of_goOn (hfed bytes)).trans (fed bytes)) stage room
      | concludes fed stage named =>
        exact .concludes (fun bytes => (poll_of_goOn (hfed bytes)).trans (fed bytes)) stage fun _ => named hnamed
  | @done f g v hturn =>
    have hdoes := turnDoes c f
    rw [hturn] at hdoes
    cases hdoes with
    | blocked room => exact .blocked (fun _ => rfl) (pollTurn_done_stage hturn) room
    | concludes fed stage named => exact .concludes (fun bytes => poll_of_done (fed bytes)) stage named

namespace PollDoes

variable {e : PollEnd}

/-- A POLL that answers 0 may as well not have been (43 R271). -/
theorem fed_of_blocked (h : PollDoes c f e) (hvalue : e.value = 0) (bytes : List Byte) :
    poll c (f.feed bytes) = poll c (e.frt.feed bytes) := by
  cases h with
  | blocked fed => exact fed bytes
  | concludes => exact absurd hvalue (verdict_ne_zero _)

/-- A stage waits for no more bytes than the queue holds (43 R261). -/
theorem room_of_blocked (h : PollDoes c f e) (hvalue : e.value = 0) (hc : c.wf = true) :
    e.frt.rxfifo.length < c.rxDepth := by
  cases h with
  | blocked _ _ room => exact room hc
  | concludes => exact absurd hvalue (verdict_ne_zero _)

/-- One POLL never concludes two attempts (43 R263): bytes behind the concluded one stay. -/
theorem fed_of_concluded (h : PollDoes c f e) (hvalue : e.value ≠ 0) (bytes : List Byte) :
    poll c (f.feed bytes) = { frt := e.frt.feed bytes, value := e.value } := by
  cases h with
  | blocked => exact absurd rfl hvalue
  | concludes fed => exact fed bytes

/-- The value a POLL answers, and the result and the stage with it. -/
theorem verdict_or_zero (h : PollDoes c f e) (hf : f.failureNamed) : e.frt.stage ≠ .failure
    ∧ (e.value = 0 ∨ e.frt.stage = .awaitStart ∧ (e.value, e.frt.result) ∈ [(0x13, FrtResult.frame),
      (0x21, FrtResult.badsum), (0x31, FrtResult.failLen), (0x41, FrtResult.failApi), (0x51, FrtResult.failCap)]) := by
  cases h with
  | blocked _ stage => exact ⟨stage, .inl rfl⟩
  | concludes _ stage named =>
    exact ⟨by rw [stage]; nofun, .inr ⟨stage, List.mem_map_of_mem (f := fun r => (verdict r, r)) (named hf)⟩⟩

end PollDoes

/-- What a POLL does. -/
theorem pollDoes (c : Config) (f : Frt) : PollDoes c f (poll c f) := (Polled.poll c f).pollDoes

/-- Settles O47: the second POLL overwrites the response of the first. -/
theorem blockedPollLosesNoProgress : Obligations.BlockedPollLosesNoProgress := by
  intro s t bytes hexec hvalue
  obtain rfl := Host.Outcome.next.inj ((exec_frtPoll s).symm.trans hexec)
  exact congrArg (fun e => Host.Outcome.next (s.endPoll e)) ((pollDoes s.cfg s.frt).fed_of_blocked hvalue bytes).symm

/-- Settles O48. -/
theorem pollAnswersAVerdictOrZero : Obligations.PollAnswersAVerdictOrZero := by
  intro s t hstage hexec
  obtain rfl := Host.Outcome.next.inj ((exec_frtPoll s).symm.trans hexec)
  exact ⟨rfl, (pollDoes s.cfg s.frt).verdict_or_zero fun hf => absurd hf hstage⟩

end Sys2Proof.Machine
end

section
/-! SUPPORT. Received radio frames (30 R117, 43 R281): what one POLL makes of a whole frame, and of one with a byte
changed; and that a POLL after each byte leads where one POLL after the last would. -/

namespace Sys2Proof.Machine

variable {c : Config} {f : Frt}

/-! ## The sum of a frame (43 R269, R278) -/

theorem sumBytes_cons (t x : Byte) (xs : List Byte) : sumBytes t (x :: xs) = sumBytes (t + x) xs := rfl

theorem sumBytes_left_inj {t u : Byte} (xs : List Byte) : sumBytes t xs = sumBytes u xs ↔ t = u := by
  induction xs generalizing t u with
  | nil => rfl
  | cons x xs ih => rw [sumBytes_cons, sumBytes_cons, ih, add_left_inj]

/-- One byte changed changes the sum. -/
theorem sumBytes_set_ne {xs : List Byte} {k : Nat} {b : Byte} (t : Byte) (hk : k < xs.length) (hb : xs[k]? ≠ some b) :
    sumBytes t (xs.set k b) ≠ sumBytes t xs := by
  induction xs generalizing t k with
  | nil => exact absurd hk (Nat.not_lt_zero k)
  | cons x xs ih =>
    cases k with
    | zero =>
      rw [List.set_cons_zero, sumBytes_cons, sumBytes_cons, ne_eq, sumBytes_left_inj, add_right_inj]
      exact fun h => hb (congrArg some h.symm)
    | succ k => exact ih (t + x) (Nat.lt_of_succ_lt_succ hk) hb

/-- The test of the checksum byte as a test of the whole sum (43 R269). -/
theorem eq_checksumOf_iff_sum (body : List Byte) (x : Byte) :
    x = checksumOf (sumBytes 0 body) ↔ sumBytes 0 (body ++ [x]) = 0xFF := by
  rw [sumBytes_append, checksumOf, eq_sub_iff_add_eq']
  rfl

theorem resultOf_checksumOf (t : Byte) : resultOf t (checksumOf t) = .frame := if_pos rfl

theorem resultOf_badsum {body : List Byte} {x : Byte} (h : sumBytes 0 (body ++ [x]) ≠ 0xFF) :
    resultOf (sumBytes 0 body) x = .badsum :=
  if_neg ((eq_checksumOf_iff_sum body x).not.2 h)

/-- The checksum byte of a frame as a number. -/
theorem checksumOf_sumBytes (body : List Byte) :
    checksumOf (sumBytes 0 body) = BitVec.ofNat 8 (255 - (body.map BitVec.toNat).sum % 256) := by
  apply BitVec.eq_of_toNat_eq
  have hzero : (0 : Byte).toNat = 0 := rfl
  rw [checksumOf_toNat, sumBytes_toNat, hzero, BitVec.toNat_ofNat]
  omega

/-! ## One POLL over a whole frame -/

section Frame

variable {hi lo x : Byte} {src extra payload rest : List Byte}

/-- The unit once a frame that carries the expected identifier has been read to its checksum byte. -/
def Frt.received (f : Frt) (len : BitVec 16) (api : Byte) (src extra payload : List Byte) (cks : Byte) : Frt :=
  { f with
    stage := .awaitStart
    sum := sumBytes 0 (api :: (src ++ extra ++ payload))
    len := len
    api := api
    src := cellSetMany f.src 0 src
    extra := cellSetMany f.extra 0 extra
    paylen := BitVec.ofNat 9 payload.length
    payload := cellSetMany f.payload 0 payload
    cks := cks
    result := resultOf (sumBytes 0 (api :: (src ++ extra ++ payload))) cks
    rxfifo := [] }

/-- A POLL that finds a start marker and an acceptable length goes on with the identifier. -/
theorem poll_marker_length (hf : f.stage = .awaitStart) (hq : f.rxfifo = 0x7E :: hi :: lo :: rest)
    (hmin : 1 + c.srcW + c.extraW ≤ 256 * hi.toNat + lo.toNat) :
    poll c f = poll c { f with stage := .apiId, sum := 0, result := .none, len := hi ++ lo, rxfifo := rest } := by
  rw [poll_of_goOn (turn_awaitStart_cons hf hq), if_pos rfl, poll_of_goOn (turn_length_cons rfl rfl),
    if_neg (Nat.not_lt.2 hmin)]

/-- A frame that carries another identifier fails at once (43 R266). -/
theorem poll_wrong_api {b : Byte} (hf : f.stage = .awaitStart) (hq : f.rxfifo = 0x7E :: hi :: lo :: b :: rest)
    (hmin : 1 + c.srcW + c.extraW ≤ 256 * hi.toNat + lo.toNat) (hb : b ≠ c.rxApi) :
    (poll c f).frt.stage = .awaitStart ∧ (poll c f).value = verdict .failApi := by
  rw [poll_marker_length hf hq hmin, poll_of_goOn (turn_apiId_cons rfl rfl), if_neg hb, poll_of_done (turn_failure rfl)]
  exact ⟨rfl, rfl⟩

/-- A frame that carries the expected identifier is read to its end, and its checksum byte decides. -/
theorem poll_frame (hf : f.stage = .awaitStart)
    (hq : f.rxfifo = 0x7E :: hi :: lo :: c.rxApi :: (src ++ extra ++ payload ++ [x]))
    (hsrc : src.length = c.srcW) (hextra : extra.length = c.extraW) (hcap : payload.length ≤ c.payloadCap)
    (hlen : 256 * hi.toNat + lo.toNat = 1 + c.srcW + c.extraW + payload.length) :
    poll c f = { frt := f.received (hi ++ lo) c.rxApi src extra payload x
                 value := verdict (resultOf (sumBytes 0 (c.rxApi :: (src ++ extra ++ payload))) x) } := by
  have hpayload : payload.length = (hi ++ lo : BitVec 16).toNat - (1 + c.srcW + c.extraW) := by
    rw [append_toNat]
    omega
  have hsum : sumBytes 0 (c.rxApi :: (src ++ extra ++ payload))
      = sumBytes (sumBytes (0 + c.rxApi) (src ++ extra)) payload := sumBytes_append _ _ _
  rw [poll_marker_length hf hq (by omega), poll_of_goOn (turn_apiId_cons rfl rfl), if_pos rfl,
    poll_of_goOn (turn_header_full rfl (List.append_assoc ..) hsrc hextra),
    poll_of_goOn (turn_payload_full rfl rfl hpayload hcap), poll_of_done (turn_checksum_cons rfl rfl),
    Frt.received, hsum]

/-- Bytes of the number that a declared length leaves are the fields of some frame. -/
theorem exists_fields {n : Nat} {xs : List Byte} (hxs : xs.length = c.srcW + c.extraW + n + 1) :
    ∃ src extra payload x, xs = src ++ extra ++ payload ++ [x]
      ∧ src.length = c.srcW ∧ extra.length = c.extraW ∧ payload.length = n := by
  obtain ⟨src, ys, hsrc, rfl⟩ := exists_append_of_le (n := c.srcW) (xs := xs) (by omega)
  rw [List.length_append] at hxs
  obtain ⟨extra, zs, hextra, rfl⟩ := exists_append_of_le (n := c.extraW) (xs := ys) (by omega)
  rw [List.length_append] at hxs
  obtain ⟨payload, last, hpayload, rfl⟩ := exists_append_of_le (n := n) (xs := zs) (by omega)
  rw [List.length_append] at hxs
  obtain ⟨x, rfl⟩ := List.length_eq_one_iff.1 (show last.length = 1 by omega)
  exact ⟨src, extra, payload, x, by simp, hsrc, hextra, hpayload⟩

/-- A frame of the declared length whose sum is wrong is read to its end and rejected (43 R269). -/
theorem poll_wrong_sum {n : Nat} (hf : f.stage = .awaitStart) (hq : f.rxfifo = 0x7E :: hi :: lo :: c.rxApi :: rest)
    (hlen : 256 * hi.toNat + lo.toNat = 1 + c.srcW + c.extraW + n) (hcap : n ≤ c.payloadCap)
    (hrest : rest.length = c.srcW + c.extraW + n + 1) (hsum : sumBytes 0 (c.rxApi :: rest) ≠ 0xFF) :
    (poll c f).frt.stage = .awaitStart ∧ (poll c f).value = verdict .badsum := by
  obtain ⟨src, extra, payload, x, rfl, hsrc, hextra, rfl⟩ := exists_fields hrest
  rw [poll_frame hf hq hsrc hextra hcap hlen, resultOf_badsum hsum]
  exact ⟨rfl, rfl⟩

end Frame

/-! ## The frame of 30 R117 -/

section RxFrame

variable {src extra payload : List Byte}

theorem headerWidths_le (h : c.wf = true) : c.srcW ≤ 8 ∧ c.extraW ≤ 8 := by
  simp_all [Config.wf, Config.variantOk]

theorem rxBody_length (c : Config) (src extra payload : List Byte) :
    (rxBody c src extra payload).length = 1 + src.length + extra.length + payload.length := by
  simp [rxBody]
  omega

/-- The marker, the declared length, the identifier, and what the length leaves. -/
theorem rxFrame_eq (c : Config) (src extra payload : List Byte) : rxFrame c src extra payload =
    0x7E :: BitVec.ofNat 8 ((rxBody c src extra payload).length / 256)
      :: BitVec.ofNat 8 (rxBody c src extra payload).length
      :: c.rxApi :: (src ++ extra ++ payload ++ [checksumOf (sumBytes 0 (rxBody c src extra payload))]) := by
  rw [checksumOf_sumBytes]
  simp [rxFrame, rxBody]

/-- The two length bytes give the length back. -/
theorem length_of_bytes {n : Nat} (hn : n < 65536) :
    256 * (BitVec.ofNat 8 (n / 256)).toNat + (BitVec.ofNat 8 n).toNat = n := by
  rw [BitVec.toNat_ofNat, BitVec.toNat_ofNat]
  omega

/-- The declared length of a frame of legal widths (30 R117). -/
theorem rxFrame_length_bytes (hc : c.wf = true) (hsrc : src.length = c.srcW) (hextra : extra.length = c.extraW)
    (hcap : payload.length ≤ c.payloadCap) :
    256 * (BitVec.ofNat 8 ((rxBody c src extra payload).length / 256)).toNat
      + (BitVec.ofNat 8 (rxBody c src extra payload).length).toNat = 1 + c.srcW + c.extraW + payload.length := by
  have hwidths := headerWidths_le hc
  have hpayload := payloadCap_le hc
  rw [rxBody_length, hsrc, hextra]
  exact length_of_bytes (by omega)

/-- The sum of a frame from the identifier through the checksum byte. -/
theorem sumBytes_rxFrame (c : Config) (src extra payload : List Byte) : sumBytes 0
    (c.rxApi :: (src ++ extra ++ payload ++ [checksumOf (sumBytes 0 (rxBody c src extra payload))])) = 0xFF :=
  (eq_checksumOf_iff_sum (rxBody c src extra payload) _).1 rfl

/-- One POLL over a whole frame. -/
theorem poll_rxFrame (hc : c.wf = true) (hf : f.stage = .awaitStart) (hq : f.rxfifo = rxFrame c src extra payload)
    (hsrc : src.length = c.srcW) (hextra : extra.length = c.extraW) (hcap : payload.length ≤ c.payloadCap) :
    ∃ len cks, poll c f = { frt := f.received len c.rxApi src extra payload cks, value := 0x13 }
      ∧ resultOf (sumBytes 0 (c.rxApi :: (src ++ extra ++ payload))) cks = .frame
      ∧ len.toNat = 1 + src.length + extra.length + payload.length
      ∧ (rxFrame c src extra payload).getLast? = some cks := by
  have hlen := rxFrame_length_bytes hc hsrc hextra hcap
  have hresult : resultOf (sumBytes 0 (c.rxApi :: (src ++ extra ++ payload)))
    (checksumOf (sumBytes 0 (rxBody c src extra payload))) = .frame := resultOf_checksumOf _
  rw [rxFrame_eq] at hq ⊢
  have hread := poll_frame hf hq hsrc hextra hcap hlen
  rw [hresult, verdict_frame] at hread
  exact ⟨_, _, hread, hresult, by rw [append_toNat, hlen, hsrc, hextra],
    List.getLast?_concat (l := _ :: _ :: _ :: _ :: (src ++ extra ++ payload))⟩

/-- Settles O50: another identifier fails at once; any other byte changed changes the sum, and what is queued is still a
frame of the declared length. -/
theorem decoderRejectsEveryChangedByte : Obligations.DecoderRejectsEveryChangedByte := by
  intro s src extra payload frame j b hc hstage hsrc hextra hcap hframe hj hlt hne hq
  have hlen := rxFrame_length_bytes hc hsrc hextra hcap
  have hsum := sumBytes_rxFrame s.cfg src extra payload
  rw [hframe, rxFrame_eq] at hq hne hlt
  set data := src ++ extra ++ payload ++ [checksumOf (sumBytes 0 (rxBody s.cfg src extra payload))] with hdata
  have hdata_length : data.length = s.cfg.srcW + s.cfg.extraW + payload.length + 1 := by
    simp [hdata, hsrc, hextra]
    omega
  obtain ⟨i, rfl⟩ := Nat.exists_eq_add_of_le' hj
  refine ⟨_, exec_frtPoll s, ?_⟩
  cases i with
  | zero =>
    obtain ⟨hend, hvalue⟩ := poll_wrong_api hstage hq (by omega) fun h => hne (h ▸ rfl)
    exact ⟨hend, congrArg (Response.mk .ok) hvalue⟩
  | succ i =>
    have hchanged : sumBytes 0 (s.cfg.rxApi :: data.set i b) ≠ 0xFF :=
      hsum ▸ sumBytes_set_ne (0 + s.cfg.rxApi) (by simpa using hlt) (by simpa using hne)
    obtain ⟨hend, hvalue⟩ := poll_wrong_sum hstage hq hlen hcap (List.length_set.trans hdata_length) hchanged
    exact ⟨hend, by simp [State.endPoll, hvalue]⟩

end RxFrame

/-! ## Bytes delivered one at a time (43 R281(a)) -/

section Delivered

variable {s : State}

theorem exec_frtRxb_room (hroom : s.frt.rxfifo.length < s.cfg.rxDepth) (b : Byte) : exec (.frtRxb b) s =
    .next (answer (queueAnswer (s.frt.rxfifo.length + 1)) { s with frt := s.frt.feed [b] }) :=
  congrArg Host.Outcome.next (if_neg hroom.ne)

/-- The state that a POLL leaves once `bytes` have arrived. -/
def State.polled (s : State) (bytes : List Byte) : State := s.endPoll (poll s.cfg (s.frt.feed bytes))

theorem runOps_delivered_cons (hroom : s.frt.rxfifo.length < s.cfg.rxDepth) (b : Byte) (bytes : List Byte) :
    runOps (delivered (b :: bytes)) s = runOps (delivered bytes) (s.polled [b]) := by
  have hdelivered : delivered (b :: bytes) = .frtRxb b :: .frtPoll :: delivered bytes := rfl
  rw [hdelivered, runOps, exec_frtRxb_room hroom]
  rfl

/-- Every POLL answers OK (43 R263). -/
theorem resp_polled {bytes : List Byte} {v : Value} (hvalue : (s.polled bytes).resp.value = v) :
    (s.polled bytes).resp = { status := .ok, value := v } :=
  congrArg (Response.mk .ok) hvalue

/-- A POLL that answered 0 may as well not have been. -/
theorem polled_polled {xs : List Byte} (hvalue : (s.polled xs).resp.value = 0) (ys : List Byte) :
    (s.polled xs).polled ys = s.polled (xs ++ ys) := by
  have hfed := (pollDoes s.cfg (s.frt.feed xs)).fed_of_blocked hvalue ys
  rw [feed_feed] at hfed
  exact congrArg s.endPoll hfed.symm

/-- Where a POLL takes the last byte of a sequence, one over an earlier part of it has answered 0: a verdict would have
left the bytes that came after. -/
theorem polled_value_of_taken {xs ys : List Byte} (hempty : (s.polled (xs ++ ys)).frt.rxfifo = []) (hys : ys ≠ []) :
    (s.polled xs).resp.value = 0 := by
  by_contra hvalue
  have hfed := (pollDoes s.cfg (s.frt.feed xs)).fed_of_concluded hvalue ys
  rw [feed_feed] at hfed
  rw [State.polled, hfed] at hempty
  exact hys (List.append_eq_nil_iff.1 hempty).2

/-- A POLL after each byte leads where one POLL after the last of them would, up to where that would have taken all. -/
theorem runOps_delivered {bytes rest : List Byte} (hc : s.cfg.wf = true) (hroom : s.frt.rxfifo.length < s.cfg.rxDepth)
    (hempty : (s.polled (bytes ++ rest)).frt.rxfifo = []) (hne : bytes ≠ []) :
    runOps (delivered bytes) s = some (s.polled bytes) := by
  induction bytes generalizing s with
  | nil => exact absurd rfl hne
  | cons b bytes ih =>
    rw [runOps_delivered_cons hroom]
    cases bytes with
    | nil => rfl
    | cons b' bytes =>
      have hvalue : (s.polled [b]).resp.value = 0 := polled_value_of_taken (ys := b' :: bytes ++ rest) hempty nofun
      have hroom' := (pollDoes s.cfg (s.frt.feed [b])).room_of_blocked hvalue hc
      rw [ih (s := s.polled [b]) hc hroom' (by rwa [polled_polled hvalue]) nofun, polled_polled hvalue]
      rfl

/-- What the first cells hold once bytes have been written to them. -/
theorem some_cellGet_cellSetMany_zero {α : Type} (m : List (Nat × α)) {vs : List α} {k : Nat} (hk : k < vs.length)
    (d : α) : some ((cellGet (cellSetMany m 0 vs) k).getD d) = vs[k]? := by
  rw [cellGet_cellSetMany_zero, if_pos hk, List.getElem?_eq_getElem hk, Option.getD_some]

/-- Settles O49: one POLL over the whole frame reads it, and takes its last byte. -/
theorem decoderReceivesEveryFrame : Obligations.DecoderReceivesEveryFrame := by
  intro s src extra payload frame hc hstage hempty hsrc hextra hcap hframe
  obtain ⟨len, cks, hread, hresult, hlen, hcks⟩ := poll_rxFrame (f := s.frt.feed frame) hc hstage
    (by rw [Frt.feed, hempty, List.nil_append, hframe]) hsrc hextra hcap
  rw [← hframe] at hcks
  have hne : frame ≠ [] := by rintro rfl; cases hcks
  have hroom : s.frt.rxfifo.length < s.cfg.rxDepth := by
    rw [hempty]
    exact Nat.zero_lt_two.trans_le (rxDepth_bounds hc).1
  have hfrt : (s.polled frame).frt = _ := congrArg PollEnd.frt hread
  have htaken : (s.polled frame).frt.rxfifo = [] := congrArg Frt.rxfifo hfrt
  refine ⟨fun k hk => ?before, _, runOps_delivered (rest := []) hc hroom (by rwa [List.append_nil]) hne,
    resp_polled (congrArg PollEnd.value hread), ?fields⟩
  case before =>
    have hsplit := List.take_append_drop k frame
    rcases Nat.eq_zero_or_pos k with rfl | hk0
    · exact ⟨s, rfl, nofun⟩
    · refine ⟨_, runOps_delivered hc hroom (by rwa [hsplit]) (by simp [hne, hk0.ne']), fun _ => ?_⟩
      exact resp_polled (polled_value_of_taken (by rwa [hsplit]) (by simpa using hk))
  case fields =>
    have hcap' := hcap.trans (payloadCap_le hc)
    simp only [load, State.cells, hfrt]
    refine ⟨hresult, rfl, rfl, hlen, rfl, ?paylen, hcks, fun k hk => some_cellGet_cellSetMany_zero _ hk _,
      fun k hk => some_cellGet_cellSetMany_zero _ hk _, fun k hk => some_cellGet_cellSetMany_zero _ hk _⟩
    case paylen => exact (BitVec.toNat_ofNat ..).trans (Nat.mod_eq_of_lt (by omega))

end Delivered

end Sys2Proof.Machine
end

section
/-! SUPPORT. Unit FRT as its host and its stream see it (43 R262, R272 to R280): the byte that is queued, the reads, the
encoder's operands, the frame that FRT.SEND emits, and the reset of the decoder. -/

namespace Sys2Proof.Machine

/-! ## FRT.RXB and FRT.RST (43 R262, R280) -/

theorem exec_frtRxb_full {s : State} (hfull : s.frt.rxfifo.length = s.cfg.rxDepth) (b : Byte) : exec (.frtRxb b) s =
    .next (raise .cap { s with sys := { s.sys with err := s.sys.err ||| rxovrBit } }) :=
  congrArg Host.Outcome.next (if_pos hfull)

/-- RXOVR and CAP together (43 R262). -/
theorem rxovr_or_cap (e : BitVec 6) : e ||| rxovrBit ||| Status.cap.sticky = e ||| 0b110000#6 := by
  rw [BitVec.or_assoc]
  rfl

/-- The answer is the queue's length wherever 16 bits hold it. -/
theorem queueAnswer_toNat {n : Nat} (hn : n < 65536) : (queueAnswer n).toNat = n := by
  rw [queueAnswer, if_pos hn, BitVec.toNat_ofNat, Nat.mod_eq_of_lt hn]

/-- Settles O44, by whether there is room. -/
theorem frtRxbQueuesAByte : Obligations.FrtRxbQueuesAByte := by
  refine ⟨fun a b => ⟨decode_frt 15 a b, rfl⟩, fun b s => ⟨fun hroom => ?room, fun hfull => ?full⟩⟩
  case room => exact ⟨_, exec_frtRxb_room hroom b, queueAnswer_toNat⟩
  case full => rw [exec_frtRxb_full hfull, raise, rxovr_or_cap]

/-- Settles O54. -/
theorem frtRstResetsTheDecoder : Obligations.FrtRstResetsTheDecoder :=
  ⟨fun a b => ⟨decode_frt 7 a b, rfl⟩, fun _ => rfl⟩

/-! ## The reads (43 R272, R273, R279) -/

section Fhdr

variable {c : Config} {a : Nat}

theorem fhdrReg_src (ha : 8 ≤ a ∧ a < 8 + c.srcW) : fhdrReg c a = some (.src (a - 8)) := by
  unfold fhdrReg
  repeat rw [if_neg (by omega)]
  rw [if_pos ha]

/-- The extra bytes come after at most eight source bytes. -/
theorem fhdrReg_extra (hsrc : c.srcW ≤ 8) (ha : 16 ≤ a ∧ a < 16 + c.extraW) :
    fhdrReg c a = some (.extra (a - 16)) := by
  unfold fhdrReg
  repeat rw [if_neg (by omega)]
  rw [if_pos ha]

theorem fhdrReg_none (hsrc : c.srcW ≤ 8)
    (ha : 5 ≤ a ∧ a < 8 ∨ 8 + c.srcW ≤ a ∧ a < 16 ∨ 16 + c.extraW ≤ a) : fhdrReg c a = none := by
  unfold fhdrReg
  repeat rw [if_neg (by omega)]

theorem exec_frtRfrm_some {s : State} {x : Byte} {r : FhdrReg} (h : fhdrReg s.cfg x.toNat = some r) :
    exec (.frtRfrm x) s = .next (answer (readFhdr r s) s) := by
  show execFrtRfrm x s = _
  rw [execFrtRfrm, h]

theorem exec_frtRfrm_none {s : State} {x : Byte} (h : fhdrReg s.cfg x.toNat = none) :
    exec (.frtRfrm x) s = .next (raise .range s) := by
  show execFrtRfrm x s = _
  rw [execFrtRfrm, h]

end Fhdr

/-- Settles O51, operation by operation and address by address. -/
theorem frtReads : Obligations.FrtReads := by
  refine ⟨fun a b => ⟨decode_frt 1 a b, rfl⟩, fun a b => ⟨decode_frt 8 a b, rfl⟩, fun a b => ⟨decode_frt 6 a b, rfl⟩,
    fun s => ⟨?result, rfl, rfl, rfl, rfl, fun a hsrc => ⟨fun ha => ?src, fun ha => ?extra, fun ha => ?outside⟩,
      fun k => ⟨fun hk => ?payload, fun hk => ?beyond⟩, ?stage⟩⟩
  case result => exact exec_frtRfrm_some (r := .result) rfl
  case src => exact exec_frtRfrm_some (fhdrReg_src ha)
  case extra => exact exec_frtRfrm_some (fhdrReg_extra hsrc ha)
  case outside => exact exec_frtRfrm_none (fhdrReg_none hsrc ha)
  case payload => exact congrArg Host.Outcome.next (if_neg (Nat.not_le.2 hk))
  case beyond => exact congrArg Host.Outcome.next (if_pos hk)
  case stage => rfl

/-! ## The encoder's operands (43 R274 to R276) -/

/-- Byte `k` of a value is its bits from `8 * k` on. -/
theorem byteAt_eq_shift {w : Nat} (v : BitVec w) (k : Nat) : byteAt v k = (v >>> (8 * k)).setWidth 8 := by
  ext j hj
  simp [byteAt]

/-- The bits of a value with a byte replaced. -/
theorem getLsbD_setByteAt {w : Nat} (v : BitVec w) (k : Nat) (x : Byte) {j : Nat} (hj : j < w) :
    (setByteAt v k x).getLsbD j = if j / 8 = k then x.getLsbD (j - 8 * k) else v.getLsbD j := by
  have hmask (i : Nat) : (0xFF#8).getLsbD i = decide (i < 8) := BitVec.getLsbD_allOnes
  have hbit : (setByteAt v k x).getLsbD j = (v.getLsbD j && !(!decide (j < 8 * k) && decide (j - 8 * k < 8))
      || (!decide (j < 8 * k) && x.getLsbD (j - 8 * k))) := by
    simp [setByteAt, hmask, hj]
  rw [hbit]
  rcases Nat.lt_or_ge j (8 * k) with hbelow | hge
  · simp [hbelow, show j / 8 ≠ k by omega]
  rcases Nat.lt_or_ge (j - 8 * k) 8 with hin | habove
  · simp [Nat.not_lt.2 hge, hin, show j / 8 = k by omega]
  · simp [Nat.not_lt.2 habove, x.getLsbD_of_ge _ habove, show j / 8 ≠ k by omega]

/-- The byte replaced. -/
theorem byte_setByteAt {w : Nat} (v : BitVec w) {k : Nat} (x : Byte) (hk : 8 * k + 8 ≤ w) :
    (setByteAt v k x >>> (8 * k)).setWidth 8 = x := by
  ext j hj
  rw [BitVec.getElem_setWidth, BitVec.getLsbD_ushiftRight, getLsbD_setByteAt v k x (by omega), if_pos (by omega),
    Nat.add_sub_cancel_left, BitVec.getLsbD_eq_getElem]

/-- Settles O52, operation by operation. -/
theorem frtEncoderStores : Obligations.FrtEncoderStores := by
  refine ⟨fun a b => ⟨decode_frt 2 a b, rfl⟩, fun a b => ⟨decode_frt 3 a b, rfl⟩, fun a b => ⟨decode_frt 4 a b, rfl⟩,
    fun k b s => ⟨fun hk hw => ?wdst, fun hk => ?wdstRange, rfl, fun hk => ?wpay, fun hk => ?wpayRange⟩⟩
  case wdst =>
    exact ⟨_, congrArg Host.Outcome.next (if_neg (Nat.not_le.2 hk)), rfl, byte_setByteAt _ b (by omega),
      fun j hj hne => (getLsbD_setByteAt _ _ b hj).trans (if_neg hne)⟩
  case wdstRange => exact congrArg Host.Outcome.next (if_pos hk)
  case wpay =>
    exact ⟨_, congrArg Host.Outcome.next (if_neg (Nat.not_le.2 hk)), writesOneCell_store .frtTx _ b s,
      registers_store .frtTx _ b s⟩
  case wpayRange => exact congrArg Host.Outcome.next (if_pos hk)

/-! ## FRT.SEND (43 R277) -/

/-- The destination, most significant byte first. -/
theorem map_byteAt_reverse_range (v : BitVec 64) (n : Nat) : (List.range n).reverse.map (byteAt v)
    = (List.range n).map fun k => (v >>> (8 * (n - 1 - k))).setWidth 8 := by
  apply List.ext_getElem
  · simp
  · intro k hk _
    simp [byteAt_eq_shift]

theorem sendBody_eq (n : Nat) (s : State) : sendBody n s = [s.cfg.txApi, s.cfg.txFid]
    ++ (List.range s.cfg.dstW).map (fun k => (s.frt.dst >>> (8 * (s.cfg.dstW - 1 - k))).setWidth 8)
    ++ s.cfg.txMid ++ [s.frt.opt] ++ (List.range n).map (fun k => load .frtTx k s) := by
  rw [sendBody, map_byteAt_reverse_range, loadMany]
  simp only [Nat.zero_add]

theorem sendFrame_eq (n : Nat) (s : State) : sendFrame n s = [0x7E#8, (sendLength s.cfg n >>> 8).setWidth 8,
    (sendLength s.cfg n).setWidth 8] ++ sendBody n s
      ++ [BitVec.ofNat 8 (255 - ((sendBody n s).map BitVec.toNat).sum % 256)] := by
  have hhigh : highByte (sendLength s.cfg n) = _ := byteAt_eq_shift (sendLength s.cfg n) 1
  have hlow : lowByte (sendLength s.cfg n) = _ := byteAt_eq_shift (sendLength s.cfg n) 0
  rw [sendFrame, hhigh, hlow, checksumOf_sumBytes]
  rfl

theorem exec_frtSend_fits {n : BitVec 9} {s : State} (hcap : n.toNat ≤ s.cfg.payloadCap) : exec (.frtSend n) s =
    .next (answer (sendLength s.cfg n.toNat)
      { s with frt := { s.frt with txlog := s.frt.txlog ++ sendFrame n.toNat s } }) :=
  congrArg Host.Outcome.next (if_neg (Nat.not_lt.2 hcap))

/-- Settles O53, by whether the size is within the capacity. -/
theorem frtSendEmitsTheFrame : Obligations.FrtSendEmitsTheFrame := by
  refine ⟨fun a b => ⟨decode_frt 5 a b, rfl⟩, fun n s => ⟨fun hcap => ?refused, fun hcap => ?sent⟩⟩
  case refused => exact congrArg Host.Outcome.next (if_pos hcap)
  case sent =>
    refine ⟨sendLength s.cfg n.toNat, sendBody n.toNat s, rfl, sendBody_eq n.toNat s, ?_⟩
    rw [exec_frtSend_fits hcap, sendFrame_eq]
    simp only [List.append_assoc]

end Sys2Proof.Machine
end

section
/-! SUPPORT. Unit CPF as its host sees it (44 R311 to R323): what a pushed byte does in each stage and variant, the reads,
the reset of the decoder, and the packet that CPF.ENC emits. -/

namespace Sys2Proof.Machine

variable {s : State} {x : Byte}

/-! ## CPF.RSIZE, CPF.RBUF, CPF.RST, CPF.RSTG (44 R318, R319, R322, R323) -/

/-- The verdict in bit 15, above the six bits of the size (44 R318). -/
theorem sizeWord_eq : ∀ (valid : Bool) (n : BitVec 6),
    (bitValue valid <<< 15) ||| n.setWidth 16 = BitVec.ofNat 16 ((if valid then 0x8000 else 0) + n.toNat) := by
  decide

/-- Settles O56, operation by operation. -/
theorem cpfReadsAndReset : Obligations.CpfReadsAndReset := by
  refine ⟨fun a b => ⟨decode_cpf 1 a b, rfl⟩, fun a b => ⟨decode_cpf 2 a b, rfl⟩, fun a b => ⟨decode_cpf 5 a b, rfl⟩,
    fun a b => ⟨decode_cpf 6 a b, rfl⟩, fun s => ⟨?rsize, fun k => ⟨fun hk => ?rbuf, fun hk => ?rbufRange⟩, rfl, ?rstg⟩⟩
  case rsize =>
    rw [← sizeWord_eq]
    rfl
  case rbuf => exact congrArg Host.Outcome.next (if_neg (Nat.not_lt.2 hk))
  case rbufRange => exact congrArg Host.Outcome.next (if_pos hk)
  case rstg => rfl

/-! ## CPF.PUSH, stage by stage (44 R311 to R315) -/

/-- The state without the verdict that the push before gave (44 R311). -/
def State.withoutVerdict (s : State) : State := { s with cpf := { s.cpf with valid := false } }

@[simp] theorem load_withoutVerdict (sp : Space) (a : Nat) (s : State) : load sp a s.withoutVerdict = load sp a s := by
  cases sp <;> rfl

theorem exec_cpfPush_awaitSize (hstage : s.cpf.stage = .awaitSize) :
    exec (.cpfPush x) s = .next (pushSize x s.withoutVerdict) := by
  show execCpfPush x s = _
  simp only [execCpfPush, hstage, State.withoutVerdict]

theorem exec_cpfPush_data (hstage : s.cpf.stage = .data) : exec (.cpfPush x) s = .next (pushData x s.withoutVerdict) := by
  show execCpfPush x s = _
  simp only [execCpfPush, hstage, State.withoutVerdict]

theorem exec_cpfPush_xor (hstage : s.cpf.stage = .integrity) (hxor : s.cfg.cpfVariant = .xor) :
    exec (.cpfPush x) s = .next (pushXor x s.withoutVerdict) := by
  show execCpfPush x s = _
  simp only [execCpfPush, hstage, hxor, State.withoutVerdict]

theorem exec_cpfPush_crc32 (hstage : s.cpf.stage = .integrity) (hcrc : s.cfg.cpfVariant = .crc32) :
    exec (.cpfPush x) s = .next (pushCrc32 x s.withoutVerdict) := by
  show execCpfPush x s = _
  simp only [execCpfPush, hstage, hcrc, State.withoutVerdict]

/-- A declared size: the registers that start a packet (44 R311). -/
theorem pushSize_accepts (hx : 1 ≤ x.toNat ∧ x.toNat ≤ 32) : pushSize x s = answer 0 { s with cpf := { s.cpf with
    size := x.setWidth 6, count := 0, icnt := 0, stage := .data
    chk := if s.cfg.cpfVariant = .xor then x else s.cpf.chk } } := by
  refine (if_pos hx).trans ?_
  cases hv : s.cfg.cpfVariant <;> simp

/-- Any other byte is ignored. -/
theorem pushSize_ignores (hx : x.toNat = 0 ∨ 32 < x.toNat) : pushSize x s = answer 0 s :=
  if_neg (by rw [cpfMax]; omega)

/-- The check byte after a payload byte: the CRC32 variant leaves it alone (44 R313). -/
theorem pushData_eq (x : Byte) (s : State) : pushData x s = answer 0 { s with cpf := { s.cpf with
    buf := cellSet s.cpf.buf s.cpf.count.toNat x
    count := s.cpf.count + 1
    chk := if s.cfg.cpfVariant = .xor then s.cpf.chk ^^^ x else s.cpf.chk
    stage := if s.cpf.count + 1 = s.cpf.size then .integrity else .data } } := by
  rw [pushData]
  cases hv : s.cfg.cpfVariant <;> simp [store, State.withCells, State.cells]

/-- An integrity byte of the CRC32 variant before the fourth (44 R315). -/
theorem pushCrc32_stores (h : s.cpf.icnt.toNat < 3) : pushCrc32 x s = answer 0 { s with cpf := { s.cpf with
    buf := cellSet s.cpf.buf (s.cpf.size.toNat + s.cpf.icnt.toNat) x, icnt := s.cpf.icnt + 1 } } :=
  if_pos h

/-- The CRC of the packet in the buffer is the one that was received with it (44 R315). -/
def State.crcMatches (s : State) : Bool := crc32 (packetBytes s) = receivedCrc s

/-- What the test reads. -/
theorem crcMatches_congr {t : State} (hsize : t.cpf.size = s.cpf.size)
    (hload : ∀ a, load .cpfBuf a t = load .cpfBuf a s) : t.crcMatches = s.crcMatches :=
  decide_eq_decide.2 (by simp only [packetBytes, receivedCrc, loadMany, hsize, hload])

theorem pushCrc32_size (x : Byte) (s : State) : (pushCrc32 x s).cpf.size = s.cpf.size := by
  unfold pushCrc32; simp only; split <;> rfl

/-- The test is the same before and after the registers are written. -/
theorem crcMatches_pushCrc32 (x : Byte) (s : State) : (pushCrc32 x s).crcMatches
    = (store .cpfBuf (s.cpf.size.toNat + s.cpf.icnt.toNat) x s).crcMatches :=
  crcMatches_congr (pushCrc32_size x s) fun a => by rw [load_pushCrc32, load_store]

/-- The fourth integrity byte of the CRC32 variant, which decides (44 R315). -/
theorem pushCrc32_decides (h : s.cpf.icnt.toNat = 3) : pushCrc32 x s = answer (bitValue (pushCrc32 x s).crcMatches)
    { s with cpf := { s.cpf with
      buf := cellSet s.cpf.buf (s.cpf.size.toNat + s.cpf.icnt.toNat) x
      icnt := 0, stage := .awaitSize, valid := (pushCrc32 x s).crcMatches } } := by
  rw [crcMatches_pushCrc32]
  exact if_neg (by omega)

/-- A number from its four bytes, least significant first. -/
theorem uint32le_toNat (b0 b1 b2 b3 : Byte) : (uint32le b0 b1 b2 b3).toNat
    = b0.toNat + 256 * b1.toNat + 65536 * b2.toNat + 16777216 * b3.toNat := by
  rw [uint32le, BitVec.toNat_append, ← Nat.shiftLeft_add_eq_or_of_lt b0.isLt,
    BitVec.toNat_append, ← Nat.shiftLeft_add_eq_or_of_lt b1.isLt,
    BitVec.toNat_append, ← Nat.shiftLeft_add_eq_or_of_lt b2.isLt]
  simp only [Nat.shiftLeft_eq]
  omega

/-- The test in numbers (44 R315). -/
theorem crcMatches_iff (s : State) : s.crcMatches = true ↔
    (crc32 (BitVec.ofNat 8 s.cpf.size.toNat :: loadMany .cpfBuf 0 s.cpf.size.toNat s)).toNat
      = (load .cpfBuf s.cpf.size.toNat s).toNat + 256 * (load .cpfBuf (s.cpf.size.toNat + 1) s).toNat
        + 65536 * (load .cpfBuf (s.cpf.size.toNat + 2) s).toNat
        + 16777216 * (load .cpfBuf (s.cpf.size.toNat + 3) s).toNat := by
  rw [State.crcMatches, decide_eq_true_iff, ← BitVec.toNat_inj, receivedCrc, uint32le_toNat, packetBytes,
    BitVec.ofNat_toNat]
  rfl

/-- A push into the payload writes its one cell (20 R75). -/
theorem writesOneCell_pushData (x : Byte) (s : State) :
    WritesOneCell .cpfBuf s.cpf.count.toNat x s (pushData x s.withoutVerdict) := by
  refine ⟨?_, fun sp a hother => ?_, fun _ => rfl⟩
  · rw [load_pushData, if_pos ⟨rfl, rfl⟩]
  · exact (load_pushData x _ sp a).trans ((if_neg hother).trans (load_withoutVerdict sp a s))

/-- A push of an integrity byte of the CRC32 variant writes its one cell. -/
theorem writesOneCell_pushCrc32 (x : Byte) (s : State) :
    WritesOneCell .cpfBuf (s.cpf.size.toNat + s.cpf.icnt.toNat) x s (pushCrc32 x s.withoutVerdict) := by
  refine ⟨?_, fun sp a hother => ?_, fun k => ?_⟩
  · rw [load_pushCrc32, if_pos ⟨rfl, rfl⟩]
  · exact (load_pushCrc32 x _ sp a).trans ((if_neg hother).trans (load_withoutVerdict sp a s))
  · rw [loadBit, pushCrc32_bsf, pushCrc32_epoch]
    rfl

/-- Settles O55, stage by stage. -/
theorem cpfPushDecodesOneByte : Obligations.CpfPushDecodesOneByte := by
  refine ⟨fun a b => ⟨decode_cpf 0 a b, rfl⟩, fun b s => ⟨fun hstage hb => ?size, fun hstage hb => ?ignored,
    fun hstage => ?data, fun hstage hxor => ?xor, fun hstage hcrc => ?crc32⟩⟩
  case size =>
    rw [exec_cpfPush_awaitSize hstage, pushSize_accepts hb, BitVec.ofNat_toNat]
    rfl
  case ignored =>
    rw [exec_cpfPush_awaitSize hstage, pushSize_ignores hb]
    rfl
  case data =>
    refine ⟨_, exec_cpfPush_data hstage, writesOneCell_pushData b s, ?_⟩
    rw [pushData_eq]
    rfl
  case xor =>
    rw [exec_cpfPush_xor hstage hxor, pushXor, bitValue_eq]
    simp [State.withoutVerdict]
  case crc32 =>
    refine ⟨_, exec_cpfPush_crc32 hstage hcrc, writesOneCell_pushCrc32 b s, fun hicnt => ?stores, fun hicnt => ?decides⟩
    case stores => exact (congrArg registers (pushCrc32_stores (x := b) (s := s.withoutVerdict) hicnt)).trans rfl
    case decides =>
      have hsize : (pushCrc32 b s.withoutVerdict).cpf.size = s.cpf.size := pushCrc32_size b _
      refine ⟨_, hsize ▸ crcMatches_iff _, ?_⟩
      rw [← bitValue_eq]
      exact (congrArg registers (pushCrc32_decides (x := b) (s := s.withoutVerdict) hicnt)).trans rfl

/-! ## CPF.WPAY and CPF.ENC (44 R320, R321) -/

/-- The integrity code of the XOR variant starts from the size byte (44 R321). -/
theorem integrityCode_xor (n : Byte) (p : List Byte) : integrityCode .xor (n :: p) = [xorBytes n p] := by
  show [xorBytes (0#8 ^^^ n) p] = _
  rw [BitVec.zero_xor]

/-- The integrity code of the CRC32 variant, least significant byte first (44 R321). -/
theorem integrityCode_crc32 (bytes : List Byte) : integrityCode .crc32 bytes =
    [(crc32 bytes).setWidth 8, (crc32 bytes >>> 8).setWidth 8, (crc32 bytes >>> 16).setWidth 8,
      (crc32 bytes >>> 24).setWidth 8] := by
  simp only [integrityCode, byteAt_eq_shift]
  rfl

/-- How many bytes the integrity code has. -/
def codeLength (v : CpfVariant) : Nat :=
  match v with
  | .xor => 1
  | .crc32 => 4

@[simp] theorem integrityCode_length (v : CpfVariant) (bytes : List Byte) :
    (integrityCode v bytes).length = codeLength v := by
  cases v <;> rfl

theorem encFrame_length (n : Byte) (s : State) :
    (encFrame n s).length = n.toNat + (1 + codeLength s.cfg.cpfVariant) := by
  simp [encFrame]
  omega

/-- The sizes that are refused (44 R321). -/
theorem encSize_refused_iff (n : Byte) : n = 0 ∨ n.toNat > cpfMax ↔ n.toNat = 0 ∨ 32 < n.toNat := by
  rw [← BitVec.toNat_inj, cpfMax]
  rfl

theorem exec_cpfEnc_refused {n : Byte} (hn : n.toNat = 0 ∨ 32 < n.toNat) : exec (.cpfEnc n) s = .next (raise .range s) :=
  congrArg Host.Outcome.next (if_pos ((encSize_refused_iff n).2 hn))

theorem exec_cpfEnc_accepted {n : Byte} (hn : 1 ≤ n.toNat ∧ n.toNat ≤ 32) : exec (.cpfEnc n) s =
    .next (answer (BitVec.ofNat 16 (n.toNat + (1 + codeLength s.cfg.cpfVariant)))
      { s with cpf := { s.cpf with txlog := s.cpf.txlog ++ encFrame n s } }) := by
  rw [← encFrame_length]
  exact congrArg Host.Outcome.next (if_neg (by rw [encSize_refused_iff]; omega))

/-- Settles O57, by the cell written, and by the size and the variant. -/
theorem cpfEncoder : Obligations.CpfEncoder := by
  refine ⟨fun a b => ⟨decode_cpf 3 a b, rfl⟩, fun a b => ⟨decode_cpf 4 a b, rfl⟩,
    fun k b s => ⟨fun hk => ?wpay, fun hk => ?wpayRange⟩, fun n s p c hp hc => ⟨exec_cpfEnc_refused, ?_⟩⟩
  case wpay =>
    exact ⟨_, congrArg Host.Outcome.next (if_neg (Nat.not_le.2 hk)), writesOneCell_store .cpfTx _ b s,
      registers_store .cpfTx _ b s⟩
  case wpayRange => exact congrArg Host.Outcome.next (if_pos hk)
  have hpayload : loadMany .cpfTx 0 n.toNat s = p := by
    rw [hp, loadMany]
    simp only [Nat.zero_add]
  refine ⟨fun hn hxor => ?xor, fun hn hcrc => ?crc32⟩
  case xor =>
    rw [exec_cpfEnc_accepted hn, encFrame, hpayload, hxor, integrityCode_xor, List.append_assoc]
    rfl
  case crc32 =>
    rw [exec_cpfEnc_accepted hn, encFrame, hpayload, hcrc, integrityCode_crc32, ← hc, List.append_assoc]
    rfl

end Sys2Proof.Machine
end

section
/-! SUPPORT. Compact packets (44 R321, R325): how the integrity code tells two payloads apart, and the decoder followed
byte by byte through a packet, up to the verdict of its last byte. -/

namespace Sys2Proof.Machine

/-! ## The integrity code of a changed payload (44 R314 to R316) -/

/-- A fold that is injective in its value and in each element tells a list from the list with an element changed. -/
theorem foldl_set_ne {α β : Type} {f : β → α → β} (hvalue : ∀ x, Function.Injective (f · x))
    (helement : ∀ c, Function.Injective (f c)) {xs : List α} {k : Nat} {x : α} (c : β) (hk : k < xs.length)
    (hx : xs[k]? ≠ some x) : (xs.set k x).foldl f c ≠ xs.foldl f c := by
  have hinjective : ∀ ys : List α, Function.Injective (ys.foldl f ·) := by
    intro ys
    induction ys with
    | nil => exact Function.injective_id
    | cons y ys ih => exact ih.comp (hvalue y)
  induction xs generalizing c k with
  | nil => exact absurd hk (Nat.not_lt_zero k)
  | cons y ys ih =>
    cases k with
    | zero => exact fun h => hx (congrArg some (helement c (hinjective ys h)).symm)
    | succ k => exact ih (f c y) (Nat.lt_of_succ_lt_succ hk) hx

/-- One byte changed changes the check byte of the XOR variant. -/
theorem xorBytes_set_ne {xs : List Byte} {k : Nat} {b : Byte} (c : Byte) (hk : k < xs.length) (hb : xs[k]? ≠ some b) :
    xorBytes c (xs.set k b) ≠ xorBytes c xs :=
  foldl_set_ne (f := (· ^^^ ·)) (fun _ _ _ => (BitVec.xor_left_inj _).1) (fun _ _ _ => (BitVec.xor_right_inj _).1) c hk hb

/-- The highest bit after a shift is the lowest before: the polynomial 0xEDB88320 has its highest bit set. -/
theorem crc32Shift_msb (c : BitVec 32) : (crc32Shift c).getLsbD 31 = c.getLsbD 0 := by
  rw [crc32Shift]
  cases hlsb : c.getLsbD 0 <;> simp

/-- A shift loses nothing: the highest bit after it is the bit shifted out. -/
theorem crc32Shift_injective : Function.Injective crc32Shift := by
  intro c d h
  have hlsb : c.getLsbD 0 = d.getLsbD 0 := by rw [← crc32Shift_msb, h, crc32Shift_msb]
  have hshift : c >>> 1 = d >>> 1 := by
    rw [crc32Shift, crc32Shift, hlsb] at h
    split at h
    · exact (BitVec.xor_left_inj _).1 h
    · exact h
  apply BitVec.eq_of_getLsbD_eq
  intro i hi
  cases i with
  | zero => exact hlsb
  | succ i => simpa [Nat.add_comm] using congrArg (·.getLsbD i) hshift

/-- The eight shifts of a byte lose nothing either (44 R316). -/
theorem crc32_eightShifts_injective : Function.Injective fun c => (List.range 8).foldl (fun c _ => crc32Shift c) c :=
  crc32Shift_injective.iterate 8

/-- One byte changed changes the CRC32. -/
theorem crc32_set_ne {xs : List Byte} {k : Nat} {b : Byte} (hk : k < xs.length) (hb : xs[k]? ≠ some b) :
    crc32 (xs.set k b) ≠ crc32 xs := by
  have hvalue (x : Byte) : Function.Injective (crc32Byte · x) := fun c d h =>
    (BitVec.xor_left_inj _).1 (crc32_eightShifts_injective h)
  have helement (c : BitVec 32) : Function.Injective (crc32Byte c) := fun x y h => by
    have hwide : x.setWidth 32 = y.setWidth 32 := (BitVec.xor_right_inj _).1 (crc32_eightShifts_injective h)
    simpa using congrArg (BitVec.setWidth 8) hwide
  exact fun h => foldl_set_ne hvalue helement _ hk hb ((BitVec.xor_left_inj _).1 h)

/-- The four bytes of a number give it back, and no others do. -/
theorem eq_uint32le_iff (c : BitVec 32) (b0 b1 b2 b3 : Byte) :
    c = uint32le b0 b1 b2 b3 ↔ [b0, b1, b2, b3] = [byteAt c 0, byteAt c 1, byteAt c 2, byteAt c 3] := by
  have hbyte (k : Nat) : (byteAt c k).toNat = c.toNat / 2 ^ (8 * k) % 256 := by
    rw [byteAt, BitVec.extractLsb'_toNat, Nat.shiftRight_eq_div_pow]
  simp only [List.cons.injEq, and_true, ← BitVec.toNat_inj, uint32le_toNat, hbyte]
  omega

/-- A received number is the CRC32 exactly if its bytes are the integrity code (44 R315, R321). -/
theorem crc32_eq_uint32le_iff (bytes : List Byte) (b0 b1 b2 b3 : Byte) :
    crc32 bytes = uint32le b0 b1 b2 b3 ↔ [b0, b1, b2, b3] = integrityCode .crc32 bytes :=
  eq_uint32le_iff (crc32 bytes) b0 b1 b2 b3

/-- The integrity code of a packet with one payload byte changed is another one, in either variant. -/
theorem integrityCode_set_ne (v : CpfVariant) (n : Byte) {p : List Byte} {k : Nat} {b : Byte} (hk : k < p.length)
    (hb : p[k]? ≠ some b) : integrityCode v (n :: p.set k b) ≠ integrityCode v (n :: p) := by
  cases v with
  | xor =>
    rw [integrityCode_xor, integrityCode_xor]
    exact fun h => xorBytes_set_ne n hk hb (List.singleton_inj.1 h)
  | crc32 =>
    intro h
    have hcrc : crc32 (n :: p) = crc32 (n :: p.set k b) :=
      ((crc32_eq_uint32le_iff _ _ _ _ _).2 h).trans ((crc32_eq_uint32le_iff _ _ _ _ _).2 rfl).symm
    exact crc32_set_ne (xs := n :: p) (k := k + 1) (Nat.succ_lt_succ hk) hb hcrc.symm

/-! ## The buffer of the decoder -/

theorem loadMany_add (sp : Space) (a m n : Nat) (s : State) :
    loadMany sp a (m + n) s = loadMany sp a m s ++ loadMany sp (a + m) n s := by
  simp only [loadMany, List.range_add, List.map_append, List.map_map, Function.comp_def, Nat.add_assoc]

/-- The cells of a list are the cells of its parts. -/
theorem loadMany_parts {sp : Space} {s : State} {xs ys : List Byte}
    (h : loadMany sp 0 (xs ++ ys).length s = xs ++ ys) :
    loadMany sp 0 xs.length s = xs ∧ loadMany sp xs.length ys.length s = ys := by
  rw [List.length_append, loadMany_add, Nat.zero_add] at h
  exact List.append_inj h (loadMany_length ..)

/-- One more cell written after the ones that hold `xs`. -/
theorem loadMany_concat {sp : Space} {s t : State} {xs : List Byte} {x : Byte} (hxs : loadMany sp 0 xs.length s = xs)
    (hload : ∀ a, load sp a t = if a = xs.length then x else load sp a s) :
    loadMany sp 0 (xs ++ [x]).length t = xs ++ [x] := by
  have hkept : loadMany sp 0 xs.length t = loadMany sp 0 xs.length s := List.map_congr_left fun k hk => by
    rw [hload, if_neg (by have := List.mem_range.1 hk; omega)]
  have hnew : loadMany sp (0 + xs.length) 1 t = [x] := by simp [loadMany, hload]
  rw [List.length_append, List.length_singleton, loadMany_add, hkept, hxs, hnew]

/-- The verdict of the CRC32 variant compares the four bytes after the payload with the code of what is before them. -/
theorem crcMatches_eq (s : State) : s.crcMatches
    = decide (loadMany .cpfBuf s.cpf.size.toNat 4 s = integrityCode .crc32 (packetBytes s)) :=
  decide_eq_decide.2 (crc32_eq_uint32le_iff _ _ _ _ _)

/-! ## The decoder within a packet -/

/-- The decoder has taken the size byte `n` and after it the bytes `xs`, of the payload and then of the integrity code,
and has answered 0 to the latest of them (44 R311 to R315). -/
structure Receiving (v : CpfVariant) (n : Byte) (xs : List Byte) (s : State) : Prop where
  variant : s.cfg.cpfVariant = v
  stage : s.cpf.stage = if xs.length < n.toNat then .data else .integrity
  size : s.cpf.size.toNat = n.toNat
  count : xs.length < n.toNat → s.cpf.count.toNat = xs.length
  icnt : s.cpf.icnt.toNat = xs.length - n.toNat
  chk : v = .xor → s.cpf.chk = xorBytes n xs
  buf : loadMany .cpfBuf 0 xs.length s = xs
  resp : s.resp = { status := .ok, value := 0 }
  valid : s.cpf.valid = false

/-- The decoder has taken a packet of the size `n` and the given payload to its last byte, and its verdict is `good`. -/
structure Concluded (n : Byte) (payload : List Byte) (good : Bool) (s : State) : Prop where
  resp : s.resp = { status := .ok, value := bitValue good }
  valid : s.cpf.valid = good
  size : s.cpf.size.toNat = n.toNat
  buf : loadMany .cpfBuf 0 n.toNat s = payload

variable {v : CpfVariant} {n : Byte} {xs : List Byte} {s d : State}

/-- A size byte starts a packet (44 R311). -/
theorem receiving_of_size (hvariant : d.cfg.cpfVariant = v) (hstage : d.cpf.stage = .awaitSize)
    (hn : 1 ≤ n.toNat ∧ n.toNat ≤ 32) : ∃ t, exec (.cpfPush n) d = .next t ∧ Receiving v n [] t := by
  refine ⟨_, exec_cpfPush_awaitSize hstage, ?_⟩
  rw [pushSize_accepts hn]
  exact {
    variant := hvariant
    stage := (if_pos hn.1).symm
    size := (BitVec.toNat_setWidth 6 n).trans (Nat.mod_eq_of_lt (by omega))
    count := fun _ => rfl
    icnt := (Nat.zero_sub _).symm
    chk := fun hxor => if_pos (hvariant.trans hxor)
    buf := rfl
    resp := rfl
    valid := rfl }

namespace Receiving

/-- A payload byte (44 R313). -/
theorem push_payload (h : Receiving v n xs s) (hn : n.toNat ≤ 32) (hlt : xs.length < n.toNat) (x : Byte) :
    ∃ t, exec (.cpfPush x) s = .next t ∧ Receiving v n (xs ++ [x]) t := by
  have hcount := h.count hlt
  have hnext : (s.cpf.count + 1).toNat = (xs ++ [x]).length := by
    rw [List.length_append, List.length_singleton]
    bv_omega
  have hlast : s.cpf.count + 1 = s.cpf.size ↔ ¬ (xs ++ [x]).length < n.toNat := by
    rw [← BitVec.toNat_inj, hnext, h.size, List.length_append, List.length_singleton]
    omega
  refine ⟨_, exec_cpfPush_data (h.stage.trans (if_pos hlt)), ?_⟩
  have hbuf := loadMany_concat (t := pushData x s.withoutVerdict) (x := x) h.buf fun a => by
    rw [load_pushData, load_withoutVerdict, ← hcount]
    simp [State.withoutVerdict]
  rw [pushData_eq] at hbuf ⊢
  exact {
    variant := h.variant
    stage := by
      show (if s.cpf.count + 1 = s.cpf.size then _ else _) = _
      simp only [hlast, ite_not]
    size := h.size
    count := fun _ => hnext
    icnt := by
      have := h.icnt
      show s.cpf.icnt.toNat = _
      rw [List.length_append, List.length_singleton]
      omega
    chk := fun hxor => by
      show (if s.cfg.cpfVariant = .xor then s.cpf.chk ^^^ x else s.cpf.chk) = _
      rw [if_pos (h.variant.trans hxor), h.chk hxor, xorBytes, xorBytes, List.foldl_append]
      rfl
    buf := hbuf
    resp := rfl
    valid := rfl }

/-- A byte of the CRC goes where the bytes before it end (44 R315). -/
theorem buf_pushCrc32 (h : Receiving .crc32 n xs s) (hge : n.toNat ≤ xs.length) (x : Byte) :
    loadMany .cpfBuf 0 (xs ++ [x]).length (pushCrc32 x s.withoutVerdict) = xs ++ [x] :=
  loadMany_concat h.buf fun a => by
    have hcell : s.cpf.size.toNat + s.cpf.icnt.toNat = xs.length := by
      rw [h.size, h.icnt]
      omega
    rw [load_pushCrc32, load_withoutVerdict, ← hcell]
    simp [State.withoutVerdict]

/-- A byte of the CRC but for the last (44 R315). -/
theorem push_crc (h : Receiving .crc32 n xs s) (hge : n.toNat ≤ xs.length) (hlt : xs.length < n.toNat + 3) (x : Byte) :
    ∃ t, exec (.cpfPush x) s = .next t ∧ Receiving .crc32 n (xs ++ [x]) t := by
  have hicnt := h.icnt
  have hpast : ¬ (xs ++ [x]).length < n.toNat := by
    rw [List.length_append]
    omega
  have hstage : s.cpf.stage = .integrity := h.stage.trans (if_neg (Nat.not_lt.2 hge))
  refine ⟨_, exec_cpfPush_crc32 hstage h.variant, ?_⟩
  have hbuf := h.buf_pushCrc32 hge x
  rw [pushCrc32_stores (s := s.withoutVerdict) (show s.cpf.icnt.toNat < 3 by omega)] at hbuf ⊢
  exact {
    variant := h.variant
    stage := hstage.trans (if_neg hpast).symm
    size := h.size
    count := fun hdata => absurd hdata hpast
    icnt := by
      show (s.cpf.icnt + 1).toNat = _
      rw [List.length_append, List.length_singleton]
      bv_omega
    chk := nofun
    buf := hbuf
    resp := rfl
    valid := rfl }

/-- Every byte but the last of a packet. -/
theorem push (h : Receiving v n xs s) (hn : n.toNat ≤ 32) (hlt : xs.length + 1 < n.toNat + codeLength v) (x : Byte) :
    ∃ t, exec (.cpfPush x) s = .next t ∧ Receiving v n (xs ++ [x]) t := by
  rcases Nat.lt_or_ge xs.length n.toNat with hpayload | hcode
  · exact h.push_payload hn hpayload x
  · cases v with
    | xor => exact absurd hlt (by rw [codeLength]; omega)
    | crc32 => exact h.push_crc hcode (Nat.lt_of_succ_lt_succ hlt) x

variable {payload : List Byte}

/-- The check byte of the XOR variant concludes a packet (44 R314). -/
theorem push_last_xor (h : Receiving .xor n payload s) (hpayload : payload.length = n.toNat) (x : Byte) :
    ∃ t, exec (.cpfPush x) s = .next t
      ∧ Concluded n payload (decide ([x] = integrityCode .xor (n :: payload))) t := by
  have hgood : s.cpf.chk ^^^ x = 0 ↔ [x] = integrityCode .xor (n :: payload) := by
    rw [integrityCode_xor, List.singleton_inj, h.chk rfl, eq_comm (a := x)]
    exact BitVec.xor_eq_zero_iff
  refine ⟨_, exec_cpfPush_xor (h.stage.trans (if_neg hpayload.not_lt)) h.variant, ?_⟩
  rw [← decide_eq_decide.2 hgood]
  exact { resp := rfl, valid := rfl, size := h.size, buf := hpayload ▸ h.buf }

/-- The fourth byte of the CRC concludes a packet (44 R315). -/
theorem push_last_crc32 {code : List Byte} (h : Receiving .crc32 n (payload ++ code) s)
    (hpayload : payload.length = n.toNat) (hcode : code.length = 3) (x : Byte) : ∃ t, exec (.cpfPush x) s = .next t
      ∧ Concluded n payload (decide (code ++ [x] = integrityCode .crc32 (n :: payload))) t := by
  have hlength : (payload ++ code).length = n.toNat + 3 := by rw [List.length_append, hpayload, hcode]
  have hicnt : s.cpf.icnt.toNat = 3 := by
    have := h.icnt
    omega
  refine ⟨_, exec_cpfPush_crc32 (h.stage.trans (if_neg (by omega))) h.variant, ?_⟩
  have hbuf := h.buf_pushCrc32 (by omega) x
  have hregisters := pushCrc32_decides (x := x) (s := s.withoutVerdict) hicnt
  have hsize : (pushCrc32 x s.withoutVerdict).cpf.size.toNat = n.toNat :=
    (congrArg BitVec.toNat (pushCrc32_size x _)).trans h.size
  set t := pushCrc32 x s.withoutVerdict
  rw [List.append_assoc] at hbuf
  obtain ⟨hpayloadBuf, hcodeBuf⟩ := loadMany_parts hbuf
  rw [hpayload] at hpayloadBuf hcodeBuf
  rw [List.length_append, hcode] at hcodeBuf
  have hbytes : packetBytes t = n :: payload := by
    rw [packetBytes, hsize, hpayloadBuf, ← BitVec.ofNat_toNat, hsize, BitVec.ofNat_toNat, BitVec.setWidth_eq]
  have hgood : t.crcMatches = decide (code ++ [x] = integrityCode .crc32 (n :: payload)) := by
    rw [crcMatches_eq, hbytes, hsize]
    exact decide_eq_decide.2 (by rw [← hcodeBuf]; rfl)
  rw [← hgood]
  exact {
    resp := congrArg (·.resp) hregisters
    valid := congrArg (·.cpf.valid) hregisters
    size := hsize
    buf := hpayloadBuf }

/-- The last byte of a packet concludes it: the verdict is whether its integrity code is the right one. -/
theorem push_last {code : List Byte} (h : Receiving v n (payload ++ code) s) (hpayload : payload.length = n.toNat)
    (hcode : code.length + 1 = codeLength v) (x : Byte) : ∃ t, exec (.cpfPush x) s = .next t
      ∧ Concluded n payload (decide (code ++ [x] = integrityCode v (n :: payload))) t := by
  cases v with
  | xor =>
    obtain rfl := List.length_eq_zero_iff.1 (Nat.succ.inj hcode)
    exact (List.append_nil payload ▸ h).push_last_xor hpayload x
  | crc32 => exact h.push_last_crc32 hpayload (Nat.succ.inj hcode) x

end Receiving

/-! ## Packets pushed into a decoder -/

theorem runOps_concat {is : List Instr} {i : Instr} {s t u : State} (hrun : runOps is s = some t)
    (hexec : exec i t = .next u) : runOps (is ++ [i]) s = some u := by
  rw [runOps_append, hrun, Option.bind_some, runOps, hexec]
  rfl

section Packet

variable {payload code : List Byte}

/-- A part of a packet that lacks at least its last byte. -/
theorem runOps_push_part (hvariant : d.cfg.cpfVariant = v) (hstage : d.cpf.stage = .awaitSize)
    (hn : 1 ≤ n.toNat ∧ n.toNat ≤ 32) (hlt : xs.length < n.toNat + codeLength v) :
    ∃ u, runOps ((n :: xs).map .cpfPush) d = some u ∧ Receiving v n xs u := by
  induction xs using List.reverseRecOn with
  | nil =>
    obtain ⟨t, hexec, ht⟩ := receiving_of_size hvariant hstage hn
    exact ⟨t, runOps_concat (is := []) rfl hexec, ht⟩
  | append_singleton xs x ih =>
    rw [List.length_append, List.length_singleton] at hlt
    obtain ⟨t, hrun, ht⟩ := ih (by omega)
    obtain ⟨u, hexec, hu⟩ := ht.push hn.2 hlt x
    refine ⟨u, ?_, hu⟩
    rw [← List.cons_append, List.map_append]
    exact runOps_concat hrun hexec

/-- A whole packet: its last byte answers whether its integrity code is the right one (44 R325). -/
theorem runOps_push_packet (hvariant : d.cfg.cpfVariant = v) (hstage : d.cpf.stage = .awaitSize)
    (hn : 1 ≤ n.toNat ∧ n.toNat ≤ 32) (hpayload : payload.length = n.toNat) (hcode : code.length = codeLength v) :
    ∃ u, runOps ((n :: (payload ++ code)).map .cpfPush) d = some u
      ∧ Concluded n payload (decide (code = integrityCode v (n :: payload))) u := by
  obtain rfl | ⟨code, x, rfl⟩ := List.eq_nil_or_concat' code
  · cases v <;> cases hcode
  rw [List.length_append, List.length_singleton] at hcode
  obtain ⟨t, hrun, ht⟩ := runOps_push_part (xs := payload ++ code) hvariant hstage hn
    (by rw [List.length_append]; omega)
  obtain ⟨u, hexec, hu⟩ := ht.push_last hpayload hcode x
  refine ⟨u, ?_, hu⟩
  rw [← List.append_assoc, ← List.cons_append, List.map_append]
  exact runOps_concat hrun hexec

/-- Before its last byte a packet is answered 0 and not signalled valid. -/
theorem runOps_push_take (hvariant : d.cfg.cpfVariant = v) (hstage : d.cpf.stage = .awaitSize)
    (hn : 1 ≤ n.toNat ∧ n.toNat ≤ 32) (hxs : xs.length = n.toNat + codeLength v) {k : Nat} (hk : 0 < k)
    (hlt : k < (n :: xs).length) : ∃ u, runOps (((n :: xs).take k).map .cpfPush) d = some u
      ∧ u.resp = { status := .ok, value := 0 } ∧ u.cpf.valid = false := by
  obtain ⟨i, rfl⟩ := Nat.exists_eq_add_of_le' hk
  have hi : (xs.take i).length < n.toNat + codeLength v := by
    rw [List.length_take]
    have := Nat.lt_of_succ_lt_succ hlt
    omega
  obtain ⟨u, hrun, hu⟩ := runOps_push_part hvariant hstage hn hi
  exact ⟨u, hrun, hu.resp, hu.valid⟩

end Packet

/-- What CPF.ENC emits when it is accepted (44 R321): the size, the payload and its integrity code. -/
theorem packet_of_cpfEnc {s t : State} {n : Byte} {packet : List Byte} (hexec : exec (.cpfEnc n) s = .next t)
    (hok : t.resp.status = .ok) (hlog : t.cpf.txlog = s.cpf.txlog ++ packet) : (1 ≤ n.toNat ∧ n.toNat ≤ 32)
      ∧ packet = n :: (loadMany .cpfTx 0 n.toNat s
        ++ integrityCode s.cfg.cpfVariant (n :: loadMany .cpfTx 0 n.toNat s)) := by
  by_cases hn : 1 ≤ n.toNat ∧ n.toNat ≤ 32
  · rw [exec_cpfEnc_accepted hn] at hexec
    obtain rfl := Host.Outcome.next.inj hexec
    exact ⟨hn, (List.append_cancel_left hlog).symm⟩
  · rw [exec_cpfEnc_refused (by omega)] at hexec
    obtain rfl := Host.Outcome.next.inj hexec
    cases hok

/-- Settles O58: the integrity code that was emitted is the right one. -/
theorem packetRoundTrip : Obligations.PacketRoundTrip := by
  intro s t d n packet hexec hok hlog hvariant hstage
  obtain ⟨hn, rfl⟩ := packet_of_cpfEnc hexec hok hlog
  set payload := loadMany .cpfTx 0 n.toNat s with hpayload
  have hlength : payload.length = n.toNat := loadMany_length ..
  have hcode := integrityCode_length s.cfg.cpfVariant (n :: payload)
  refine ⟨fun k hk => ?before, ?last⟩
  case before =>
    rcases Nat.eq_zero_or_pos k with rfl | hk0
    · exact ⟨d, rfl, nofun⟩
    · obtain ⟨u, hrun, hresp, -⟩ := runOps_push_take hvariant hstage hn
        (by rw [List.length_append, hlength, hcode]) hk0 hk
      exact ⟨u, hrun, fun _ => hresp⟩
  case last =>
    obtain ⟨u, hrun, hu⟩ := runOps_push_packet hvariant hstage hn hlength hcode
    rw [decide_eq_true rfl] at hu
    refine ⟨u, hrun, hu.resp, hu.valid, hu.size, fun k hk => ?_⟩
    rw [← loadMany_getD hk, hu.buf, hpayload, loadMany_getD hk]

/-- Settles O59: with a payload byte changed the integrity code that was emitted is no longer the right one. -/
theorem changedPacketIsRejected : Obligations.ChangedPacketIsRejected := by
  intro s t d n packet j b hexec hok hlog hvariant hstage hj hjn hne k hk hkle
  obtain ⟨hn, rfl⟩ := packet_of_cpfEnc hexec hok hlog
  set payload := loadMany .cpfTx 0 n.toNat s
  set code := integrityCode s.cfg.cpfVariant (n :: payload)
  have hlength : payload.length = n.toNat := loadMany_length ..
  have hcode : code.length = codeLength s.cfg.cpfVariant := integrityCode_length _ _
  obtain ⟨i, rfl⟩ := Nat.exists_eq_add_of_le' hj
  have hi : i < payload.length := by omega
  have hset : (n :: (payload ++ code)).set (i + 1) b = n :: (payload.set i b ++ code) := by
    rw [List.set_cons_succ, List.set_append_left _ _ hi]
  have hnePayload : payload[i]? ≠ some b := by
    rwa [List.getElem?_cons_succ, List.getElem?_append_left hi] at hne
  rw [hset]
  rcases Nat.lt_or_eq_of_le hkle with hlt | rfl
  · exact runOps_push_take hvariant hstage hn (by simp [hlength, hcode]) hk (by simpa using hlt)
  · obtain ⟨u, hrun, hu⟩ := runOps_push_packet (payload := payload.set i b) hvariant hstage hn
      (List.length_set.trans hlength) hcode
    rw [decide_eq_false (integrityCode_set_ne _ n hi hnePayload).symm] at hu
    refine ⟨u, ?_, hu.resp, hu.valid⟩
    rwa [List.take_of_length_le (by simp)]

end Sys2Proof.Machine
end

section
/-! SUPPORT. The operations of the SYS unit: what each answers, and the one register that one of them writes
(45 R340, R342 to R344). -/

namespace Sys2Proof.Machine

/-- SYS.NOP answers 0 (45 R340). -/
theorem exec_sysNop (s : State) : exec .sysNop s = .next (answer 0 s) := rfl

/-- SYS.RERR answers the error register (45 R342). -/
theorem exec_sysRerr (s : State) : exec .sysRerr s = .next (answer (s.sys.err.setWidth 16) s) := rfl

/-- SYS.CLRERR clears the bits of its mask and answers the register after clearing (45 R343). The error register is all
the unit holds, so the unit after it is built from the new value alone. -/
theorem exec_sysClrerr (s : State) (m : BitVec 6) : exec (.sysClrerr m) s =
    .next (answer ((s.sys.err &&& ~~~m).setWidth 16) { s with sys := { err := s.sys.err &&& ~~~m } }) := rfl

/-- SYS.ID answers the core's identification (45 R344). -/
theorem exec_sysId (s : State) : exec .sysId s = .next (answer 0x4F53 s) := rfl

/-- Settles O60, operation by operation: its row of the decoder (30 R109), then its equation. -/
theorem sysOperations : Obligations.SysOperations := by
  refine ⟨?nopRow, ?rerrRow, ?clrerrRow, ?idRow, fun s => ⟨?nop, ?rerr, fun m => ?clrerr, ?id⟩⟩
  case nopRow => exact fun a b => ⟨decode_sys 0 a b, rfl⟩
  case rerrRow => exact fun a b => ⟨decode_sys 2 a b, rfl⟩
  case clrerrRow => exact fun a b => ⟨decode_sys 3 a b, rfl⟩
  case idRow => exact fun a b => ⟨decode_sys 4 a b, rfl⟩
  case nop => exact exec_sysNop s
  case rerr => exact exec_sysRerr s
  case clrerr => exact exec_sysClrerr s m
  case id => exact exec_sysId s

end Sys2Proof.Machine
end

section
/-! SUPPORT. How precisely an operation refuses (60 R360, R361): said once for all 49 operations, with the status and the
state of every refusal. The rules about refusals and about the table of statuses are read off that. -/

namespace Sys2Proof.Machine

/-! ## The ways to end -/

/-- Status `st` is one that the table gives operation `i`, and a refusal of `i` with it is no exception of 60 R360: no
append that found the bit memory full, and no dropped byte. -/
structure RefusesCleanly (i : Instr) (st : Status) : Prop where
  listed : st ∈ mayAnswer i := by exact of_decide_eq_true rfl
  keeps_bits : appendsBits i = true → st ≠ .ovf := by nofun
  keeps_rxovr : ∀ x, i ≠ .frtRxb x := by nofun

/-- The ways in which operation `i` can end from state `s`, each refusal with its whole state. -/
inductive EndsPrecisely (i : Instr) (s : State) : State → Prop
  | answered {u : State} (v : Value) : EndsPrecisely i s (answer v u)
  /-- a refusal that changes nothing but its sticky bit -/
  | refused (st : Status) (h : RefusesCleanly i st := by exact {}) : EndsPrecisely i s (raise st s)
  /-- appends that found the bit memory full, and what they left of unit BSF (40 R141) -/
  | overflowed (b : Bsf) (hi : appendsBits i = true) (hb : b.ovf = true) :
      EndsPrecisely i s (raise .ovf { s with bsf := b })
  /-- a byte that finds the receive queue full (43 R262) -/
  | dropped (x : Byte) (hi : i = .frtRxb x) :
      EndsPrecisely i s (raise .cap { s with sys := { err := s.sys.err ||| rxovrBit } })

theorem EndsPrecisely.ite {i : Instr} {s t t' : State} {p : Prop} [Decidable p] (h : EndsPrecisely i s t)
    (h' : EndsPrecisely i s t') : EndsPrecisely i s (if p then t else t') := by
  split
  · exact h
  · exact h'

/-! ## Operations that append to the bit sequence -/

/-- The row of the bit-writing operations in the table of statuses (60 R361). -/
theorem busy_ovf_mem_mayAnswer {i : Instr} (h : appendsBits i = true) :
    .busy ∈ mayAnswer i ∧ .ovf ∈ mayAnswer i := by
  cases i with
  | bsfSync | bsfFlag | bsfByte | bsfFcs | bsfBuild => exact ⟨.head _, .tail _ (.head _)⟩
  | bsfAddr => exact ⟨.tail _ (.head _), .tail _ (.tail _ (.head _))⟩
  | _ => cases h

/-- BUSY is a clean refusal of a bit-writing operation. -/
theorem refusesCleanly_busy {i : Instr} (h : appendsBits i = true) : RefusesCleanly i .busy where
  listed := (busy_ovf_mem_mayAnswer h).1
  keeps_bits := nofun
  keeps_rxovr x hx := by cases hx; cases h

/-- OVF is answered exactly when one of the operation's own appends did not fit, which `bsf.ovf` then records. -/
theorem bitWriting_endsPrecisely {i : Instr} (hi : appendsBits i = true) (body : Bsf → Bsf) (value : Bsf → Value)
    (s : State) : EndsPrecisely i s (bitWriting body value s) := by
  cases h : s.afsk.state with
  | transmitting => rw [bitWriting_busy h]; exact .refused .busy (refusesCleanly_busy hi)
  | idle =>
    rw [bitWriting_idle h]
    split
    next hovf => exact .overflowed _ hi (by simp [hovf])
    next => exact .answered _

/-! ## Operations whose rule looks at a state or a stage -/

theorem execBsfRst_endsPrecisely (s : State) : ∃ t, execBsfRst s = .next t ∧ EndsPrecisely .bsfRst s t := by
  refine ⟨_, rfl, ?_⟩
  cases s.afsk.state with
  | idle => exact .answered 0
  | transmitting => exact .refused .busy

theorem execBsfBuild_endsPrecisely (s : State) : ∃ t, execBsfBuild s = .next t ∧ EndsPrecisely .bsfBuild s t := by
  refine ⟨_, rfl, ?_⟩
  cases s.afsk.state with
  | transmitting => exact .refused .busy
  | idle =>
    dsimp only
    split
    next hovf => exact .overflowed _ rfl hovf
    next => exact .answered _

/-- AFSK.TX refuses an overflowed sequence, which it only reads: its OVF is clean (42 R221). -/
theorem execAfskTx_endsPrecisely (s : State) : ∃ t, execAfskTx s = .next t ∧ EndsPrecisely .afskTx s t := by
  refine ⟨_, rfl, ?_⟩
  cases s.afsk.state with
  | idle => exact .ite (.refused .ovf) (.answered 0)
  | transmitting => exact .refused .busy

theorem execAfskEnd_endsPrecisely (s : State) : ∃ t, execAfskEnd s = .next t ∧ EndsPrecisely .afskEnd s t := by
  refine ⟨_, rfl, ?_⟩
  cases s.afsk.state with
  | idle => exact .answered 0
  | transmitting => exact .answered 0

theorem execAfskTick_endsPrecisely (s : State) : ∃ t, execAfskTick s = .next t ∧ EndsPrecisely .afskTick s t := by
  refine ⟨_, rfl, ?_⟩
  cases s.afsk.state with
  | idle => exact .answered 0
  | transmitting => exact .answered _

theorem execFrtRfrm_endsPrecisely (a : Byte) (s : State) :
    ∃ t, execFrtRfrm a s = .next t ∧ EndsPrecisely (.frtRfrm a) s t := by
  refine ⟨_, rfl, ?_⟩
  cases fhdrReg s.cfg a.toNat with
  | some r => exact .answered _
  | none => exact .refused .range

/-- Every stage answers OK, whatever the byte: a bad packet is a verdict and no refusal (44 R311 to R315). -/
theorem execCpfPush_endsPrecisely (x : Byte) (s : State) :
    ∃ t, execCpfPush x s = .next t ∧ EndsPrecisely (.cpfPush x) s t := by
  refine ⟨_, rfl, ?_⟩
  cases s.cpf.stage with
  | awaitSize => exact .ite (.answered 0) (.answered 0)
  | data => exact .answered 0
  | integrity =>
    cases s.cfg.cpfVariant with
    | xor => exact .answered _
    | crc32 => exact .ite (.answered 0) (.answered _)

/-! ## How every operation ends -/

/-- Every operation ends in one of these ways: the refusals of each rule, in the order in which it makes them. -/
theorem exec_endsPrecisely (i : Instr) (s : State) : ∃ t, exec i s = .next t ∧ EndsPrecisely i s t := by
  cases i with
  | bsfRst => exact execBsfRst_endsPrecisely s
  | bsfSync => exact ⟨_, rfl, bitWriting_endsPrecisely rfl ..⟩
  | bsfFlag => exact ⟨_, rfl, bitWriting_endsPrecisely rfl ..⟩
  | bsfByte x => exact ⟨_, rfl, bitWriting_endsPrecisely rfl ..⟩
  | bsfAddr slot last => exact ⟨_, rfl, .ite (.refused .range) (bitWriting_endsPrecisely rfl ..)⟩
  | bsfFcs => exact ⟨_, rfl, bitWriting_endsPrecisely rfl ..⟩
  | bsfBuild => exact execBsfBuild_endsPrecisely s
  | bsfWaddr slot k x => exact ⟨_, rfl, .ite (.answered 0) (.refused .range)⟩
  | bsfWmsg k x => exact ⟨_, rfl, .answered 0⟩
  | bsfSetlen n => exact ⟨_, rfl, .ite (.refused .range) (.answered 0)⟩
  | bsfSetpath n => exact ⟨_, rfl, .ite (.refused .range) (.answered 0)⟩
  | bsfRbit k => exact ⟨_, rfl, .ite (.refused .range) (.answered _)⟩
  | bsfRlen => exact ⟨_, rfl, .answered _⟩
  | bsfRcrc => exact ⟨_, rfl, .answered _⟩
  | bsfRaddr slot k => exact ⟨_, rfl, .ite (.answered _) (.refused .range)⟩
  | bsfRmsg k => exact ⟨_, rfl, .answered _⟩
  | miceWin a x => exact ⟨_, rfl, .ite (.refused .range) (.answered 0)⟩
  | miceEnc => exact ⟨_, rfl, .ite (.answered _) (.refused .range)⟩
  | micePut => exact ⟨_, rfl, .ite (.answered _) (.refused .busy)⟩
  | miceRout a => exact ⟨_, rfl, .ite (.refused .range) (.ite (.answered _) (.answered _))⟩
  | miceRin a => exact ⟨_, rfl, .ite (.refused .range) (.answered _)⟩
  | afskTx => exact execAfskTx_endsPrecisely s
  | afskEnd => exact execAfskEnd_endsPrecisely s
  | afskStat => exact ⟨_, rfl, .answered _⟩
  | afskTime => exact ⟨_, rfl, .answered _⟩
  | afskRout sel =>
    exact ⟨_, rfl, .ite (.answered _) (.ite (.answered _) (.ite (.answered _) (.ite (.answered _) (.refused .range))))⟩
  | afskTick => exact execAfskTick_endsPrecisely s
  | frtPoll => exact ⟨_, rfl, .answered _⟩
  | frtRfrm a => exact execFrtRfrm_endsPrecisely a s
  | frtWdst k x => exact ⟨_, rfl, .ite (.refused .range) (.answered 0)⟩
  | frtWopt x => exact ⟨_, rfl, .answered 0⟩
  | frtWpay k x => exact ⟨_, rfl, .ite (.refused .range) (.answered 0)⟩
  | frtSend n => exact ⟨_, rfl, .ite (.refused .cap) (.answered _)⟩
  | frtRstg => exact ⟨_, rfl, .answered _⟩
  | frtRst => exact ⟨_, rfl, .answered 0⟩
  | frtRpay k => exact ⟨_, rfl, .ite (.refused .range) (.answered _)⟩
  | frtRxb x => exact ⟨_, rfl, .ite (.dropped x rfl) (.answered _)⟩
  | cpfPush x => exact execCpfPush_endsPrecisely x s
  | cpfRsize => exact ⟨_, rfl, .answered _⟩
  | cpfRbuf k => exact ⟨_, rfl, .ite (.refused .range) (.answered _)⟩
  | cpfWpay k x => exact ⟨_, rfl, .ite (.refused .range) (.answered 0)⟩
  | cpfEnc n => exact ⟨_, rfl, .ite (.refused .range) (.answered _)⟩
  | cpfRst => exact ⟨_, rfl, .answered 0⟩
  | cpfRstg => exact ⟨_, rfl, .answered _⟩
  | sysNop => exact ⟨_, rfl, .answered 0⟩
  | sysReset => exact ⟨_, rfl, .answered 0⟩
  | sysRerr => exact ⟨_, rfl, .answered _⟩
  | sysClrerr m => exact ⟨_, rfl, .answered _⟩
  | sysId => exact ⟨_, rfl, .answered _⟩

/-- What a next state of an operation can be, with the state of a refusal in full. -/
theorem endsPrecisely_of_exec {i : Instr} {s t : State} (h : exec i s = .next t) : EndsPrecisely i s t := by
  obtain ⟨t', ht', hends⟩ := exec_endsPrecisely i s
  obtain rfl : t' = t := Host.Outcome.next.inj (ht'.symm.trans h)
  exact hends

/-- The status of an end is OK or one that the table gives the operation (60 R361). -/
theorem EndsPrecisely.status {i : Instr} {s t : State} (h : EndsPrecisely i s t) :
    t.resp.status = .ok ∨ t.resp.status ∈ mayAnswer i := by
  cases h with
  | answered v => exact .inl rfl
  | refused st h => exact .inr h.listed
  | overflowed b hi _ => exact .inr (busy_ovf_mem_mayAnswer hi).2
  | dropped x hi => subst hi; exact .inr (List.mem_singleton_self _)

/-! ## The statements -/

/-- Settles O15, from the ways an operation can end: a clean refusal is `raise` of the state before, and the other two
are the exceptions of 60 R360. -/
theorem refusalsArePrecise : Obligations.RefusalsArePrecise := by
  intro i s t h hst
  cases endsPrecisely_of_exec h with
  | answered v => exact absurd rfl hst
  | refused st hc =>
    refine ⟨?_, fun _ => rfl, fun ⟨ha, hovf⟩ => absurd hovf (hc.keeps_bits ha)⟩
    split
    next x => exact absurd rfl (hc.keeps_rxovr x)
    next => simp [raise]
  | overflowed b hi hb =>
    refine ⟨?_, fun hn => absurd ⟨hi, rfl⟩ hn, fun _ => hb⟩
    split
    next => cases hi
    next => simp [raise]
  | dropped x hi =>
    subst hi
    exact ⟨by simp [raise, rxovrBit, Status.sticky, BitVec.or_assoc], fun _ => rfl, fun ⟨ha, _⟩ => nomatch ha⟩

/-- Settles O16, from the ways an operation can end. -/
theorem statusesAreThoseOfTheTable : Obligations.StatusesAreThoseOfTheTable :=
  ⟨fun _ _ _ h => (endsPrecisely_of_exec h).status, rfl, rfl⟩

end Sys2Proof.Machine
end

section
/-! SUPPORT. What no operation may touch: the configuration record (70 R393), which not even SYS.RESET changes, and the
bit sequence during a transmission (20 R79, 70 R398). -/

namespace Sys2Proof.Machine

/-! ## SYS.RESET and the configuration (45 R341, 70 R393) -/

theorem exec_sysReset (s : State) : exec .sysReset s =
    .next (answer 0 { State.resetWith s.cfg (s.epoch + 1) with inputs := s.inputs }) := rfl

/-- Settles O11, from the state that SYS.RESET leaves. -/
theorem sysResetKeepsConfigurationAndCommands : Obligations.SysResetKeepsConfigurationAndCommands := by
  intro s t h
  obtain rfl := Host.Outcome.next.inj ((exec_sysReset s).symm.trans h)
  exact ⟨rfl, rfl, rfl⟩

theorem exec_cfg {i : Instr} {s t : State} (h : exec i s = .next t) : t.cfg = s.cfg := by
  by_cases hi : i = .sysReset
  · subst hi
    obtain ⟨hcfg, -, -⟩ := sysResetKeepsConfigurationAndCommands s t h
    exact hcfg
  · exact ((opEnds_of_exec h).sameUnits hi).cfg

theorem issue_cfg {c : Command} {s t : State} (h : issue c s = .next t) : t.cfg = s.cfg := by
  rcases issue_cases c s with ⟨i, hi⟩ | hi
  · exact exec_cfg (hi.symm.trans h)
  · obtain rfl := Host.Outcome.next.inj (hi.symm.trans h)
    exact raise_cfg .illegal s

/-- Settles O14: with no command waiting nothing happens, and otherwise one command leaves the queue and is
issued. -/
theorem configurationNeverChanges : Obligations.ConfigurationNeverChanges := by
  intro s t h
  unfold step at h
  split at h
  next => exact Host.Outcome.next.inj h ▸ rfl
  next c rest _ => exact issue_cfg (s := { s with inputs := rest }) h

/-! ## Refusals during a transmission (20 R79, 70 R398) -/

theorem exec_bsfBuild_busy {s : State} (hbusy : s.afsk.state = .transmitting) :
    exec .bsfBuild s = .next (raise .busy s) := by
  show execBsfBuild s = _
  rw [execBsfBuild, hbusy]

/-- An address slot that does not exist fails the first test of BSF.ADDR (40 R148, 60 R362). -/
theorem exec_bsfAddr_range {slot : BitVec 8} {s : State} (hslot : 1 + s.cfg.maxPath < slot.toNat) (last : Bool) :
    exec (.bsfAddr slot last) s = .next (raise .range s) :=
  congrArg Host.Outcome.next (if_pos hslot)

theorem exec_appendsBits_busy {i : Instr} {s : State} (hbusy : s.afsk.state = .transmitting) (hi : appendsBits i = true)
    (hslot : ∀ slot last, i = .bsfAddr slot last → slot.toNat ≤ 1 + s.cfg.maxPath) :
    exec i s = .next (raise .busy s) := by
  cases i with
  | bsfSync | bsfFlag | bsfByte | bsfFcs => exact congrArg Host.Outcome.next (bitWriting_busy hbusy)
  | bsfAddr slot last =>
    exact (exec_bsfAddr (hslot slot last rfl) last).trans (congrArg Host.Outcome.next (bitWriting_busy hbusy))
  | bsfBuild => exact exec_bsfBuild_busy hbusy
  | _ => cases hi

/-! ## The bit sequence and its registers -/

/-- `t` has the bit memory of `s` and the registers that go with it; the operands of BSF are not among them. -/
structure SameSequence (s t : State) : Prop where
  bits : t.bsf.bits = s.bsf.bits := by rfl
  bitlen : t.bsf.bitlen = s.bsf.bitlen := by rfl
  crc : t.bsf.crc = s.bsf.crc := by rfl
  ones : t.bsf.ones = s.bsf.ones := by rfl
  ovf : t.bsf.ovf = s.bsf.ovf := by rfl

namespace SameSequence

variable {s t t' : State}

theorem ofBsf (h : t.bsf = s.bsf) : SameSequence s t := by constructor <;> rw [h]

theorem ite {p : Prop} [Decidable p] (h : SameSequence s t) (h' : SameSequence s t') :
    SameSequence s (if p then t else t') := by
  split
  · exact h
  · exact h'

end SameSequence

/-- BUSY, or RANGE for a slot that does not exist: either way the operation is refused and the sequence is as it was. -/
theorem appendsBits_sameSequence {i : Instr} {s : State} (hbusy : s.afsk.state = .transmitting)
    (hi : appendsBits i = true) : ∃ t, exec i s = .next t ∧ SameSequence s t := by
  by_cases hslot : ∀ slot last, i = .bsfAddr slot last → slot.toNat ≤ 1 + s.cfg.maxPath
  · exact ⟨_, exec_appendsBits_busy hbusy hi hslot, {}⟩
  · push Not at hslot
    obtain ⟨slot, last, rfl, hrange⟩ := hslot
    exact ⟨_, exec_bsfAddr_range hrange last, {}⟩

theorem load_sameSequence {i : Instr} (hi : isLoad i = true) (s : State) :
    ∃ t, exec i s = .next t ∧ SameSequence s t := by
  rcases exec_load hi s with ⟨v, hexec⟩ | hexec
  · exact ⟨_, hexec, {}⟩
  · exact ⟨_, hexec, {}⟩

/-- While Transmitting the operations that write the sequence are refused; the stores write operands, the loads nothing,
and of the other units only MICE.PUT writes BSF, its operands alone. -/
theorem exec_sameSequence {i : Instr} {s : State} (hbusy : s.afsk.state = .transmitting) (hi : i ≠ .sysReset) :
    ∃ t, exec i s = .next t ∧ SameSequence s t := by
  cases i with
  | bsfRst => exact ⟨_, exec_bsfRst_busy hbusy, {}⟩
  | bsfSync | bsfFlag | bsfByte | bsfAddr | bsfFcs | bsfBuild => exact appendsBits_sameSequence hbusy rfl
  | bsfWaddr slot k x => exact ⟨_, rfl, .ite {} {}⟩
  | bsfWmsg k x => exact ⟨_, rfl, {}⟩
  | bsfSetlen n => exact ⟨_, rfl, .ite {} {}⟩
  | bsfSetpath n => exact ⟨_, rfl, .ite {} {}⟩
  | bsfRbit | bsfRlen | bsfRcrc | bsfRaddr | bsfRmsg => exact load_sameSequence rfl s
  | micePut => exact ⟨_, rfl, .ite {} {}⟩
  | _ =>
    obtain ⟨t, hexec, hends⟩ := exec_opEnds _ s
    exact ⟨t, hexec, .ofBsf ((hends.sameUnits hi).bsf (by simp [writtenUnit, unitOf, encode]))⟩

/-- Settles O19: the refusals, and what every operation leaves of the sequence. -/
theorem bitSequenceIsReadOnlyDuringTransmission : Obligations.BitSequenceIsReadOnlyDuringTransmission := by
  refine ⟨fun i s hbusy hi => ?refused, fun i s t hbusy hi h => ?unchanged⟩
  case refused =>
    rcases hi with rfl | ⟨happends, hslot⟩
    · exact exec_bsfRst_busy hbusy
    · exact exec_appendsBits_busy hbusy happends hslot
  case unchanged =>
    obtain ⟨u, hu, same⟩ := exec_sameSequence hbusy hi
    obtain rfl := Host.Outcome.next.inj (hu.symm.trans h)
    exact ⟨same.bits, same.bitlen, same.crc, same.ones, same.ovf⟩

end Sys2Proof.Machine
end

section
/-! SUPPORT. What step adds around an operation: the oldest command is taken from the queue and decoded, and a word
presented next is that command (20 R78, 30 R102; notes/assumptions/1.md). -/

namespace Sys2Proof

/-- The word that the encoder gives an operation decodes to it. -/
theorem decode_eq_ok_of_encode_eq {i : Instr} {w : CmdWord} (h : encode i = w) : decode w = .ok i :=
  h ▸ decode_encode i

/-- Settles O7: each word is the one that the encoder gives its operation. -/
theorem wordsOfTheSpecDecode : Obligations.WordsOfTheSpecDecode := by
  refine ⟨?_, ?_, ?_, ?_, ?_, ?_, ?_, ?_, ?_, ?_, ?_⟩ <;> exact decode_eq_ok_of_encode_eq (by decide)

namespace Machine

theorem step_of_inputs_eq_nil {s : State} (h : s.inputs = []) : step s = .next s := by
  rw [step, h]

/-- Settles O1: the admitted command by `step_admitted`, whatever its word; the empty queue by `step_of_inputs_eq_nil`. -/
theorem stepRunsTheDecodedCommand : Obligations.StepRunsTheDecodedCommand :=
  ⟨fun _ _ _ _ hinputs hdecode hport => step_admitted hinputs hdecode hport, fun _ => step_of_inputs_eq_nil⟩

/-! ## A presented word -/

/-- A presented word of 24 bits is issued as it is (20 R72). -/
theorem tableWord_toNat (w : CmdWord) : tableWord 24 w.toNat = w := by
  rw [tableWord, Nat.mod_eq_of_lt w.isLt, BitVec.ofNat_toNat, BitVec.setWidth_eq]

theorem admittedCommand_encode (i : Instr) : admittedCommand (encode i) = { port := i.port, word := encode i } := by
  rw [admittedCommand, decode_encode]

/-- Presenting the word of an operation puts it at the head of the queue, on the port that admits it. -/
theorem withFetchWord_encode_inputs (i : Instr) (s : State) :
    (s.withFetchWord 24 (encode i).toNat).inputs = { port := i.port, word := encode i } :: s.inputs := by
  rw [State.withFetchWord, tableWord_toNat, admittedCommand_encode]

/-- Settles O8: the presented command is the oldest, its word decodes to `i`, and taking it leaves the queue of `s`. -/
theorem presentedWordRunsItsInstruction : Obligations.PresentedWordRunsItsInstruction := fun i s =>
  step_admitted (withFetchWord_encode_inputs i s) (decode_encode i) rfl

end Machine

end Sys2Proof
end
